-- ==== Sys2Proof/Word.lean ====
section
/-! DEFINITION. The plain words of MDSEQ (spec/00_scope.md rule R7): every device access is one byte, every
command is one 40-bit word, every co-processor address is 16 bits. Bit 0 is the least significant bit. -/

namespace Sys2Proof

/-- One byte, the width of every device access (R76) and of every Pattern Store element (R21). -/
abbrev Byte := BitVec 8

/-- The 40-bit command word on the command port (R100). -/
abbrev CmdWord := BitVec 40

/-- An address of the co-processor space (R60). -/
abbrev CoAddr := BitVec 16

/-- The two halves of the FM chip (00_scope.md, glossary: "part A / part B"). -/
inductive Part where
  | A
  | B
  deriving DecidableEq, Repr

end Sys2Proof
end

