-- ==== Sys2Proof/Syntax.lean ====
section
/-! DEFINITION. The command set: one constructor per row of spec/opcode_table.json, with the operands of
spec/30_encoding.md rules R101, R103 and R121, each at the width of its field, in the order of the syntax. -/

namespace Sys2Proof

/-- The 35 commands of R102. An operand keeps the bits of its field. The two signed operands
(`setFmnote`'s value and `mapFnum`'s note) are read as two's complement by their meanings (R103). -/
inductive Instr where
  /-- R232 -/
  | nop
  /-- R233 -/
  | setTempo (v : Byte)
  /-- R234 -/
  | setGate (step : BitVec 4) (v : Byte)
  /-- R235 -/
  | setAccent (step : BitVec 4) (v : Byte)
  /-- R236 -/
  | setSpeed (step : BitVec 4) (v : Byte)
  /-- R237 -/
  | setPsgnote (step : BitVec 4) (v : Byte)
  /-- R238 -/
  | setFmnote (step : BitVec 4) (v : Byte)
  /-- R239 -/
  | setInstr (field : BitVec 8) (idx : BitVec 5) (v : Byte)
  /-- R201 -/
  | frameIn (buttons : Byte)
  /-- R203 -/
  | frameRun
  /-- R141 -/
  | pcmPlay
  /-- R142 -/
  | pcmStop
  /-- R143 -/
  | pcmRegion (start length : BitVec 16)
  /-- R144 -/
  | pcmAccent (b : BitVec 1)
  /-- R145 -/
  | pcmSpeed (v : Byte)
  /-- R146 -/
  | pcmBank (addr : BitVec 24)
  /-- R147 -/
  | pcmMeter
  /-- R161 -/
  | toneSet (ch : BitVec 2) (divider : BitVec 10)
  /-- R162 -/
  | toneEnv (ch : BitVec 2) (level : BitVec 4)
  /-- R163 -/
  | toneNoise (noiseType : BitVec 1) (fclass : BitVec 2)
  /-- R172 -/
  | fmLfo (enable : BitVec 1) (speed : BitVec 3)
  /-- R173 -/
  | fmDetmul (ch : BitVec 3) (opr : BitVec 2) (detune : BitVec 3) (mult : BitVec 4)
  /-- R174 -/
  | fmLevel (ch : BitVec 3) (opr : BitVec 2) (level : BitVec 7)
  /-- R175 -/
  | fmAttack (ch : BitVec 3) (opr : BitVec 2) (attack : BitVec 5)
  /-- R176 -/
  | fmRelsus (ch : BitVec 3) (opr : BitVec 2) (release sustain : BitVec 4)
  /-- R177 -/
  | fmDecam (ch : BitVec 3) (opr : BitVec 2) (decay : BitVec 5) (am : BitVec 1)
  /-- R178 -/
  | fmFbalg (ch : BitVec 3) (feedback algorithm : BitVec 3)
  /-- R179 -/
  | fmPanamsfms (ch : BitVec 3) (pan ams : BitVec 2) (fms : BitVec 3)
  /-- R180 -/
  | fmPitch (ch : BitVec 3) (block : BitVec 3) (fnum : BitVec 11)
  /-- R181 -/
  | fmKeyon (ch : BitVec 3)
  /-- R182 -/
  | fmKeyoff (ch : BitVec 3)
  /-- R183 -/
  | fmLatch
  /-- R184 -/
  | fmVoiceLoad
  /-- R131 -/
  | mapDiv (note : Byte)
  /-- R134 -/
  | mapFnum (note : BitVec 16)
  deriving DecidableEq, Repr

end Sys2Proof
end

