-- ==== Sys2Proof/WellFormed.lean ====
section
/-! DEFINITION. Which commands are well formed: no operand holds a reserved field value (spec/30_encoding.md
rule R107), and a scalar SET_INSTR has index 0, its one spelling (R121, vector EN2). The two checks of R107 that
depend on the machine (MAP_DIV's note against PSG_NOTE_MAX, and `halted`) stand in the meanings. -/

namespace Sys2Proof

/-- An FM channel of the document, 0 to 5 (R107). -/
def fmChannelOk (ch : BitVec 3) : Bool := ch.toNat < 6

/-- SET_INSTR's field and index (R107): the field is 0 to 14; field 4 (`level`) takes a slot 0 to 23; every
other field is a scalar and is written with index 0 (R121; DEDUCED, log entry 7). -/
def setInstrOk (field : BitVec 8) (idx : BitVec 5) : Bool :=
  field.toNat < 15 && (if field = 4 then idx.toNat < 24 else idx = 0)

/-- The command holds no reserved field value. -/
def Instr.wellFormed : Instr → Bool
  | .nop => true
  | .setTempo _ => true
  | .setGate _ _ => true
  | .setAccent _ _ => true
  | .setSpeed _ _ => true
  | .setPsgnote _ _ => true
  | .setFmnote _ _ => true
  | .setInstr field idx _ => setInstrOk field idx
  | .frameIn _ => true
  | .frameRun => true
  | .pcmPlay => true
  | .pcmStop => true
  | .pcmRegion _ _ => true
  | .pcmAccent _ => true
  | .pcmSpeed _ => true
  | .pcmBank _ => true
  | .pcmMeter => true
  | .toneSet ch _ => ch != 3
  | .toneEnv _ _ => true
  | .toneNoise _ _ => true
  | .fmLfo _ _ => true
  | .fmDetmul ch _ _ _ => fmChannelOk ch
  | .fmLevel ch _ _ => fmChannelOk ch
  | .fmAttack ch _ _ => fmChannelOk ch
  | .fmRelsus ch _ _ _ => fmChannelOk ch
  | .fmDecam ch _ _ _ => fmChannelOk ch
  | .fmFbalg ch _ _ => fmChannelOk ch
  | .fmPanamsfms ch _ _ _ => fmChannelOk ch
  | .fmPitch ch _ _ => fmChannelOk ch
  | .fmKeyon ch => fmChannelOk ch
  | .fmKeyoff ch => fmChannelOk ch
  | .fmLatch => true
  | .fmVoiceLoad => true
  | .mapDiv _ => true
  | .mapFnum _ => true

/-- The commands of files 41, 42 and 43: those whose micro-sequence contains an ACQ (R107, R267). -/
def Instr.isAdapter : Instr → Bool
  | .pcmPlay | .pcmStop | .pcmRegion _ _ | .pcmAccent _ | .pcmSpeed _ | .pcmBank _ | .pcmMeter => true
  | .toneSet _ _ | .toneEnv _ _ | .toneNoise _ _ => true
  | .fmLfo _ _ | .fmDetmul _ _ _ _ | .fmLevel _ _ _ | .fmAttack _ _ _ | .fmRelsus _ _ _ _ => true
  | .fmDecam _ _ _ _ | .fmFbalg _ _ _ | .fmPanamsfms _ _ _ _ | .fmPitch _ _ _ => true
  | .fmKeyon _ | .fmKeyoff _ | .fmLatch | .fmVoiceLoad => true
  | .nop | .setTempo _ | .setGate _ _ | .setAccent _ _ | .setSpeed _ _ | .setPsgnote _ _ => false
  | .setFmnote _ _ | .setInstr _ _ _ | .frameIn _ | .frameRun | .mapDiv _ | .mapFnum _ => false

/-- The FM commands (spec/43_fm_adapter.md). -/
def Instr.isFm : Instr → Bool
  | .fmLfo _ _ | .fmDetmul _ _ _ _ | .fmLevel _ _ _ | .fmAttack _ _ _ | .fmRelsus _ _ _ _ => true
  | .fmDecam _ _ _ _ | .fmFbalg _ _ _ | .fmPanamsfms _ _ _ _ | .fmPitch _ _ _ => true
  | .fmKeyon _ | .fmKeyoff _ | .fmLatch | .fmVoiceLoad => true
  | .nop | .setTempo _ | .setGate _ _ | .setAccent _ _ | .setSpeed _ _ | .setPsgnote _ _ => false
  | .setFmnote _ _ | .setInstr _ _ _ | .frameIn _ | .frameRun | .mapDiv _ | .mapFnum _ => false
  | .pcmPlay | .pcmStop | .pcmRegion _ _ | .pcmAccent _ | .pcmSpeed _ | .pcmBank _ | .pcmMeter => false
  | .toneSet _ _ | .toneEnv _ _ | .toneNoise _ _ => false

end Sys2Proof
end

