-- ==== Sys2Proof/Decode.lean ====
section
/-! DEFINITION. The decoder of spec/30_encoding.md rules R100 to R107 and R120, total on all 2^40 words and
rejecting by name, and the encoder of the same tables. -/

namespace Sys2Proof

/-- Why a word is no command (R105, R107). -/
inductive DecodeError where
  /-- The opcode byte is in no row of R102 (R105). -/
  | reservedOpcode (op : Byte)
  /-- TONE_SET with channel 3, or an FM command with channel 6 or 7 (R107). -/
  | reservedChannel (ch : Nat)
  /-- SET_INSTR with a field above 14 (R107). -/
  | reservedField (field : Byte)
  /-- SET_INSTR level with a slot above 23 (R107). -/
  | reservedSlot (idx : BitVec 5)
  deriving DecidableEq, Repr

/-- The bits `lo + n - 1` down to `lo` of a word (R7). -/
def bits (lo n : Nat) (w : CmdWord) : BitVec n := w.extractLsb' lo n

/-- The opcode byte, bits 39 to 32 (R100). -/
def opcodeField (w : CmdWord) : Byte := bits 32 8 w

/-- The channel field of formats O and C, bits 26 to 24 (R101), handed on only when it is a channel (R107). -/
def withFmChannel (w : CmdWord) (f : BitVec 3 → Instr) : Except DecodeError Instr :=
  if fmChannelOk (bits 24 3 w) then .ok (f (bits 24 3 w)) else .error (.reservedChannel (bits 24 3 w).toNat)

/-- SET_INSTR's operands (R101 format I, R107, R121): the index of a scalar field is unused and is
read as 0 (log entry 7). -/
def decodeSetInstr (field : BitVec 8) (idx : BitVec 5) (v : Byte) : Except DecodeError Instr :=
  if field.toNat ≥ 15 then .error (.reservedField field)
  else if field = 4 then
    (if idx.toNat ≥ 24 then .error (.reservedSlot idx) else .ok (.setInstr field idx v))
  else .ok (.setInstr field 0 v)

/-- The decoding algorithm of R120: opcode, fields by R101, operands by R103, reserved field values by R107. -/
def decode (w : CmdWord) : Except DecodeError Instr :=
  match (opcodeField w).toNat with
  | 0x00 => .ok .nop
  | 0x01 => .ok (.setTempo (bits 0 8 w))
  | 0x02 => .ok (.setGate (bits 16 4 w) (bits 0 8 w))
  | 0x03 => .ok (.setAccent (bits 16 4 w) (bits 0 8 w))
  | 0x04 => .ok (.setSpeed (bits 16 4 w) (bits 0 8 w))
  | 0x05 => .ok (.setPsgnote (bits 16 4 w) (bits 0 8 w))
  | 0x06 => .ok (.setFmnote (bits 16 4 w) (bits 0 8 w))
  | 0x07 => decodeSetInstr (bits 16 8 w) (bits 8 5 w) (bits 0 8 w)
  | 0x0E => .ok (.frameIn (bits 0 8 w))
  | 0x0F => .ok .frameRun
  | 0x10 => .ok .pcmPlay
  | 0x11 => .ok .pcmStop
  | 0x12 => .ok (.pcmRegion (bits 16 16 w) (bits 0 16 w))
  | 0x13 => .ok (.pcmAccent (bits 0 1 w))
  | 0x14 => .ok (.pcmSpeed (bits 0 8 w))
  | 0x15 => .ok (.pcmBank (bits 0 24 w))
  | 0x16 => .ok .pcmMeter
  | 0x20 =>
    if bits 16 2 w = 3 then .error (.reservedChannel 3) else .ok (.toneSet (bits 16 2 w) (bits 0 10 w))
  | 0x21 => .ok (.toneEnv (bits 16 2 w) (bits 0 4 w))
  | 0x22 => .ok (.toneNoise (bits 2 1 w) (bits 0 2 w))
  | 0x30 => .ok (.fmLfo (bits 3 1 w) (bits 0 3 w))
  | 0x31 => withFmChannel w fun ch => .fmDetmul ch (bits 16 2 w) (bits 4 3 w) (bits 0 4 w)
  | 0x32 => withFmChannel w fun ch => .fmLevel ch (bits 16 2 w) (bits 0 7 w)
  | 0x33 => withFmChannel w fun ch => .fmAttack ch (bits 16 2 w) (bits 0 5 w)
  | 0x34 => withFmChannel w fun ch => .fmRelsus ch (bits 16 2 w) (bits 0 4 w) (bits 4 4 w)
  | 0x35 => withFmChannel w fun ch => .fmDecam ch (bits 16 2 w) (bits 0 5 w) (bits 7 1 w)
  | 0x36 => withFmChannel w fun ch => .fmFbalg ch (bits 3 3 w) (bits 0 3 w)
  | 0x37 => withFmChannel w fun ch => .fmPanamsfms ch (bits 6 2 w) (bits 4 2 w) (bits 0 3 w)
  | 0x38 => withFmChannel w fun ch => .fmPitch ch (bits 11 3 w) (bits 0 11 w)
  | 0x39 => withFmChannel w fun ch => .fmKeyon ch
  | 0x3A => withFmChannel w fun ch => .fmKeyoff ch
  | 0x3B => .ok .fmLatch
  | 0x3C => .ok .fmVoiceLoad
  | 0x40 => .ok (.mapDiv (bits 0 8 w))
  | 0x41 => .ok (.mapFnum (bits 0 16 w))
  | _ => .error (.reservedOpcode (opcodeField w))

/-- A field's value at its place in the command word (R102: the word is the opcode and the operand fields, each
shifted to its place, or-ed together). -/
def place {n : Nat} (lo : Nat) (x : BitVec n) : CmdWord := x.setWidth 40 <<< lo

/-- The opcode byte at its place (R102). -/
def opWord (op : Byte) : CmdWord := place 32 op

/-- The word of a command, unused bits 0 (R102, R103, R104). -/
def encode : Instr → CmdWord
  | .nop => opWord 0x00
  | .setTempo v => opWord 0x01 ||| place 0 v
  | .setGate step v => opWord 0x02 ||| place 16 step ||| place 0 v
  | .setAccent step v => opWord 0x03 ||| place 16 step ||| place 0 v
  | .setSpeed step v => opWord 0x04 ||| place 16 step ||| place 0 v
  | .setPsgnote step v => opWord 0x05 ||| place 16 step ||| place 0 v
  | .setFmnote step v => opWord 0x06 ||| place 16 step ||| place 0 v
  | .setInstr field idx v => opWord 0x07 ||| place 16 field ||| place 8 idx ||| place 0 v
  | .frameIn buttons => opWord 0x0E ||| place 0 buttons
  | .frameRun => opWord 0x0F
  | .pcmPlay => opWord 0x10
  | .pcmStop => opWord 0x11
  | .pcmRegion start length => opWord 0x12 ||| place 16 start ||| place 0 length
  | .pcmAccent b => opWord 0x13 ||| place 0 b
  | .pcmSpeed v => opWord 0x14 ||| place 0 v
  | .pcmBank addr => opWord 0x15 ||| place 0 addr
  | .pcmMeter => opWord 0x16
  | .toneSet ch divider => opWord 0x20 ||| place 16 ch ||| place 0 divider
  | .toneEnv ch level => opWord 0x21 ||| place 16 ch ||| place 0 level
  | .toneNoise noiseType fclass => opWord 0x22 ||| place 2 noiseType ||| place 0 fclass
  | .fmLfo enable speed => opWord 0x30 ||| place 3 enable ||| place 0 speed
  | .fmDetmul ch opr detune mult =>
    opWord 0x31 ||| place 24 ch ||| place 16 opr ||| place 4 detune ||| place 0 mult
  | .fmLevel ch opr level => opWord 0x32 ||| place 24 ch ||| place 16 opr ||| place 0 level
  | .fmAttack ch opr attack => opWord 0x33 ||| place 24 ch ||| place 16 opr ||| place 0 attack
  | .fmRelsus ch opr release sustain =>
    opWord 0x34 ||| place 24 ch ||| place 16 opr ||| place 4 sustain ||| place 0 release
  | .fmDecam ch opr decay am =>
    opWord 0x35 ||| place 24 ch ||| place 16 opr ||| place 7 am ||| place 0 decay
  | .fmFbalg ch feedback algorithm =>
    opWord 0x36 ||| place 24 ch ||| place 3 feedback ||| place 0 algorithm
  | .fmPanamsfms ch pan ams fms =>
    opWord 0x37 ||| place 24 ch ||| place 6 pan ||| place 4 ams ||| place 0 fms
  | .fmPitch ch block fnum => opWord 0x38 ||| place 24 ch ||| place 11 block ||| place 0 fnum
  | .fmKeyon ch => opWord 0x39 ||| place 24 ch
  | .fmKeyoff ch => opWord 0x3A ||| place 24 ch
  | .fmLatch => opWord 0x3B
  | .fmVoiceLoad => opWord 0x3C
  | .mapDiv note => opWord 0x40 ||| place 0 note
  | .mapFnum note => opWord 0x41 ||| place 0 note

/-- The operand bits that the operands of an opcode are taken from (R101, R103), as a mask; every other operand bit is
unused (R104). -/
def usedBits (op : Byte) : CmdWord :=
  match op.toNat with
  | 0x01 | 0x0E | 0x14 | 0x40 => 0x00000000FF
  | 0x02 | 0x03 | 0x04 | 0x05 | 0x06 => 0x00000F00FF
  | 0x07 => 0x0000FF1FFF
  | 0x12 => 0x00FFFFFFFF
  | 0x13 => 0x0000000001
  | 0x15 => 0x0000FFFFFF
  | 0x20 => 0x00000303FF
  | 0x21 => 0x000003000F
  | 0x22 => 0x0000000007
  | 0x30 => 0x000000000F
  | 0x31 | 0x32 => 0x000703007F
  | 0x33 => 0x000703001F
  | 0x34 => 0x00070300FF
  | 0x35 => 0x000703009F
  | 0x36 => 0x000700003F
  | 0x37 => 0x00070000F7
  | 0x38 => 0x0007003FFF
  | 0x39 | 0x3A => 0x0007000000
  | 0x41 => 0x000000FFFF
  | _ => 0

/-- The command word whose low `nbits` bits are those of `w` and whose other bits are 0. The word is presented
whole (R74), so there is no byte order to lay out. -/
def wordOfBits (nbits w : Nat) : CmdWord := BitVec.ofNat 40 (w % 2 ^ nbits)

/-- The command the decoder reads from a row's bits, `none` where it refuses. -/
def decodeTableWord (nbits w : Nat) : Option Instr := (decode (wordOfBits nbits w)).toOption

end Sys2Proof
end

