-- ==== Sys2Proof/Config.lean ====
section
/-! DEFINITION. The implementation parameters of spec/00_scope.md rule R6 as one record, their constraints, the
spec's reference instance, and the environment's free answers (spec/20_memory.md rules R66 to R68).
The record is a field of State, so a statement about every state speaks of every value of every parameter. -/

namespace Sys2Proof

/-- One port write of the FM latch step (R183: `FM_LATCH_SEQ` is a list of `FMA` / `FMD`). -/
inductive FmPortWrite where
  /-- `FMA(p, b)` -/
  | addr (p : Part) (b : Byte)
  /-- `FMD(p, b)` -/
  | data (p : Part) (b : Byte)
  deriving DecidableEq, Repr

/-- `OPREG_ADDR[f]`: the 8-bit register number for each of the 24 slots `4*ch + op` (R113). The part of a slot is
fixed by the document (A for channels 0 to 2, B for 3 to 5), so the table holds the number alone. -/
abbrev OpRegTable := Vector Byte 24

/-- The configuration record (R6). A bound that a type can carry is carried by the type; the rest is `legal`. -/
structure Params where
  /-- `KIT[1..KIT_N]`, each (start, length) in bytes; `KIT_N` is the list's length. -/
  kit : List (BitVec 16 × BitVec 16)
  psgNoteMax : Byte
  fmNoteStoreMax : Nat
  fmNoteMin : Nat
  fmNoteMax : Nat
  toneBase : Vector (BitVec 10) 12
  fnumTable : Vector (BitVec 11) 12
  oprDetmul : OpRegTable
  oprLevel : OpRegTable
  oprAttack : OpRegTable
  oprDecam : OpRegTable
  oprRelsus : OpRegTable
  chregFnumLo : Byte
  chregFnumHi : Byte
  chregFbalg : Byte
  chregPanamsfms : Byte
  lfoReg : Byte
  keyReg : Byte
  fmDelayNops : Nat
  fmLatchSeq : List FmPortWrite
  mbxPlay : CoAddr
  mbxStop : CoAddr
  mbxStart : CoAddr
  mbxLength : CoAddr
  mbxAccent : CoAddr
  mbxSpeed : CoAddr
  mbxBank : CoAddr
  mbxMeter : CoAddr
  pcmFlagSet : Byte
  pcmFlagClear : Byte
  /-- `ACCENT_BYTE[0]` and `ACCENT_BYTE[1]` -/
  accentByte0 : Byte
  accentByte1 : Byte
  psgChannel : Fin 3
  psgOnLevel : BitVec 4
  fmChannel : Fin 6
  fmVoiceChannels : List (Fin 6)
  chordA : Fin 8
  chordB : Fin 8
  /-- A list of adapter commands (R6, R201). -/
  onStopActions : List Instr
  /-- `none` is infinity (R6, R253). -/
  busTimeout : Option Nat
  /-- `none` is infinity (R6, R253). -/
  fmTimeout : Option Nat
  deriving DecidableEq, Repr

/-- `KIT_N` (R6). -/
def Params.kitN (p : Params) : Nat := p.kit.length

/-- The twelve mailbox cells (R6, R77): `MBX_START` and `MBX_LENGTH` cover 2 bytes, `MBX_BANK` covers 3. -/
def Params.mailboxCells (p : Params) : List Nat :=
  [p.mbxPlay.toNat, p.mbxStop.toNat, p.mbxStart.toNat, p.mbxStart.toNat + 1, p.mbxLength.toNat,
   p.mbxLength.toNat + 1, p.mbxAccent.toNat, p.mbxSpeed.toNat, p.mbxBank.toNat, p.mbxBank.toNat + 1,
   p.mbxBank.toNat + 2, p.mbxMeter.toNat]

/-- A timeout is a positive number of retries or infinity (R6). -/
def timeoutLegal : Option Nat → Bool
  | none => true
  | some n => 1 ≤ n

/-- The constraints of R6 that the types do not carry. The mailbox cells are distinct 16-bit addresses. A channel
register's base plus `ch mod 3` stays an 8-bit number (R136: nothing overflows). DEDUCED, log entry 6.
That a member of ON_STOP_ACTIONS may be any adapter command of files 41 to 43, FM_VOICE_LOAD included although R184 says
that no transport rule issues it, is a DESIGN CHOICE, log entry 21. -/
def Params.legal (p : Params) : Bool :=
  decide (1 ≤ p.kitN ∧ p.kitN ≤ 255)
  && decide (1 ≤ p.psgNoteMax.toNat)
  && decide (1 ≤ p.fmNoteStoreMax ∧ p.fmNoteStoreMax ≤ 127)
  && decide (p.fmNoteMin ≤ p.fmNoteMax ∧ p.fmNoteMax ≤ 32767)
  && decide (p.chregFnumLo.toNat ≤ 253 ∧ p.chregFnumHi.toNat ≤ 253
      ∧ p.chregFbalg.toNat ≤ 253 ∧ p.chregPanamsfms.toNat ≤ 253)
  && decide (1 ≤ p.fmDelayNops)
  && decide (p.mailboxCells.Nodup) && p.mailboxCells.all (fun a => a < 65536)
  && decide (p.pcmFlagSet ≠ p.pcmFlagClear)
  && decide (p.fmVoiceChannels.Nodup)
  && decide (p.chordA ≠ p.chordB)
  && p.onStopActions.all (fun i => i.isAdapter && i.wellFormed)
  && timeoutLegal p.busTimeout && timeoutLegal p.fmTimeout

/-- The reference address table of R113: `BASE_f + (ch mod 3) + SLOT[op]`, `SLOT = [0, 8, 4, 12]`. -/
def refOpReg (base : Nat) : OpRegTable :=
  Vector.ofFn fun k => BitVec.ofNat 8 (base + (k.val / 4) % 3 + [0, 8, 4, 12].getD (k.val % 4) 0)

/-- The reference instance of R6, the spec's own choice of every open parameter (log entry 1). -/
def Params.reference : Params where
  kit := (List.range 9).map fun g => (BitVec.ofNat 16 (0x0800 * g), 0x0800#16)
  psgNoteMax := 72
  fmNoteStoreMax := 127
  fmNoteMin := 0
  fmNoteMax := 127
  toneBase := #v[855, 807, 762, 719, 679, 641, 605, 571, 539, 508, 480, 453]
  fnumTable := #v[644, 682, 723, 766, 811, 859, 910, 965, 1022, 1083, 1147, 1215]
  oprDetmul := refOpReg 0x30
  oprLevel := refOpReg 0x40
  oprAttack := refOpReg 0x50
  oprDecam := refOpReg 0x60
  oprRelsus := refOpReg 0x80
  chregFnumLo := 0xA0
  chregFnumHi := 0xA4
  chregFbalg := 0xB0
  chregPanamsfms := 0xB4
  lfoReg := 0x22
  keyReg := 0x28
  fmDelayNops := 3
  fmLatchSeq := [.addr .A 0x2A]
  mbxPlay := 0x1FF0
  mbxStop := 0x1FF1
  mbxStart := 0x1FF2
  mbxLength := 0x1FF4
  mbxAccent := 0x1FF6
  mbxSpeed := 0x1FF7
  mbxBank := 0x1FF8
  mbxMeter := 0x1FFB
  pcmFlagSet := 0x01
  pcmFlagClear := 0x00
  accentByte0 := 0x00
  accentByte1 := 0x01
  psgChannel := 0
  psgOnLevel := 0
  fmChannel := 0
  fmVoiceChannels := [0, 1, 2, 3, 4, 5]
  chordA := 7
  chordB := 4
  onStopActions := []
  busTimeout := none
  fmTimeout := none

/-- FREE VALUE (log entry 2): the environment's answer to the k-th question of a run, where the question is an
attempt of an ACQ; `true` is granted. The rules place no constraint on it (R66). -/
opaque Config.busGrant : Nat → Bool

/-- FREE VALUE (log entry 2): the answer of the k-th question where it is a status read of an FMS; `true` is busy.
The rules place no constraint on it (R67). -/
opaque Config.fmBusy : Nat → Bool

/-- FREE VALUE (log entry 2): the byte of the k-th question where it is a read of the level meter.
The rules place no constraint on it (R68). -/
opaque Config.levelMeter : Nat → Byte

end Sys2Proof
end

