-- ==== Sys2Proof/Machine/State.lean ====
section
/-! DEFINITION. The state of the block (spec/10_state.md), its micro-operations and trace events
(spec/20_memory.md rule R61), the reasons a step can stop, and reset (spec/70_reset_and_hazards.md). -/

namespace Sys2Proof.Machine

/-- The micro-operations (R61's table). -/
inductive MicroOp where
  /-- R62: acquire the shared bus; a hold. -/
  | acq
  /-- R63: release the bus. -/
  | rel
  /-- R64: write byte `b` to address `a` of the co-processor space. -/
  | mbw (a : CoAddr) (b : Byte)
  /-- R65: read one byte of the co-processor space. -/
  | mbr (a : CoAddr)
  /-- R69: write a byte to the tone port. -/
  | tpw (b : Byte)
  /-- R70: poll the FM busy flag; a hold. -/
  | fms
  /-- R71: write a byte to the address port of a part. -/
  | fma (p : Part) (b : Byte)
  /-- R71: write a byte to the data port of a part. -/
  | fmd (p : Part) (b : Byte)
  /-- R72: delay cycles. -/
  | dly (n : Nat)
  /-- R72: the request to the persistence collaborator. -/
  | persist
  deriving DecidableEq, Repr

/-- The trace events (R61's table): a micro-operation with the value the environment returned. -/
inductive Event where
  | acq
  | rel
  | mbw (a : CoAddr) (b : Byte)
  | mbr (a : CoAddr) (v : Byte)
  | tpw (b : Byte)
  /-- `FMS 1` when `busy`, `FMS 0` when not. -/
  | fms (busy : Bool)
  | fma (p : Part) (b : Byte)
  | fmd (p : Part) (b : Byte)
  | dly (n : Nat)
  | persist
  deriving DecidableEq, Repr

/-- A state update that a rule writes after an `emit` and that waits for the micro-operations before it (R61). -/
inductive Deferred where
  /-- R209: `step_position <- (step_position + 1) mod 16` -/
  | advanceStep
  /-- R203: `frame_counter <- frame_counter + 1` -/
  | tickFrame
  deriving DecidableEq, Repr

/-- The two fault causes of R252. -/
inductive FaultCause where
  | busContention
  | fmBusyTimeout
  deriving DecidableEq, Repr

/-- The identifiers of the Instrument file (R35), in the order of their numbers. -/
inductive InstrField where
  | lfoEnable | lfoSpeed | detune | multiplier | level | attack | release | sustain | decay | amEnable
  | feedback | algorithm | pan | ams | fms
  deriving DecidableEq, Repr

/-- The Pattern Store: five arrays of 16 bytes (R21 to R26). `fmNote` is two's complement. -/
structure PatternStore where
  gate : Vector Byte 16
  accent : Vector Byte 16
  speed : Vector Byte 16
  psgNote : Vector Byte 16
  fmNote : Vector Byte 16
  deriving DecidableEq, Repr

/-- The Instrument file, each field in a register of its width (R34, R35); `level` has a slot `4*ch + op` for each
channel 0..5 and operator 0..3 (R36). -/
structure Instrument where
  lfoEnable : BitVec 1
  lfoSpeed : BitVec 3
  detune : BitVec 3
  multiplier : BitVec 4
  level : Vector (BitVec 7) 24
  attack : BitVec 5
  release : BitVec 4
  sustain : BitVec 4
  decay : BitVec 5
  amEnable : BitVec 1
  feedback : BitVec 3
  algorithm : BitVec 3
  pan : BitVec 2
  ams : BitVec 2
  fms : BitVec 3
  deriving DecidableEq, Repr

/-- The store image that reset takes (R271): tempo, Instrument file and the five step arrays. -/
structure BootImage where
  tempo : Byte
  instr : Instrument
  pattern : PatternStore
  deriving DecidableEq, Repr

/-- The answers of the environment (R44, R66 to R68). MODEL's own (log entry 2): answers that already wait at the
three inputs, next first; where a list is empty the answer is the free value of Config at `asked`, the number of
questions asked so far. -/
structure Env where
  grants : List Bool
  busy : List Bool
  meter : List Byte
  asked : Nat
  deriving DecidableEq, Repr

/-- The state of the machine: the tuple of R20, the parameters of R6, and the model's own fields `port`, `after`
and `env` (log entries 1, 2, 3 and 4). -/
structure State where
  /-- The configuration record (R6); no step changes it. -/
  params : Params
  /-- The Pattern Store (R21). -/
  pattern : PatternStore
  /-- R27 -/
  stepPosition : BitVec 4
  /-- R28: unbounded (log entry 16). -/
  frameCounter : Nat
  /-- R29 -/
  tempo : Byte
  /-- R30: `true` is PLAYING. -/
  playing : Bool
  /-- R31 -/
  chordLatch : Bool
  /-- R32 -/
  prevButtons : Byte
  /-- R33 -/
  press : Byte
  /-- The Instrument file (R34). -/
  instr : Instrument
  /-- R37: `none` is the spec's "no value" (R274, D43; log entry 5). -/
  mapDiv : Option (BitVec 10)
  /-- R37 -/
  mapBlock : Option (BitVec 3)
  /-- R37 -/
  mapFnum : Option (BitVec 11)
  /-- R37 -/
  meter : Option Byte
  /-- R38 -/
  cmdErr : Bool
  /-- R39 -/
  halted : Bool
  /-- R39: 0 none, 1 BusContention, 2 FmBusyTimeout. -/
  faultCode : BitVec 2
  /-- R40 -/
  busHeld : Bool
  /-- R41: the rest of the micro-sequence of the command in execution. -/
  uq : List MicroOp
  /-- R61: the state updates of that command that follow its micro-operations (model's own field, log entry 4). -/
  after : List Deferred
  /-- R42 -/
  busRetry : Nat
  /-- R42 -/
  fmRetry : Nat
  /-- R43: oldest event first. -/
  trace : List Event
  /-- The command words that wait at the command port, next first (model's own field, log entry 3). -/
  port : List CmdWord
  /-- The environment's answers (model's own field, log entry 2). -/
  env : Env
  deriving DecidableEq, Repr

/-- Why a step stops. No reachable state of a machine with legal parameters and a legal boot image raises one of these
(log entry 9). A host's read that the spec does not define stops no machine: it is a fault of the host's (U4),
`HostReadFault`. -/
inductive Fault where
  /-- Raised by a meaning asked to accept a command while one is in execution or the bus is held. `step` never asks
  (R41: accepted only when `uq` is empty). Safe: the machine stops. -/
  | notIdle
  /-- Raised by `step` when the queue does not begin with the hold it waits at or breaks the bracket discipline
  (R86, the preconditions of R62 to R71). Safe: no rule gives such a state a meaning. -/
  | busDiscipline
  /-- Raised by FRAME_RUN when it must use a tempo of 0 or a step field that is out of the domain of the rule that uses it
  (`stepDispatchable`, R45). Such a state comes only from an illegal boot image, whose behaviour is not defined (R271,
  U10). Safe. -/
  | storeIllegal
  deriving DecidableEq, Repr

/-- Why something has no meaning. -/
inductive Refusal where
  /-- An arm of `exec` without a meaning; no arm of this model answers so. Safe. -/
  | notModelled (mnemonic : String)
  /-- A cold reset with parameters or a boot image that are not legal (R271, U10; log entry 15). Safe. -/
  | illegalBootImage
  deriving DecidableEq, Repr

/-- The reference Pattern Store (R272): all steps empty, speed 1. -/
def PatternStore.reference : PatternStore where
  gate := Vector.replicate 16 0
  accent := Vector.replicate 16 0
  speed := Vector.replicate 16 1
  psgNote := Vector.replicate 16 0
  fmNote := Vector.replicate 16 0

/-- The reference Instrument file (R272, R35). -/
def Instrument.reference : Instrument where
  lfoEnable := 0
  lfoSpeed := 0
  detune := 0
  multiplier := 1
  level := Vector.replicate 24 0
  attack := 31
  release := 15
  sustain := 0
  decay := 0
  amEnable := 0
  feedback := 0
  algorithm := 7
  pan := 3
  ams := 0
  fms := 0

/-- The reference boot image (R272). -/
def BootImage.reference : BootImage where
  tempo := 11
  instr := Instrument.reference
  pattern := PatternStore.reference

/-- No answer waits and no question has been asked: every answer is the environment's own (R274). DESIGN CHOICE, log
entry 10. -/
def Env.unknown : Env where
  grants := []
  busy := []
  meter := []
  asked := 0

/-- Every element of R273 at its value after reset, for the given parameters and boot image. -/
def State.boot (p : Params) (b : BootImage) : State where
  params := p
  pattern := b.pattern
  stepPosition := 0
  frameCounter := 1
  tempo := b.tempo
  playing := false
  chordLatch := false
  prevButtons := 0
  press := 0
  instr := b.instr
  mapDiv := none
  mapBlock := none
  mapFnum := none
  meter := none
  cmdErr := false
  halted := false
  faultCode := 0
  busHeld := false
  uq := []
  after := []
  busRetry := 0
  fmRetry := 0
  trace := []
  port := []
  env := Env.unknown

/-- The machine right after reset (R270, R273), with the reference parameters (R6) and the reference boot image
(R272). Log entry 1. -/
def State.reset : State := State.boot Params.reference BootImage.reference

end Sys2Proof.Machine
end

