-- ==== Sys2Proof/Machine/Flags.lean ====
section
/-! DEFINITION. The flag computations: FRAME_IN's press events, chord and toggle (R201, R202), the tempo gate
(R204) and the code a fault records (R252). -/

namespace Sys2Proof.Machine

/-- The press events: 1 only on 0 to 1, per bit (R201). -/
def pressEdges (buttons prev : Byte) : Byte := buttons &&& ~~~prev

/-- Both chord buttons are down in this frame (R201, R202: levels, not press events). -/
def chordDown (p : Params) (buttons : Byte) : Bool :=
  buttons.getLsbD p.chordA.val && buttons.getLsbD p.chordB.val

/-- The chord latch after a FRAME_IN (R201): set by the chord, cleared when a button of it is up. -/
def chordLatchNext (chord latch : Bool) : Bool :=
  if chord && !latch then true else if !chord then false else latch

/-- FRAME_IN toggles `playing` (R201): a chord that the latch has not seen, on a machine that is not halted. -/
def togglesPlaying (chord latch halted : Bool) : Bool := chord && !latch && !halted

/-- The tempo gate (R204), used only with `tempo >= 1`. -/
def tempoGate (frameCounter : Nat) (tempo : Byte) : Bool := frameCounter % tempo.toNat = 0

/-- The code of a fault (R252). -/
def faultCodeOf : FaultCause → BitVec 2
  | .busContention => 1
  | .fmBusyTimeout => 2

/-- A retry counter has reached its timeout; infinity is never reached (R253). -/
def timedOut (limit : Option Nat) (retries : Nat) : Bool :=
  match limit with
  | none => false
  | some n => n ≤ retries

end Sys2Proof.Machine
end

