-- ==== Sys2Proof/Machine/Operands.lean ====
section
/-! DEFINITION. Operand forms: clamps (R8), indexed reads and writes of the store (R21, R205), the register address
tables (R112 to R114) and the bytes the adapters build (R108 to R117; the spec takes their bit layouts from general
knowledge, log entry 11). -/

namespace Sys2Proof.Machine

/-- `clamp(v, lo, hi)` (R8). -/
def clamp (v lo hi : Int) : Int := if v < lo then lo else if v > hi then hi else v

/-- An exact result stored in a register of `n` bits; every use is in range, so nothing wraps (R136). -/
def narrow (n : Nat) (v : Int) : BitVec n := BitVec.ofInt n v

/-- An unsigned operand clamped into an element of `n` bits (R230). -/
def clampTo (n : Nat) (v : Byte) (lo hi : Int) : BitVec n := narrow n (clamp v.toNat lo hi)

/-- A signed byte clamped into a signed byte (R238). -/
def clampSigned (v : Byte) (lo hi : Int) : Byte := narrow 8 (clamp v.toInt lo hi)

/-- Element `i` of a step array (R21). -/
def stepGet (v : Vector Byte 16) (i : BitVec 4) : Byte := v[i.toNat]'(by have := i.isLt; omega)

/-- A step array with element `i` replaced (R21). -/
def stepSet (v : Vector Byte 16) (i : BitVec 4) (x : Byte) : Vector Byte 16 :=
  v.set i.toNat x (by have := i.isLt; omega)

/-- SET_INSTR's field identifier (R35); `none` for a reserved one (R107). -/
def instrField? (field : BitVec 8) : Option InstrField :=
  match field.toNat with
  | 0 => some .lfoEnable
  | 1 => some .lfoSpeed
  | 2 => some .detune
  | 3 => some .multiplier
  | 4 => some .level
  | 5 => some .attack
  | 6 => some .release
  | 7 => some .sustain
  | 8 => some .decay
  | 9 => some .amEnable
  | 10 => some .feedback
  | 11 => some .algorithm
  | 12 => some .pan
  | 13 => some .ams
  | 14 => some .fms
  | _ => none

/-- SET_INSTR's level slot `idx = 4*ch + op`, 0 to 23 (R36); `none` for a reserved one (R107). -/
def levelSlot? (idx : BitVec 5) : Option (Fin 24) :=
  if h : idx.toNat < 24 then some ⟨idx.toNat, h⟩ else none

/-- An Instrument register replaced by the clamped operand (R239 with the upper bounds of R35). The slot is used by
`level` alone. -/
def instrWrite (f : InstrField) (slot : Fin 24) (v : Byte) (x : Instrument) : Instrument :=
  match f with
  | .lfoEnable => { x with lfoEnable := clampTo 1 v 0 1 }
  | .lfoSpeed => { x with lfoSpeed := clampTo 3 v 0 7 }
  | .detune => { x with detune := clampTo 3 v 0 7 }
  | .multiplier => { x with multiplier := clampTo 4 v 0 15 }
  | .level => { x with level := x.level.set slot (clampTo 7 v 0 127) }
  | .attack => { x with attack := clampTo 5 v 0 31 }
  | .release => { x with release := clampTo 4 v 0 15 }
  | .sustain => { x with sustain := clampTo 4 v 0 15 }
  | .decay => { x with decay := clampTo 5 v 0 31 }
  | .amEnable => { x with amEnable := clampTo 1 v 0 1 }
  | .feedback => { x with feedback := clampTo 3 v 0 7 }
  | .algorithm => { x with algorithm := clampTo 3 v 0 7 }
  | .pan => { x with pan := clampTo 2 v 0 3 }
  | .ams => { x with ams := clampTo 2 v 0 3 }
  | .fms => { x with fms := clampTo 3 v 0 7 }

/-- The value an Instrument register holds (R35); the slot is used by `level` alone. -/
def instrRead (f : InstrField) (slot : Fin 24) (x : Instrument) : Nat :=
  match f with
  | .lfoEnable => x.lfoEnable.toNat
  | .lfoSpeed => x.lfoSpeed.toNat
  | .detune => x.detune.toNat
  | .multiplier => x.multiplier.toNat
  | .level => x.level[slot].toNat
  | .attack => x.attack.toNat
  | .release => x.release.toNat
  | .sustain => x.sustain.toNat
  | .decay => x.decay.toNat
  | .amEnable => x.amEnable.toNat
  | .feedback => x.feedback.toNat
  | .algorithm => x.algorithm.toNat
  | .pan => x.pan.toNat
  | .ams => x.ams.toNat
  | .fms => x.fms.toNat

/-- Every field and-masked to its width before transmission (R185, log entry 18). -/
def instrMasked (x : Instrument) : Instrument where
  lfoEnable := x.lfoEnable &&& 1
  lfoSpeed := x.lfoSpeed &&& 7
  detune := x.detune &&& 7
  multiplier := x.multiplier &&& 15
  level := x.level.map (· &&& 127)
  attack := x.attack &&& 31
  release := x.release &&& 15
  sustain := x.sustain &&& 15
  decay := x.decay &&& 31
  amEnable := x.amEnable &&& 1
  feedback := x.feedback &&& 7
  algorithm := x.algorithm &&& 7
  pan := x.pan &&& 3
  ams := x.ams &&& 3
  fms := x.fms &&& 7

/-- An FM channel 0 to 5; `none` for the reserved values 6 and 7 (R107). -/
def fmChannel? (ch : BitVec 3) : Option (Fin 6) :=
  if h : ch.toNat < 6 then some ⟨ch.toNat, h⟩ else none

/-- The slot `4*ch + op` of a 24-entry table (R36, R113). -/
def operatorSlot (c : Fin 6) (o : BitVec 2) : Fin 24 :=
  ⟨4 * c.val + o.toNat, by have := c.isLt; have := o.isLt; omega⟩

/-- The channel's part: A for 0 to 2, B for 3 to 5 (R112, R171). -/
def partOf (c : Fin 6) : Part := if c.val < 3 then .A else .B

/-- The channel's offset within its part, `ch mod 3` (R112, R171). -/
def channelOffset (c : Fin 6) : Byte := BitVec.ofNat 8 (c.val % 3)

/-- A field shifted to its place in a byte (R136: fields are disjoint and within their widths). -/
def inByte {n : Nat} (lo : Nat) (x : BitVec n) : Byte := x.setWidth 8 <<< lo

/-- Byte `k` of a wider quantity, byte 0 its low byte (R74). -/
def byteOf {n : Nat} (k : Nat) (x : BitVec n) : Byte := x.extractLsb' (8 * k) 8

/-- R108, R161: `0x80 | (ch << 5) | divider[3:0]` -/
def toneLatchByte (ch : BitVec 2) (divider : BitVec 10) : Byte :=
  0x80 ||| inByte 5 ch ||| inByte 0 (divider.extractLsb' 0 4)

/-- R109, R161: `divider[9:4]` -/
def toneDataByte (divider : BitVec 10) : Byte := inByte 0 (divider.extractLsb' 4 6)

/-- R110, R162: `0x90 | (ch << 5) | level` -/
def toneEnvByte (ch : BitVec 2) (level : BitVec 4) : Byte := 0x90 ||| inByte 5 ch ||| inByte 0 level

/-- R111, R163: `0xE0 | (type << 2) | fclass` -/
def toneNoiseByte (noiseType : BitVec 1) (fclass : BitVec 2) : Byte :=
  0xE0 ||| inByte 2 noiseType ||| inByte 0 fclass

/-- R116, R172: `(enable << 3) | speed` -/
def lfoByte (enable : BitVec 1) (speed : BitVec 3) : Byte := inByte 3 enable ||| inByte 0 speed

/-- R113, R173: `(detune << 4) | mult` -/
def detmulByte (detune : BitVec 3) (mult : BitVec 4) : Byte := inByte 4 detune ||| inByte 0 mult

/-- R113, R174: `level` -/
def levelByte (level : BitVec 7) : Byte := inByte 0 level

/-- R113, R175: `attack` -/
def attackByte (attack : BitVec 5) : Byte := inByte 0 attack

/-- R113, R176: `(sustain << 4) | release` -/
def relsusByte (release sustain : BitVec 4) : Byte := inByte 4 sustain ||| inByte 0 release

/-- R113, R177: `(am << 7) | decay` -/
def decamByte (decay : BitVec 5) (am : BitVec 1) : Byte := inByte 7 am ||| inByte 0 decay

/-- R114, R178: `(feedback << 3) | algorithm` -/
def fbalgByte (feedback algorithm : BitVec 3) : Byte := inByte 3 feedback ||| inByte 0 algorithm

/-- R114, R179: `(pan << 6) | (ams << 4) | fms` -/
def panamsfmsByte (pan ams : BitVec 2) (fms : BitVec 3) : Byte :=
  inByte 6 pan ||| inByte 4 ams ||| inByte 0 fms

/-- R114, R180: `(block << 3) | fnum[10:8]` -/
def pitchHighByte (block : BitVec 3) (fnum : BitVec 11) : Byte :=
  inByte 3 block ||| inByte 0 (fnum.extractLsb' 8 3)

/-- R114, R180: `fnum[7:0]` -/
def pitchLowByte (fnum : BitVec 11) : Byte := fnum.extractLsb' 0 8

/-- R115, R181: `sel = ch` for channels 0 to 2, `ch + 1` for channels 3 to 5. -/
def keySelect (c : Fin 6) : Byte := BitVec.ofNat 8 (if c.val ≤ 2 then c.val else c.val + 1)

/-- R115, R181: `0xF0 | sel` -/
def keyOnByte (c : Fin 6) : Byte := 0xF0 ||| keySelect c

/-- R115, R182: `sel` -/
def keyOffByte (c : Fin 6) : Byte := keySelect c

/-- R117, R144: `ACCENT_BYTE[b]` -/
def accentByte (p : Params) (b : BitVec 1) : Byte := if b = 1 then p.accentByte1 else p.accentByte0

/-- R145: the speed transmitted, `clamp(v, 1, 255)`. -/
def speedByte (v : Byte) : Byte := clampTo 8 v 1 255

/-- `KIT[g]` for `1 <= g <= KIT_N` (R6, R208). -/
def kitEntry? (p : Params) (g : Byte) : Option (BitVec 16 × BitVec 16) :=
  if g.toNat = 0 then none else p.kit[g.toNat - 1]?

end Sys2Proof.Machine
end

