-- ==== Sys2Proof/Machine/Ops.lean ====
section
/-! DEFINITION. The shared operations: the environment's answers (R66 to R68), one micro-operation (R62 to R72),
fault entry (R254), the executor (R61), accepting and refusing a command (R41, R106), and the command port. -/

namespace Sys2Proof.Machine

/-- The answer to an attempt of an ACQ, `true` for granted (R66). -/
def Env.grant (e : Env) : Bool := e.grants.headD (Config.busGrant e.asked)

/-- The environment after it has answered an attempt of an ACQ. -/
def Env.afterGrant (e : Env) : Env := { e with grants := e.grants.tail, asked := e.asked + 1 }

/-- The answer to a status read of an FMS, `true` for busy (R67). -/
def Env.busyAnswer (e : Env) : Bool := e.busy.headD (Config.fmBusy e.asked)

/-- The environment after it has answered a status read. -/
def Env.afterBusy (e : Env) : Env := { e with busy := e.busy.tail, asked := e.asked + 1 }

/-- The byte a read of the level meter returns (R68). -/
def Env.meterByte (e : Env) : Byte := e.meter.headD (Config.levelMeter e.asked)

/-- The environment after it has returned a meter byte. -/
def Env.afterMeter (e : Env) : Env := { e with meter := e.meter.tail, asked := e.asked + 1 }

/-- An event appended to the trace (R61). -/
def record (e : Event) (s : State) : State := { s with trace := s.trace ++ [e] }

/-- One deferred state update (R203, R209): `step_position` is 4 bits wide, so adding 1 wraps from 15 to 0. -/
def applyDeferred (d : Deferred) (s : State) : State :=
  match d with
  | .advanceStep => { s with stepPosition := s.stepPosition + 1 }
  | .tickFrame => { s with frameCounter := s.frameCounter + 1 }

/-- The end of a command: its deferred updates take effect, in order (R61). -/
def finish (s : State) : State := { s.after.foldl (fun t d => applyDeferred d t) s with after := [] }

/-- Fault entry, `raise F` (R254): the first fault's code is kept; the block halts and stops playing; the rest of the
command is discarded; a held bus is released, with its event; of the deferred updates only FRAME_RUN's increment of
`frame_counter` is still made. -/
def raiseFault (f : FaultCause) (s : State) : State :=
  let s1 := if s.halted then s else { s with faultCode := faultCodeOf f }
  let s2 := { s1 with halted := true, playing := false, uq := [] }
  let s3 := if s2.busHeld then record .rel { s2 with busHeld := false } else s2
  let s4 := if s3.after.contains .tickFrame then applyDeferred .tickFrame s3 else s3
  { s4 with after := [] }

/-- What one attempt of a micro-operation comes to. -/
inductive Progress where
  /-- It is performed. -/
  | done (s : State)
  /-- It is a hold whose answer was unfavourable, and it waits (R61). -/
  | waiting (s : State)
  /-- It was a hold whose timeout is reached, and the fault is entered (R253). -/
  | faulted (s : State)

/-- One attempt of ACQ (R62); `fresh` is its first, which starts the retry counter. -/
def attemptAcq (fresh : Bool) (s : State) : Progress :=
  let s0 : State := if fresh then { s with busRetry := 0 } else s
  let s1 : State := { s0 with env := s.env.afterGrant }
  if s.env.grant then .done (record .acq { s1 with busHeld := true })
  else
    let s2 : State := { s1 with busRetry := s1.busRetry + 1 }
    if timedOut s.params.busTimeout s2.busRetry then .faulted (raiseFault .busContention s2) else .waiting s2

/-- One status read of FMS (R70); `fresh` is its first, which starts the retry counter. -/
def attemptFms (fresh : Bool) (s : State) : Progress :=
  let s0 : State := if fresh then { s with fmRetry := 0 } else s
  let s1 : State := record (.fms s.env.busyAnswer) { s0 with env := s.env.afterBusy }
  if s.env.busyAnswer then
    let s2 : State := { s1 with fmRetry := s1.fmRetry + 1 }
    if timedOut s.params.fmTimeout s2.fmRetry then .faulted (raiseFault .fmBusyTimeout s2) else .waiting s2
  else .done s1

/-- One attempt of a micro-operation (R62 to R72). MBR hands its byte to `meter`, its one destination (R65, R147);
nothing that can fail stands between it and the end of its command (log entry 8). -/
def attempt (fresh : Bool) (m : MicroOp) (s : State) : Progress :=
  match m with
  | .acq => attemptAcq fresh s
  | .rel => .done (record .rel { s with busHeld := false })
  | .mbw a b => .done (record (.mbw a b) s)
  | .mbr a =>
    .done (record (.mbr a s.env.meterByte)
      { s with meter := some s.env.meterByte, env := s.env.afterMeter })
  | .tpw b => .done (record (.tpw b) s)
  | .fms => attemptFms fresh s
  | .fma p b => .done (record (.fma p b) s)
  | .fmd p b => .done (record (.fmd p b) s)
  | .dly n => .done (record (.dly n) s)
  | .persist => .done (record .persist s)

/-- The executor (R61): it takes micro-operations from the head and performs them, until the micro-sequence is empty
and the command completes, or a hold waits and stays at the head of `uq`, or a fault discards the rest. -/
def runQueue (fresh : Bool) (ops : List MicroOp) (s : State) : State :=
  match ops with
  | [] => finish s
  | m :: rest =>
    match attempt fresh m s with
    | .done s' => runQueue true rest s'
    | .waiting s' => { s' with uq := m :: rest }
    | .faulted s' => s'

/-- No command is in execution: the block may accept one (R41), and the bus is free (R40). -/
def State.idle (s : State) : Bool := s.uq.isEmpty && s.after.isEmpty && !s.busHeld

/-- A command is accepted: its updates are in `s`, its micro-sequence is executed, and `after` waits for that to
complete (R61). -/
def accept (s : State) (ops : List MicroOp) (after : List Deferred) : Host.Outcome State Fault Refusal :=
  if s.idle then .next (runQueue true ops { s with after := after }) else .fault .notIdle

/-- `refuse`: `cmd_err <- 1` and nothing else (R106). -/
def refuse (s : State) : Host.Outcome State Fault Refusal :=
  if s.idle then .next { s with cmdErr := true } else .fault .notIdle

/-- An adapter command, which contains an ACQ: refused when `halted = 1` (R107, R267). -/
def acceptAdapter (s : State) (ops : List MicroOp) : Host.Outcome State Fault Refusal :=
  if s.halted then refuse s else accept s ops []

/-- A store command: the store is changed and `PERSIST` is emitted (R231). -/
def acceptStore (s : State) : Host.Outcome State Fault Refusal := accept s [.persist] []

/-- The bracket discipline of a micro-sequence, begun with the bus held or not (R86). -/
def bracketed (held : Bool) (ops : List MicroOp) : Bool :=
  match ops with
  | [] => !held
  | .acq :: rest => !held && bracketed true rest
  | .rel :: rest => held && bracketed false rest
  | .persist :: rest => !held && bracketed false rest
  | .mbw _ _ :: rest => held && bracketed true rest
  | .mbr _ :: rest => held && bracketed true rest
  | .tpw _ :: rest => held && bracketed true rest
  | .fms :: rest => held && bracketed true rest
  | .fma _ _ :: rest => held && bracketed true rest
  | .fmd _ _ :: rest => held && bracketed true rest
  | .dly _ :: rest => held && bracketed true rest

/-- The micro-sequence begins with a hold (R87): the only place where the executor can wait. -/
def startsWithHold (ops : List MicroOp) : Bool :=
  match ops with
  | .acq :: _ => true
  | .fms :: _ => true
  | _ => false

/-- The executor goes on with the command in execution, at the hold it waits at. -/
def resume (s : State) : Host.Outcome State Fault Refusal :=
  if startsWithHold s.uq && bracketed s.busHeld s.uq then .next (runQueue false s.uq { s with uq := [] })
  else .fault .busDiscipline

/-- The FM register write (R73). -/
def fmw (p : Params) (part : Part) (reg value : Byte) : List MicroOp :=
  [.fms, .fma part reg, .dly p.fmDelayNops, .fms, .fmd part value, .dly p.fmDelayNops]

/-- One bracket (R81): `[ACQ] ++ body ++ [REL]`. -/
def bracket (body : List MicroOp) : List MicroOp := [.acq] ++ body ++ [.rel]

/-- The host presents a command word: it is the next one at the command port (R79, R100). -/
def presentWord (w : CmdWord) (s : State) : State := { s with port := w :: s.port }

end Sys2Proof.Machine
end

