-- ==== Sys2Proof/Machine/Store.lean ====
section
/-! DEFINITION. The store commands (spec/45_store_commands.md): each clamps its operand into the element's range,
stores it and emits PERSIST (R230, R231); none touches a device, so none is refused when halted. -/

namespace Sys2Proof.Machine

/-- NOP (R232). -/
def execNop (s : State) : Host.Outcome State Fault Refusal := accept s [] []

/-- SET_TEMPO (R233). -/
def execSetTempo (v : Byte) (s : State) : Host.Outcome State Fault Refusal :=
  acceptStore { s with tempo := clampTo 8 v 1 255 }

/-- SET_GATE (R234). -/
def execSetGate (step : BitVec 4) (v : Byte) (s : State) : Host.Outcome State Fault Refusal :=
  acceptStore { s with pattern := { s.pattern with
    gate := stepSet s.pattern.gate step (clampTo 8 v 0 s.params.kitN) } }

/-- SET_ACCENT (R235): any non-zero operand stores 1. -/
def execSetAccent (step : BitVec 4) (v : Byte) (s : State) : Host.Outcome State Fault Refusal :=
  acceptStore { s with pattern := { s.pattern with
    accent := stepSet s.pattern.accent step (if v ≠ 0 then 1 else 0) } }

/-- SET_SPEED (R236). -/
def execSetSpeed (step : BitVec 4) (v : Byte) (s : State) : Host.Outcome State Fault Refusal :=
  acceptStore { s with pattern := { s.pattern with
    speed := stepSet s.pattern.speed step (clampTo 8 v 1 255) } }

/-- SET_PSGNOTE (R237). -/
def execSetPsgnote (step : BitVec 4) (v : Byte) (s : State) : Host.Outcome State Fault Refusal :=
  acceptStore { s with pattern := { s.pattern with
    psgNote := stepSet s.pattern.psgNote step (clampTo 8 v 0 s.params.psgNoteMax.toNat) } }

/-- SET_FMNOTE (R238): the operand is a signed byte. -/
def execSetFmnote (step : BitVec 4) (v : Byte) (s : State) : Host.Outcome State Fault Refusal :=
  acceptStore { s with pattern := { s.pattern with
    fmNote := stepSet s.pattern.fmNote step (clampSigned v (-1) s.params.fmNoteStoreMax) } }

/-- SET_INSTR (R239): a reserved field, or a reserved slot of `level`, is refused; a scalar ignores the index. -/
def execSetInstr (field : BitVec 8) (idx : BitVec 5) (v : Byte) (s : State) :
    Host.Outcome State Fault Refusal :=
  match instrField? field with
  | none => refuse s
  | some .level =>
    match levelSlot? idx with
    | none => refuse s
    | some slot => acceptStore { s with instr := instrWrite .level slot v s.instr }
  | some f => acceptStore { s with instr := instrWrite f 0 v s.instr }

end Sys2Proof.Machine
end

