-- ==== Sys2Proof/Machine/Fm.lean ====
section
/-! DEFINITION. The FM multi-register writer (spec/43_fm_adapter.md): each command's micro-sequence, one bracket of
register writes (R170), and its meaning. A channel operand is 0 to 5; the reserved values 6 and 7 are refused. -/

namespace Sys2Proof.Machine

/-- A per-operator register write in its bracket (R113): the number is looked up in the feature's table. -/
def operatorWriteOps (p : Params) (table : OpRegTable) (c : Fin 6) (o : BitVec 2) (value : Byte) : List MicroOp :=
  bracket (fmw p (partOf c) table[operatorSlot c o] value)

/-- A per-channel register write (R114): `CHREG_BASE[f] + (ch mod 3)` on the channel's part. -/
def channelWrite (p : Params) (base : Byte) (c : Fin 6) (value : Byte) : List MicroOp :=
  fmw p (partOf c) (base + channelOffset c) value

/-- R172: the LFO register is on part A. -/
def fmLfoOps (p : Params) (enable : BitVec 1) (speed : BitVec 3) : List MicroOp :=
  bracket (fmw p .A p.lfoReg (lfoByte enable speed))

/-- R173 -/
def fmDetmulOps (p : Params) (c : Fin 6) (o : BitVec 2) (detune : BitVec 3) (mult : BitVec 4) : List MicroOp :=
  operatorWriteOps p p.oprDetmul c o (detmulByte detune mult)

/-- R174 -/
def fmLevelOps (p : Params) (c : Fin 6) (o : BitVec 2) (level : BitVec 7) : List MicroOp :=
  operatorWriteOps p p.oprLevel c o (levelByte level)

/-- R175 -/
def fmAttackOps (p : Params) (c : Fin 6) (o : BitVec 2) (attack : BitVec 5) : List MicroOp :=
  operatorWriteOps p p.oprAttack c o (attackByte attack)

/-- R176 -/
def fmRelsusOps (p : Params) (c : Fin 6) (o : BitVec 2) (release sustain : BitVec 4) : List MicroOp :=
  operatorWriteOps p p.oprRelsus c o (relsusByte release sustain)

/-- R177 -/
def fmDecamOps (p : Params) (c : Fin 6) (o : BitVec 2) (decay : BitVec 5) (am : BitVec 1) : List MicroOp :=
  operatorWriteOps p p.oprDecam c o (decamByte decay am)

/-- R178 -/
def fmFbalgOps (p : Params) (c : Fin 6) (feedback algorithm : BitVec 3) : List MicroOp :=
  bracket (channelWrite p p.chregFbalg c (fbalgByte feedback algorithm))

/-- R179 -/
def fmPanamsfmsOps (p : Params) (c : Fin 6) (pan ams : BitVec 2) (fms : BitVec 3) : List MicroOp :=
  bracket (channelWrite p p.chregPanamsfms c (panamsfmsByte pan ams fms))

/-- R180: the high byte, then the low byte, in one bracket. -/
def fmPitchOps (p : Params) (c : Fin 6) (block : BitVec 3) (fnum : BitVec 11) : List MicroOp :=
  bracket (channelWrite p p.chregFnumHi c (pitchHighByte block fnum)
    ++ channelWrite p p.chregFnumLo c (pitchLowByte fnum))

/-- R181: the key register is on part A. -/
def fmKeyonOps (p : Params) (c : Fin 6) : List MicroOp := bracket (fmw p .A p.keyReg (keyOnByte c))

/-- R182 -/
def fmKeyoffOps (p : Params) (c : Fin 6) : List MicroOp := bracket (fmw p .A p.keyReg (keyOffByte c))

/-- An element of FM_LATCH_SEQ as a micro-operation (R183). -/
def latchWrite (e : FmPortWrite) : MicroOp :=
  match e with
  | .addr part b => .fma part b
  | .data part b => .fmd part b

/-- R183: each element of FM_LATCH_SEQ preceded by a poll and followed by the delay. -/
def fmLatchOps (p : Params) : List MicroOp :=
  bracket (p.fmLatchSeq.flatMap fun e => [.fms, latchWrite e, .dly p.fmDelayNops])

/-- The four operators 0 to 3, in order. -/
def operators : List (BitVec 2) := [0, 1, 2, 3]

/-- `for ch in FM_VOICE_CHANNELS: for opr in 0..3: …` (R184). -/
def forOperators (p : Params) (f : Fin 6 → BitVec 2 → List MicroOp) : List MicroOp :=
  p.fmVoiceChannels.flatMap fun c => operators.flatMap fun o => f c o

/-- `for ch in FM_VOICE_CHANNELS: …` (R184). -/
def forChannels (p : Params) (f : Fin 6 → List MicroOp) : List MicroOp := p.fmVoiceChannels.flatMap f

/-- The voice replay (R184), every value and-masked to its field's width (R185). -/
def fmVoiceLoadOps (p : Params) (x : Instrument) : List MicroOp :=
  let v := instrMasked x
  fmLfoOps p v.lfoEnable v.lfoSpeed
  ++ forOperators p (fun c o => fmDetmulOps p c o v.detune v.multiplier)
  ++ forOperators p (fun c o => fmLevelOps p c o v.level[operatorSlot c o])
  ++ forOperators p (fun c o => fmAttackOps p c o v.attack)
  ++ forOperators p (fun c o => fmRelsusOps p c o v.release v.sustain)
  ++ forOperators p (fun c o => fmDecamOps p c o v.decay v.amEnable)
  ++ forChannels p (fun c => fmFbalgOps p c v.feedback v.algorithm)
  ++ forChannels p (fun c => fmPanamsfmsOps p c v.pan v.ams v.fms)
  ++ fmLatchOps p

/-- An FM command on a channel: refused when the channel is 6 or 7 (R107, R170). -/
def acceptChannel (ch : BitVec 3) (s : State) (ops : Fin 6 → List MicroOp) : Host.Outcome State Fault Refusal :=
  match fmChannel? ch with
  | none => refuse s
  | some c => acceptAdapter s (ops c)

/-- FM_LFO (R172). -/
def execFmLfo (enable : BitVec 1) (speed : BitVec 3) (s : State) : Host.Outcome State Fault Refusal :=
  acceptAdapter s (fmLfoOps s.params enable speed)

/-- FM_DETMUL (R173). -/
def execFmDetmul (ch : BitVec 3) (opr : BitVec 2) (detune : BitVec 3) (mult : BitVec 4) (s : State) :
    Host.Outcome State Fault Refusal :=
  acceptChannel ch s fun c => fmDetmulOps s.params c opr detune mult

/-- FM_LEVEL (R174). -/
def execFmLevel (ch : BitVec 3) (opr : BitVec 2) (level : BitVec 7) (s : State) :
    Host.Outcome State Fault Refusal :=
  acceptChannel ch s fun c => fmLevelOps s.params c opr level

/-- FM_ATTACK (R175). -/
def execFmAttack (ch : BitVec 3) (opr : BitVec 2) (attack : BitVec 5) (s : State) :
    Host.Outcome State Fault Refusal :=
  acceptChannel ch s fun c => fmAttackOps s.params c opr attack

/-- FM_RELSUS (R176). -/
def execFmRelsus (ch : BitVec 3) (opr : BitVec 2) (release sustain : BitVec 4) (s : State) :
    Host.Outcome State Fault Refusal :=
  acceptChannel ch s fun c => fmRelsusOps s.params c opr release sustain

/-- FM_DECAM (R177). -/
def execFmDecam (ch : BitVec 3) (opr : BitVec 2) (decay : BitVec 5) (am : BitVec 1) (s : State) :
    Host.Outcome State Fault Refusal :=
  acceptChannel ch s fun c => fmDecamOps s.params c opr decay am

/-- FM_FBALG (R178). -/
def execFmFbalg (ch : BitVec 3) (feedback algorithm : BitVec 3) (s : State) :
    Host.Outcome State Fault Refusal :=
  acceptChannel ch s fun c => fmFbalgOps s.params c feedback algorithm

/-- FM_PANAMSFMS (R179). -/
def execFmPanamsfms (ch : BitVec 3) (pan ams : BitVec 2) (fms : BitVec 3) (s : State) :
    Host.Outcome State Fault Refusal :=
  acceptChannel ch s fun c => fmPanamsfmsOps s.params c pan ams fms

/-- FM_PITCH (R180). -/
def execFmPitch (ch : BitVec 3) (block : BitVec 3) (fnum : BitVec 11) (s : State) :
    Host.Outcome State Fault Refusal :=
  acceptChannel ch s fun c => fmPitchOps s.params c block fnum

/-- FM_KEYON (R181). -/
def execFmKeyon (ch : BitVec 3) (s : State) : Host.Outcome State Fault Refusal :=
  acceptChannel ch s fun c => fmKeyonOps s.params c

/-- FM_KEYOFF (R182). -/
def execFmKeyoff (ch : BitVec 3) (s : State) : Host.Outcome State Fault Refusal :=
  acceptChannel ch s fun c => fmKeyoffOps s.params c

/-- FM_LATCH (R183). -/
def execFmLatch (s : State) : Host.Outcome State Fault Refusal := acceptAdapter s (fmLatchOps s.params)

/-- FM_VOICE_LOAD (R184): the Instrument file is read once, at expansion. -/
def execFmVoiceLoad (s : State) : Host.Outcome State Fault Refusal :=
  acceptAdapter s (fmVoiceLoadOps s.params s.instr)

end Sys2Proof.Machine
end

