-- ==== Sys2Proof/Machine/Mappers.lean ====
section
/-! DEFINITION. The Tone Mapper and the FM Pitch Mapper (spec/40_mappers.md) and their commands. -/

namespace Sys2Proof.Machine

/-- The octave of a 0-based index, by the successive range checks of R130. -/
def toneOctave (idx : Nat) : Nat :=
  if idx ≤ 11 then 0
  else if idx ≤ 23 then 1
  else if idx ≤ 35 then 2
  else if idx ≤ 47 then 3
  else if idx ≤ 59 then 4
  else 5

/-- `note_to_divider(note)` for `1 <= note` (R130): the base divider of the semitone, shifted right, truncating, by
the octave. -/
def noteToDivider (p : Params) (note : Byte) : BitVec 10 :=
  let idx := note.toNat - 1
  p.toneBase[idx % 12]'(Nat.mod_lt _ (by decide)) >>> toneOctave idx

/-- `note_to_block_fnum(note)` for any integer (R133); the clamped note is not negative, since `FM_NOTE_MIN >= 0`. -/
def noteToBlockFnum (p : Params) (note : Int) : BitVec 3 × BitVec 11 :=
  let n := (clamp note p.fmNoteMin p.fmNoteMax).toNat
  let octave : Int := (n / 12 : Nat) - 1
  (narrow 3 (clamp octave 0 7), p.fnumTable[n % 12]'(Nat.mod_lt _ (by decide)))

/-- MAP_DIV (R131): note 0 and notes above PSG_NOTE_MAX are refused. -/
def execMapDiv (note : Byte) (s : State) : Host.Outcome State Fault Refusal :=
  if note.toNat = 0 ∨ note.toNat > s.params.psgNoteMax.toNat then refuse s
  else accept { s with mapDiv := some (noteToDivider s.params note) } [] []

/-- MAP_FNUM (R134): the note is read as two's complement; it executes also when halted. -/
def execMapFnum (note : BitVec 16) (s : State) : Host.Outcome State Fault Refusal :=
  let r := noteToBlockFnum s.params note.toInt
  accept { s with mapBlock := some r.1, mapFnum := some r.2 } [] []

end Sys2Proof.Machine
end

