-- ==== Sys2Proof/Machine/Pcm.lean ====
section
/-! DEFINITION. The PCM co-processor adapter (spec/41_pcm_adapter.md): each command's micro-sequence, one bracket
(R140), and its meaning. -/

namespace Sys2Proof.Machine

/-- R141 -/
def pcmPlayOps (p : Params) : List MicroOp := bracket [.mbw p.mbxPlay p.pcmFlagSet]

/-- R142: the stop flag is set, then the play flag cleared, in one bracket. -/
def pcmStopOps (p : Params) : List MicroOp :=
  bracket [.mbw p.mbxStop p.pcmFlagSet, .mbw p.mbxPlay p.pcmFlagClear]

/-- R143: start, then length, each low byte first. -/
def pcmRegionOps (p : Params) (start length : BitVec 16) : List MicroOp :=
  bracket [.mbw p.mbxStart (byteOf 0 start), .mbw (p.mbxStart + 1) (byteOf 1 start),
    .mbw p.mbxLength (byteOf 0 length), .mbw (p.mbxLength + 1) (byteOf 1 length)]

/-- R144 -/
def pcmAccentOps (p : Params) (b : BitVec 1) : List MicroOp := bracket [.mbw p.mbxAccent (accentByte p b)]

/-- R145 -/
def pcmSpeedOps (p : Params) (v : Byte) : List MicroOp := bracket [.mbw p.mbxSpeed (speedByte v)]

/-- R146: three bytes, low byte first. -/
def pcmBankOps (p : Params) (addr : BitVec 24) : List MicroOp :=
  bracket [.mbw p.mbxBank (byteOf 0 addr), .mbw (p.mbxBank + 1) (byteOf 1 addr),
    .mbw (p.mbxBank + 2) (byteOf 2 addr)]

/-- R147 -/
def pcmMeterOps (p : Params) : List MicroOp := bracket [.mbr p.mbxMeter]

/-- PCM_PLAY (R141). -/
def execPcmPlay (s : State) : Host.Outcome State Fault Refusal := acceptAdapter s (pcmPlayOps s.params)

/-- PCM_STOP (R142). -/
def execPcmStop (s : State) : Host.Outcome State Fault Refusal := acceptAdapter s (pcmStopOps s.params)

/-- PCM_REGION (R143). -/
def execPcmRegion (start length : BitVec 16) (s : State) : Host.Outcome State Fault Refusal :=
  acceptAdapter s (pcmRegionOps s.params start length)

/-- PCM_ACCENT (R144). -/
def execPcmAccent (b : BitVec 1) (s : State) : Host.Outcome State Fault Refusal :=
  acceptAdapter s (pcmAccentOps s.params b)

/-- PCM_SPEED (R145). -/
def execPcmSpeed (v : Byte) (s : State) : Host.Outcome State Fault Refusal :=
  acceptAdapter s (pcmSpeedOps s.params v)

/-- PCM_BANK (R146). -/
def execPcmBank (addr : BitVec 24) (s : State) : Host.Outcome State Fault Refusal :=
  acceptAdapter s (pcmBankOps s.params addr)

/-- PCM_METER (R147): the byte read goes to `meter`. -/
def execPcmMeter (s : State) : Host.Outcome State Fault Refusal := acceptAdapter s (pcmMeterOps s.params)

end Sys2Proof.Machine
end

