-- ==== Sys2Proof/Machine/Tone.lean ====
section
/-! DEFINITION. The square-wave tone generator adapter (spec/42_tone_adapter.md): each command's micro-sequence, one
bracket (R160), and its meaning. -/

namespace Sys2Proof.Machine

/-- R161, R164: the latch byte, then the data byte, always both. -/
def toneSetOps (ch : BitVec 2) (divider : BitVec 10) : List MicroOp :=
  bracket [.tpw (toneLatchByte ch divider), .tpw (toneDataByte divider)]

/-- R162: a single byte. -/
def toneEnvOps (ch : BitVec 2) (level : BitVec 4) : List MicroOp := bracket [.tpw (toneEnvByte ch level)]

/-- R163: a single byte. -/
def toneNoiseOps (noiseType : BitVec 1) (fclass : BitVec 2) : List MicroOp :=
  bracket [.tpw (toneNoiseByte noiseType fclass)]

/-- TONE_SET (R161): channel 3 is refused. -/
def execToneSet (ch : BitVec 2) (divider : BitVec 10) (s : State) : Host.Outcome State Fault Refusal :=
  if ch = 3 then refuse s else acceptAdapter s (toneSetOps ch divider)

/-- TONE_ENV (R162). -/
def execToneEnv (ch : BitVec 2) (level : BitVec 4) (s : State) : Host.Outcome State Fault Refusal :=
  acceptAdapter s (toneEnvOps ch level)

/-- TONE_NOISE (R163). -/
def execToneNoise (noiseType : BitVec 1) (fclass : BitVec 2) (s : State) : Host.Outcome State Fault Refusal :=
  acceptAdapter s (toneNoiseOps noiseType fclass)

end Sys2Proof.Machine
end

