-- ==== Sys2Proof/Machine/Transport.lean ====
section
/-! DEFINITION. The transport and sequencer core (spec/44_transport.md): FRAME_IN, FRAME_RUN and the
pseudo-commands they expand to (R122). -/

namespace Sys2Proof.Machine

/-- The micro-sequence of an adapter command, for ON_STOP_ACTIONS (R201); a command that is no adapter command, or
holds a reserved channel, has none (the parameters' constraint excludes it, R6). -/
def adapterOps (p : Params) (x : Instrument) (i : Instr) : List MicroOp :=
  let onChannel (ch : BitVec 3) (f : Fin 6 → List MicroOp) : List MicroOp := ((fmChannel? ch).map f).getD []
  match i with
  | .pcmPlay => pcmPlayOps p
  | .pcmStop => pcmStopOps p
  | .pcmRegion start length => pcmRegionOps p start length
  | .pcmAccent b => pcmAccentOps p b
  | .pcmSpeed v => pcmSpeedOps p v
  | .pcmBank addr => pcmBankOps p addr
  | .pcmMeter => pcmMeterOps p
  | .toneSet ch divider => if ch = 3 then [] else toneSetOps ch divider
  | .toneEnv ch level => toneEnvOps ch level
  | .toneNoise noiseType fclass => toneNoiseOps noiseType fclass
  | .fmLfo enable speed => fmLfoOps p enable speed
  | .fmDetmul ch opr detune mult => onChannel ch fun c => fmDetmulOps p c opr detune mult
  | .fmLevel ch opr level => onChannel ch fun c => fmLevelOps p c opr level
  | .fmAttack ch opr attack => onChannel ch fun c => fmAttackOps p c opr attack
  | .fmRelsus ch opr release sustain => onChannel ch fun c => fmRelsusOps p c opr release sustain
  | .fmDecam ch opr decay am => onChannel ch fun c => fmDecamOps p c opr decay am
  | .fmFbalg ch feedback algorithm => onChannel ch fun c => fmFbalgOps p c feedback algorithm
  | .fmPanamsfms ch pan ams fms => onChannel ch fun c => fmPanamsfmsOps p c pan ams fms
  | .fmPitch ch block fnum => onChannel ch fun c => fmPitchOps p c block fnum
  | .fmKeyon ch => onChannel ch fun c => fmKeyonOps p c
  | .fmKeyoff ch => onChannel ch fun c => fmKeyoffOps p c
  | .fmLatch => fmLatchOps p
  | .fmVoiceLoad => fmVoiceLoadOps p x
  | .nop => []
  | .setTempo _ => []
  | .setGate _ _ => []
  | .setAccent _ _ => []
  | .setSpeed _ _ => []
  | .setPsgnote _ _ => []
  | .setFmnote _ _ => []
  | .setInstr _ _ _ => []
  | .frameIn _ => []
  | .frameRun => []
  | .mapDiv _ => []
  | .mapFnum _ => []

/-- The micro-sequences of ON_STOP_ACTIONS, in order (R201). DESIGN CHOICE, log entry 21: an FM_VOICE_LOAD among them
reads the Instrument file `x` once, as FRAME_IN expands. -/
def onStopOps (p : Params) (x : Instrument) : List MicroOp := p.onStopActions.flatMap (adapterOps p x)

/-- The tone channel the sequencer drives, as TONE_SET's operand (R206). -/
def psgChannelBits (p : Params) : BitVec 2 := BitVec.ofNat 2 p.psgChannel.val

/-- TONE_STEP(n) (R206); the mapper is never called with 0 (R137). -/
def toneStepOps (p : Params) (n : Byte) : List MicroOp :=
  if n = 0 then toneEnvOps (psgChannelBits p) 15
  else toneSetOps (psgChannelBits p) (noteToDivider p n) ++ toneEnvOps (psgChannelBits p) p.psgOnLevel

/-- FM_STEP(n) (R207), `n` signed and at least -1: -1 keys off, 0 holds, above 0 is a note. -/
def fmStepOps (p : Params) (n : Int) : List MicroOp :=
  if n = -1 then fmKeyoffOps p p.fmChannel ++ fmLatchOps p
  else if n = 0 then []
  else
    let r := noteToBlockFnum p n
    fmPitchOps p p.fmChannel r.1 r.2 ++ fmKeyonOps p p.fmChannel ++ fmLatchOps p

/-- PCM_STEP(g, a, v) (R208) with the kit entry that `g` selects, none for `g = 0`: the stop is always sent; region,
accent and speed go before the play flag. -/
def pcmStepOps (p : Params) (entry : Option (BitVec 16 × BitVec 16)) (a v : Byte) : List MicroOp :=
  match entry with
  | none => pcmStopOps p
  | some r =>
    pcmStopOps p ++ pcmRegionOps p r.1 r.2 ++ pcmAccentOps p (a.extractLsb' 0 1) ++ pcmSpeedOps p v
    ++ pcmPlayOps p

/-- STEP_DISPATCH(k) (R205): tone, FM, PCM, from the five fields of step `k`. -/
def stepDispatchOps (p : Params) (st : PatternStore) (k : BitVec 4) : List MicroOp :=
  toneStepOps p (stepGet st.psgNote k)
  ++ fmStepOps p (stepGet st.fmNote k).toInt
  ++ pcmStepOps p (kitEntry? p (stepGet st.gate k)) (stepGet st.accent k) (stepGet st.speed k)

/-- The five fields of step `k` are in their legal ranges (R22 to R26, R45). -/
def stepLegal (p : Params) (st : PatternStore) (k : BitVec 4) : Bool :=
  decide ((stepGet st.gate k).toNat ≤ p.kitN)
  && decide ((stepGet st.accent k).toNat ≤ 1)
  && decide (1 ≤ (stepGet st.speed k).toNat)
  && decide ((stepGet st.psgNote k).toNat ≤ p.psgNoteMax.toNat)
  && decide (-1 ≤ (stepGet st.fmNote k).toInt ∧ (stepGet st.fmNote k).toInt ≤ p.fmNoteStoreMax)

/-- STEP_DISPATCH(k) has a meaning: every field it uses is in the domain of the rule that uses it, which a legal step's
fields are (R45). A note is in the Tone Mapper's domain (R130, R206) or one of FM_STEP's three cases (R207), a gate
selects a kit entry (R208), and the accent of a gated step is the one bit of PCM_ACCENT's operand (R144). The speed may be
any byte, since PCM_SPEED clamps it (R145), and without a gate neither accent nor speed is used (R208, R213). -/
def stepDispatchable (p : Params) (st : PatternStore) (k : BitVec 4) : Bool :=
  decide ((stepGet st.psgNote k).toNat ≤ p.psgNoteMax.toNat)
  && decide (-1 ≤ (stepGet st.fmNote k).toInt)
  && decide ((stepGet st.gate k).toNat ≤ p.kitN)
  && decide (stepGet st.gate k = 0 ∨ (stepGet st.accent k).toNat ≤ 1)

/-- FRAME_IN (R201, R202): press events, the chord latch, and the toggle of `playing`; a toggle that stops the
transport emits ON_STOP_ACTIONS. -/
def execFrameIn (buttons : Byte) (s : State) : Host.Outcome State Fault Refusal :=
  let chord := chordDown s.params buttons
  let toggle := togglesPlaying chord s.chordLatch s.halted
  let s1 : State := { s with
    press := pressEdges buttons s.prevButtons
    prevButtons := buttons
    chordLatch := chordLatchNext chord s.chordLatch
    playing := if toggle then !s.playing else s.playing }
  accept s1 (if toggle && s.playing then onStopOps s.params s.instr else []) []

/-- FRAME_RUN (R203, R204): a gated frame dispatches the current step and then advances it; every FRAME_RUN ends with
the increment of `frame_counter`. -/
def execFrameRun (s : State) : Host.Outcome State Fault Refusal :=
  if s.playing then
    if s.tempo = 0 then .fault .storeIllegal
    else if tempoGate s.frameCounter s.tempo then
      if stepDispatchable s.params s.pattern s.stepPosition then
        accept s (stepDispatchOps s.params s.pattern s.stepPosition) [.advanceStep, .tickFrame]
      else .fault .storeIllegal
    else accept s [] [.tickFrame]
  else accept s [] [.tickFrame]

end Sys2Proof.Machine
end

