-- ==== Sys2Proof/Machine/Dispatch.lean ====
section
/-! DEFINITION. The dispatch: one arm per command, each a direct call of its meaning. -/

namespace Sys2Proof.Machine

def exec (i : Instr) (s : State) : Host.Outcome State Fault Refusal :=
  match i with
  | .nop => Sys2Proof.Machine.execNop s
  | .setTempo v => Sys2Proof.Machine.execSetTempo v s
  | .setGate step v => Sys2Proof.Machine.execSetGate step v s
  | .setAccent step v => Sys2Proof.Machine.execSetAccent step v s
  | .setSpeed step v => Sys2Proof.Machine.execSetSpeed step v s
  | .setPsgnote step v => Sys2Proof.Machine.execSetPsgnote step v s
  | .setFmnote step v => Sys2Proof.Machine.execSetFmnote step v s
  | .setInstr field idx v => Sys2Proof.Machine.execSetInstr field idx v s
  | .frameIn buttons => Sys2Proof.Machine.execFrameIn buttons s
  | .frameRun => Sys2Proof.Machine.execFrameRun s
  | .pcmPlay => Sys2Proof.Machine.execPcmPlay s
  | .pcmStop => Sys2Proof.Machine.execPcmStop s
  | .pcmRegion start length => Sys2Proof.Machine.execPcmRegion start length s
  | .pcmAccent b => Sys2Proof.Machine.execPcmAccent b s
  | .pcmSpeed v => Sys2Proof.Machine.execPcmSpeed v s
  | .pcmBank addr => Sys2Proof.Machine.execPcmBank addr s
  | .pcmMeter => Sys2Proof.Machine.execPcmMeter s
  | .toneSet ch divider => Sys2Proof.Machine.execToneSet ch divider s
  | .toneEnv ch level => Sys2Proof.Machine.execToneEnv ch level s
  | .toneNoise noiseType fclass => Sys2Proof.Machine.execToneNoise noiseType fclass s
  | .fmLfo enable speed => Sys2Proof.Machine.execFmLfo enable speed s
  | .fmDetmul ch opr detune mult => Sys2Proof.Machine.execFmDetmul ch opr detune mult s
  | .fmLevel ch opr level => Sys2Proof.Machine.execFmLevel ch opr level s
  | .fmAttack ch opr attack => Sys2Proof.Machine.execFmAttack ch opr attack s
  | .fmRelsus ch opr release sustain => Sys2Proof.Machine.execFmRelsus ch opr release sustain s
  | .fmDecam ch opr decay am => Sys2Proof.Machine.execFmDecam ch opr decay am s
  | .fmFbalg ch feedback algorithm => Sys2Proof.Machine.execFmFbalg ch feedback algorithm s
  | .fmPanamsfms ch pan ams fms => Sys2Proof.Machine.execFmPanamsfms ch pan ams fms s
  | .fmPitch ch block fnum => Sys2Proof.Machine.execFmPitch ch block fnum s
  | .fmKeyon ch => Sys2Proof.Machine.execFmKeyon ch s
  | .fmKeyoff ch => Sys2Proof.Machine.execFmKeyoff ch s
  | .fmLatch => Sys2Proof.Machine.execFmLatch s
  | .fmVoiceLoad => Sys2Proof.Machine.execFmVoiceLoad s
  | .mapDiv note => Sys2Proof.Machine.execMapDiv note s
  | .mapFnum note => Sys2Proof.Machine.execMapFnum note s

end Sys2Proof.Machine
end

