-- ==== Sys2Proof/Machine/Step.lean ====
section
/-! DEFINITION. One step: a command in execution goes on; else the next word at the command port is decoded and
executed; else the block waits (spec/20_memory.md rule R61, spec/30_encoding.md rule R120). -/

namespace Sys2Proof.Machine

/-- One step of the block. A command whose hold waits goes on at the hold (R61, R87). With no command in execution
the next word at the port is taken: a word that decodes runs, a reserved one is refused (R105, R106), and with no
word the block waits (R270). -/
def step (s : State) : Host.Outcome State Fault Refusal :=
  match s.uq with
  | _ :: _ => resume s
  | [] =>
    match s.port with
    | [] => .next s
    | w :: rest =>
      match Sys2Proof.decode w with
      | .ok i => exec i { s with port := rest }
      | .error _ => refuse { s with port := rest }

/-- `s` with the instruction whose bits are `w` as the next word at the command port; the block of a state at reset
executes nothing, so the next step runs it (log entry 3). -/
def State.withFetchWord (s : State) (nbits w : Nat) : State := presentWord (wordOfBits nbits w) s

end Sys2Proof.Machine
end

