-- ==== Sys2Proof/Machine/Devices.lean ====
section
/-! DEFINITION. What the devices have been told, as functions of the trace (R44: device state, "if at all, as a
function of the trace"). No rule of the block reads any of it (log entry 12). -/

namespace Sys2Proof.Machine

/-- The co-processor's view of the block's mailbox writes (R80): the writes of each bracket, together, one list per
completed bracket. `opened` holds the writes of the bracket not yet closed. -/
def mailboxCommits (opened : List (CoAddr × Byte)) (t : List Event) : List (List (CoAddr × Byte)) :=
  match t with
  | [] => []
  | .acq :: rest => mailboxCommits [] rest
  | .mbw a b :: rest => mailboxCommits (opened ++ [(a, b)]) rest
  | .rel :: rest => opened :: mailboxCommits [] rest
  | .mbr _ _ :: rest => mailboxCommits opened rest
  | .tpw _ :: rest => mailboxCommits opened rest
  | .fms _ :: rest => mailboxCommits opened rest
  | .fma _ _ :: rest => mailboxCommits opened rest
  | .fmd _ _ :: rest => mailboxCommits opened rest
  | .dly _ :: rest => mailboxCommits opened rest
  | .persist :: rest => mailboxCommits opened rest

/-- The bytes the tone generator received, in order (R69, R79). -/
def toneBytes (t : List Event) : List Byte :=
  t.filterMap fun e => match e with
    | .tpw b => some b
    | _ => none

/-- The FM register writes, in order: each data byte with its part and the register number that the latest address
write to that part selected (R44, R71). `latchA` and `latchB` are the two address latches, unknown at first. -/
def fmRegisterWrites (latchA latchB : Option Byte) (t : List Event) : List (Part × Option Byte × Byte) :=
  match t with
  | [] => []
  | .fma .A r :: rest => fmRegisterWrites (some r) latchB rest
  | .fma .B r :: rest => fmRegisterWrites latchA (some r) rest
  | .fmd .A v :: rest => (.A, latchA, v) :: fmRegisterWrites latchA latchB rest
  | .fmd .B v :: rest => (.B, latchB, v) :: fmRegisterWrites latchA latchB rest
  | .acq :: rest => fmRegisterWrites latchA latchB rest
  | .rel :: rest => fmRegisterWrites latchA latchB rest
  | .mbw _ _ :: rest => fmRegisterWrites latchA latchB rest
  | .mbr _ _ :: rest => fmRegisterWrites latchA latchB rest
  | .tpw _ :: rest => fmRegisterWrites latchA latchB rest
  | .fms _ :: rest => fmRegisterWrites latchA latchB rest
  | .dly _ :: rest => fmRegisterWrites latchA latchB rest
  | .persist :: rest => fmRegisterWrites latchA latchB rest

end Sys2Proof.Machine
end

