-- ==== Sys2Proof/Machine/HostPort.lean ====
section
/-! DEFINITION. What the host does beside issuing commands: it resets the block with a boot image (R270, R271) and
reads its state between commands (R46). Log entries 15 and 17. -/

namespace Sys2Proof.Machine

/-- A legal store: every step's fields are in range (R45, R271). -/
def PatternStore.legal (p : Params) (st : PatternStore) : Bool := decide (∀ k : BitVec 4, stepLegal p st k = true)

/-- A legal boot image (R271): the tempo is at least 1 and the store is legal. The Instrument registers are exactly as
wide as their ranges (R35), so every Instrument file is legal. -/
def BootImage.legal (p : Params) (b : BootImage) : Bool := decide (1 ≤ b.tempo.toNat) && b.pattern.legal p

/-- The cold reset (R270): it takes only legal parameters (R6) and a legal boot image (R271, U10), and writes every
element with its value of R273. -/
def coldReset (p : Params) (b : BootImage) : Host.Outcome State Fault Refusal :=
  if p.legal && b.legal p then .next (State.boot p b) else .refused .illegalBootImage

/-- The state elements a host can read (R46): those of spec/10_state.md sections 2 to 5. -/
inductive HostReg where
  | gate (k : BitVec 4)
  | accent (k : BitVec 4)
  | speed (k : BitVec 4)
  | psgNote (k : BitVec 4)
  | fmNote (k : BitVec 4)
  | stepPosition
  | frameCounter
  | tempo
  | playing
  | chordLatch
  | prevButtons
  | press
  /-- An Instrument scalar, or slot `slot` of `level`. -/
  | instr (f : InstrField) (slot : Fin 24)
  | mapDiv
  | mapBlock
  | mapFnum
  | meter
  | cmdErr
  | halted
  | faultCode
  deriving DecidableEq, Repr

/-- Why a host's read gives no number: a fault of the host's (U4), which leaves the machine as it is. -/
inductive HostReadFault where
  /-- Raised by a read of a result register that holds no value (R37, R274, U4; log entry 5). Safe. -/
  | emptyResult
  /-- Raised by a read while a command is in execution (R46 gives reads between commands; log entry 17). Safe. -/
  | readDuringCommand
  deriving DecidableEq, Repr

/-- A one-bit element as a number. -/
def bitValue (b : Bool) : Int := if b then 1 else 0

/-- A result register: holding no value, its read is a fault and never a number (R37, U4). -/
def resultValue {n : Nat} (r : Option (BitVec n)) : Except HostReadFault Int :=
  match r with
  | none => .error .emptyResult
  | some v => .ok v.toNat

/-- A host read (R46): between commands only; the value the latest completed command left; `fm_note` is signed. -/
def hostRead (r : HostReg) (s : State) : Except HostReadFault Int :=
  if s.uq ≠ [] then .error .readDuringCommand
  else
    match r with
    | .gate k => .ok (stepGet s.pattern.gate k).toNat
    | .accent k => .ok (stepGet s.pattern.accent k).toNat
    | .speed k => .ok (stepGet s.pattern.speed k).toNat
    | .psgNote k => .ok (stepGet s.pattern.psgNote k).toNat
    | .fmNote k => .ok (stepGet s.pattern.fmNote k).toInt
    | .stepPosition => .ok s.stepPosition.toNat
    | .frameCounter => .ok s.frameCounter
    | .tempo => .ok s.tempo.toNat
    | .playing => .ok (bitValue s.playing)
    | .chordLatch => .ok (bitValue s.chordLatch)
    | .prevButtons => .ok s.prevButtons.toNat
    | .press => .ok s.press.toNat
    | .instr f slot => .ok (instrRead f slot s.instr)
    | .mapDiv => resultValue s.mapDiv
    | .mapBlock => resultValue s.mapBlock
    | .mapFnum => resultValue s.mapFnum
    | .meter => resultValue s.meter
    | .cmdErr => .ok (bitValue s.cmdErr)
    | .halted => .ok (bitValue s.halted)
    | .faultCode => .ok s.faultCode.toNat

end Sys2Proof.Machine
end

