-- ==== Sys2Proof/Safety.lean ====
section
/-! DEFINITION. What counts as a safe state and a safe trace, and the terms in which statements speak of the
environment's favourable answers. -/

namespace Sys2Proof.Machine

/-- What a micro-operation asks of the environment (R66 to R68). -/
inductive Ask where
  /-- An attempt of an ACQ. -/
  | bus
  /-- A status read of an FMS. -/
  | fm
  /-- A read of the level meter. -/
  | meter
  deriving DecidableEq, Repr

/-- The environment after it has answered the questions, in order. -/
def Env.afterAsks (e : Env) (asks : List Ask) : Env :=
  match asks with
  | [] => e
  | .bus :: rest => e.afterGrant.afterAsks rest
  | .fm :: rest => e.afterBusy.afterAsks rest
  | .meter :: rest => e.afterMeter.afterAsks rest

/-- The environment answers each of the questions, in order, favourably at the first attempt: the bus is granted,
the FM chip is not busy. A meter read has no unfavourable answer. -/
def Env.favours (e : Env) (asks : List Ask) : Bool :=
  match asks with
  | [] => true
  | .bus :: rest => e.grant && e.afterGrant.favours rest
  | .fm :: rest => !e.busyAnswer && e.afterBusy.favours rest
  | .meter :: rest => e.afterMeter.favours rest

/-- The questions a micro-sequence asks when every hold is lifted at once. -/
def asksOf (ops : List MicroOp) : List Ask :=
  match ops with
  | [] => []
  | .acq :: rest => .bus :: asksOf rest
  | .fms :: rest => .fm :: asksOf rest
  | .mbr _ :: rest => .meter :: asksOf rest
  | _ :: rest => asksOf rest

/-- The events of a micro-sequence when every hold is lifted at once (R61's table), from the environment `e`. -/
def eventsOf (e : Env) (ops : List MicroOp) : List Event :=
  match ops with
  | [] => []
  | .acq :: rest => .acq :: eventsOf e.afterGrant rest
  | .rel :: rest => .rel :: eventsOf e rest
  | .mbw a b :: rest => .mbw a b :: eventsOf e rest
  | .mbr a :: rest => .mbr a e.meterByte :: eventsOf e.afterMeter rest
  | .tpw b :: rest => .tpw b :: eventsOf e rest
  | .fms :: rest => .fms false :: eventsOf e.afterBusy rest
  | .fma p b :: rest => .fma p b :: eventsOf e rest
  | .fmd p b :: rest => .fmd p b :: eventsOf e rest
  | .dly n :: rest => .dly n :: eventsOf e rest
  | .persist :: rest => .persist :: eventsOf e rest

/-- The six events of one FM register write with no busy answer (R73). -/
def fmwEvents (p : Params) (part : Part) (reg value : Byte) : List Event :=
  [.fms false, .fma part reg, .dly p.fmDelayNops, .fms false, .fmd part value, .dly p.fmDelayNops]

/-! ### Terms of the statements about commands -/

/-- The block can execute an adapter command to its end in one step: no command is in execution, it is not halted,
and the environment answers the questions `asks` favourably at the first attempt. -/
def State.Ready (s : State) (asks : List Ask) : Prop :=
  s.idle = true ∧ s.halted = false ∧ s.env.favours asks = true

/-- Every word whose opcode byte is `op` decodes to the command `f` makes of it (R120). -/
def DecodesTo (op : Byte) (f : CmdWord → Instr) : Prop :=
  ∀ w : CmdWord, w.extractLsb' 32 8 = op → Sys2Proof.decode w = .ok (f w)

/-- The same for the words of an FM command whose channel field is a channel, 0 to 5 (R107). -/
def DecodesChannelTo (op : Byte) (f : CmdWord → Instr) : Prop :=
  ∀ w : CmdWord, w.extractLsb' 32 8 = op → (w.extractLsb' 24 3).toNat < 6 → Sys2Proof.decode w = .ok (f w)

/-- Commands executed one after another, each completed before the next is accepted (R79). -/
def execAll (is : List Instr) (s : State) : Host.Outcome State Fault Refusal :=
  match is with
  | [] => .next s
  | i :: rest =>
    match exec i s with
    | .next t => execAll rest t
    | .fault f => .fault f
    | .refused r => .refused r

/-- The event of an element of FM_LATCH_SEQ (R71, R183). -/
def latchEvent : FmPortWrite → Event
  | .addr p b => .fma p b
  | .data p b => .fmd p b

/-- FM_VOICE_LOAD's list of commands (R184). -/
def voiceCommands (p : Params) (x : Instrument) : List Instr :=
  let channels := p.fmVoiceChannels.map fun c => (c, BitVec.ofNat 3 c.val)
  let forEach (f : Fin 6 → BitVec 3 → BitVec 2 → Instr) : List Instr :=
    channels.flatMap fun c => ([0, 1, 2, 3] : List (BitVec 2)).map fun o => f c.1 c.2 o
  [.fmLfo x.lfoEnable x.lfoSpeed]
  ++ forEach (fun _ ch o => .fmDetmul ch o x.detune x.multiplier)
  ++ forEach (fun c ch o => .fmLevel ch o (x.level[4 * c.val + o.toNat]'(by have := c.isLt; have := o.isLt; omega)))
  ++ forEach (fun _ ch o => .fmAttack ch o x.attack)
  ++ forEach (fun _ ch o => .fmRelsus ch o x.release x.sustain)
  ++ forEach (fun _ ch o => .fmDecam ch o x.decay x.amEnable)
  ++ channels.map (fun c => .fmFbalg c.2 x.feedback x.algorithm)
  ++ channels.map (fun c => .fmPanamsfms c.2 x.pan x.ams x.fms)
  ++ [.fmLatch]

/-- TONE_STEP's list of commands (R206). -/
def toneStepCommands (p : Params) (n : Byte) : List Instr :=
  let ch := BitVec.ofNat 2 p.psgChannel.val
  if n = 0 then [.toneEnv ch 15] else [.toneSet ch (noteToDivider p n), .toneEnv ch p.psgOnLevel]

/-- FM_STEP's list of commands (R207). -/
def fmStepCommands (p : Params) (n : Int) : List Instr :=
  let ch := BitVec.ofNat 3 p.fmChannel.val
  if n = -1 then [.fmKeyoff ch, .fmLatch]
  else if n = 0 then []
  else [.fmPitch ch (noteToBlockFnum p n).1 (noteToBlockFnum p n).2, .fmKeyon ch, .fmLatch]

/-- PCM_STEP's list of commands (R208); `KIT` is 1-based. -/
def pcmStepCommands (p : Params) (g a v : Byte) : List Instr :=
  if g = 0 then [.pcmStop]
  else
    let region := p.kit.getD (g.toNat - 1) (0, 0)
    [.pcmStop, .pcmRegion region.1 region.2, .pcmAccent (a.setWidth 1), .pcmSpeed v, .pcmPlay]

/-- STEP_DISPATCH's list of commands (R205). -/
def dispatchCommands (p : Params) (st : PatternStore) (k : BitVec 4) : List Instr :=
  toneStepCommands p (stepGet st.psgNote k) ++ fmStepCommands p (stepGet st.fmNote k).toInt
    ++ pcmStepCommands p (stepGet st.gate k) (stepGet st.accent k) (stepGet st.speed k)

/-- From `s` to `t` the fault registers are kept, or a block that was not halted entered a fault (R39, R254, R255): it is
halted with a code, does not play, and has neither a command in execution nor the bus. -/
def KeepsOrEntersFault (s t : State) : Prop :=
  (t.halted = s.halted ∧ t.faultCode = s.faultCode)
  ∨ (s.halted = false ∧ t.halted = true ∧ (t.faultCode = 1 ∨ t.faultCode = 2) ∧ t.playing = false ∧ t.uq = []
      ∧ t.busHeld = false)

/-- From `s`, in which a command waits, to `t` the command completes (R61): it appends the events `es`, nothing of it is
left over, and its deferred updates are made, the step's modulo 16 (R28, R203, R209). Of the rest of the state only the
hidden registers change, and `meter` where a meter read was waiting in `uq`. -/
def CompletesWith (es : List Event) (s t : State) : Prop :=
  t = { s with
    uq := []
    after := []
    busHeld := false
    trace := s.trace ++ es
    stepPosition := BitVec.ofNat 4 ((s.stepPosition.toNat + s.after.count .advanceStep) % 16)
    frameCounter := s.frameCounter + s.after.count .tickFrame
    meter := t.meter
    busRetry := t.busRetry
    fmRetry := t.fmRetry
    env := t.env }
  ∧ ((∀ a, .mbr a ∉ s.uq) → t.meter = s.meter)

/-- How many of the `n` FRAME_RUNs that begin with `frame_counter = c` find the tempo gate true (R204). -/
def gatedFrames (tempo : Byte) (c n : Nat) : Nat :=
  match n with
  | 0 => 0
  | n + 1 => (if c % tempo.toNat = 0 then 1 else 0) + gatedFrames tempo (c + 1) n

/-- Whether the bus is held after a trace, or `none` when the trace breaks the bracket discipline of R86: ACQ and REL
alternate, every device event lies inside a bracket, every PERSIST outside. -/
def heldAfter (held : Bool) (t : List Event) : Option Bool :=
  match t with
  | [] => some held
  | .acq :: rest => if held then none else heldAfter true rest
  | .rel :: rest => if held then heldAfter false rest else none
  | .persist :: rest => if held then none else heldAfter false rest
  | _ :: rest => if held then heldAfter true rest else none

/-- Where a trace stands in the port-write protocol of R73. -/
inductive PortPhase where
  /-- No FM port write may follow. -/
  | quiet
  /-- The last event is an `FMS 0`: an FM port write may follow. -/
  | polled
  /-- The last event is an FM port write: a DLY must follow. -/
  | written
  deriving DecidableEq, Repr

/-- One event of the protocol (R73, 95_test_vectors.md section 4): an FMA or FMD only directly after an `FMS 0`, and
after it only a DLY; `none` where the protocol is broken. -/
def portPhaseStep (ph : PortPhase) (e : Event) : Option PortPhase :=
  match ph, e with
  | .written, .dly _ => some .quiet
  | .written, _ => none
  | _, .fms busy => some (if busy then .quiet else .polled)
  | .polled, .fma _ _ => some .written
  | .polled, .fmd _ _ => some .written
  | .quiet, .fma _ _ => none
  | .quiet, .fmd _ _ => none
  | _, _ => some .quiet

/-- The phase after a trace, `none` where the protocol is broken. -/
def portPhaseAfter (ph : PortPhase) (t : List Event) : Option PortPhase :=
  match t with
  | [] => some ph
  | e :: rest => (portPhaseStep ph e).bind fun ph' => portPhaseAfter ph' rest

/-- The event of a micro-operation whose hold is lifted, up to the meter byte. -/
def eventOf (m : MicroOp) : Event :=
  match m with
  | .acq => .acq
  | .rel => .rel
  | .mbw a b => .mbw a b
  | .mbr a => .mbr a 0
  | .tpw b => .tpw b
  | .fms => .fms false
  | .fma p b => .fma p b
  | .fmd p b => .fmd p b
  | .dly n => .dly n
  | .persist => .persist

/-- The same protocol on a micro-sequence: the phase after its lifted events. -/
def opPhaseAfter (ph : PortPhase) (ops : List MicroOp) : Option PortPhase := portPhaseAfter ph (ops.map eventOf)

/-- The executor's part of the invariant: between commands nothing is left over and the bus is free; during a command
the queue begins with the hold it waits at, keeps the bracket discipline and the port-write protocol (R40, R41, R73,
R86, R87). -/
def queueOk (s : State) : Bool :=
  if s.uq.isEmpty then s.after.isEmpty && !s.busHeld
  else startsWithHold s.uq && bracketed s.busHeld s.uq && opPhaseAfter .quiet s.uq = some .quiet

/-- A halted block does not play, and a code is recorded exactly when it is halted (R39, R214, R254). -/
def faultStateOk (s : State) : Bool :=
  if s.halted then !s.playing && s.uq.isEmpty && (s.faultCode = 1 || s.faultCode = 2) else s.faultCode = 0

/-- The invariant of R45: legal parameters, every store element in its range, `tempo` at least 1, the executor's
queue in order, the fault registers consistent. (`step_position` and the Instrument registers are exactly as wide as
their ranges.) -/
def Inv (s : State) : Prop :=
  s.params.legal = true ∧ s.pattern.legal s.params = true ∧ 1 ≤ s.tempo.toNat ∧ queueOk s = true
    ∧ faultStateOk s = true

/-- The safe-trace invariant: the trace keeps the bracket discipline and ends with the bus held exactly when the
block holds it (R86); every FM port write is polled before and delayed after (R73). -/
def TraceInv (s : State) : Prop :=
  heldAfter false s.trace = some s.busHeld ∧ portPhaseAfter .quiet s.trace = some .quiet

end Sys2Proof.Machine
end

