-- ==== Sys2Proof/Certificates/Slice0/Obligations.lean ====
section
/-! DEFINITION. The statements for the provers. An adapter command's result is stated where the environment answers its
questions favourably (`State.Ready`); where it does not, the commands wait or fault, which the statements about holds
and faults say. Where a statement writes `env := e`, it says nothing about the model's own field `env`. -/

open Sys2Proof
open Sys2Proof.Machine

/-! ### The command word -/

/-- R102, R103: the decoder reads every operand bit that the encoder writes, for every well-formed command. (A scalar
SET_INSTR is well formed with index 0, log entry 7.) -/
def Obligations.DecodeOfEncodeGivesTheCommand : Prop :=
  ∀ i : Instr, i.wellFormed = true → decode (encode i) = .ok i

/-- R107, R120: a word that the decoder accepts holds no reserved field value, on all 2^40 words. That it also has index
0 for a scalar SET_INSTR, which `wellFormed` says too, is the model's reading of an ignored field (DEDUCED, log entry 7). -/
def Obligations.DecodedCommandsAreWellFormed : Prop :=
  ∀ (w : CmdWord) (i : Instr), decode w = .ok i → i.wellFormed = true

/-- R104: words of one opcode that agree on the used operand bits decode alike; the assembler writes the unused bits
as 0. -/
def Obligations.UnusedOperandBitsAreIgnored : Prop :=
  (∀ w w' : CmdWord, opcodeField w = opcodeField w' →
      w &&& usedBits (opcodeField w) = w' &&& usedBits (opcodeField w) → decode w = decode w')
  ∧ ∀ i : Instr,
      encode i &&& ~~~(usedBits (opcodeField (encode i)) ||| 0xFF00000000) = 0

/-- R105: the decoder rejects as a reserved opcode exactly the listed opcode values, and rejecting is refusing: the
word sets `cmd_err`. (The port, from which the word is taken, is the model's own field, log entry 3.) -/
def Obligations.ReservedOpcodesAreRefused : Prop :=
  ∀ w : CmdWord,
    let op := (opcodeField w).toNat
    ((0x08 ≤ op ∧ op ≤ 0x0D) ∨ (0x17 ≤ op ∧ op ≤ 0x1F) ∨ (0x23 ≤ op ∧ op ≤ 0x2F) ∨ (0x3D ≤ op ∧ op ≤ 0x3F)
        ∨ (0x42 ≤ op ∧ op ≤ 0xFF) ↔ decode w = .error (.reservedOpcode (opcodeField w)))
    ∧ ∀ (s : State) (rest : List CmdWord), decode w = .error (.reservedOpcode (opcodeField w)) → s.idle = true →
        s.port = w :: rest → step s = .next { s with port := rest, cmdErr := true }

/-- R107, row by row: the decoder refuses the reserved field values of a word, the meanings refuse them as operands,
and a refused command changes `cmd_err` alone. -/
def Obligations.ReservedFieldValuesAreRefused : Prop :=
  (∀ w : CmdWord,
      (w.extractLsb' 32 8 = 0x20#8 → w.extractLsb' 16 2 = 3#2 → ∃ e, decode w = .error e)
      ∧ (0x31 ≤ (w.extractLsb' 32 8).toNat → (w.extractLsb' 32 8).toNat ≤ 0x3A →
          6 ≤ (w.extractLsb' 24 3).toNat → ∃ e, decode w = .error e)
      ∧ (w.extractLsb' 32 8 = 0x07#8 → 15 ≤ (w.extractLsb' 16 8).toNat → ∃ e, decode w = .error e)
      ∧ (w.extractLsb' 32 8 = 0x07#8 → w.extractLsb' 16 8 = 4#8 → 24 ≤ (w.extractLsb' 8 5).toNat →
          ∃ e, decode w = .error e))
  ∧ ∀ s : State, s.idle = true →
      (∀ d, exec (.toneSet 3 d) s = .next { s with cmdErr := true })
      ∧ (∀ ch : BitVec 3, 6 ≤ ch.toNat →
          (∀ o d m, exec (.fmDetmul ch o d m) s = .next { s with cmdErr := true })
          ∧ (∀ o l, exec (.fmLevel ch o l) s = .next { s with cmdErr := true })
          ∧ (∀ o a, exec (.fmAttack ch o a) s = .next { s with cmdErr := true })
          ∧ (∀ o r u, exec (.fmRelsus ch o r u) s = .next { s with cmdErr := true })
          ∧ (∀ o d a, exec (.fmDecam ch o d a) s = .next { s with cmdErr := true })
          ∧ (∀ f a, exec (.fmFbalg ch f a) s = .next { s with cmdErr := true })
          ∧ (∀ n a f, exec (.fmPanamsfms ch n a f) s = .next { s with cmdErr := true })
          ∧ (∀ b f, exec (.fmPitch ch b f) s = .next { s with cmdErr := true })
          ∧ exec (.fmKeyon ch) s = .next { s with cmdErr := true }
          ∧ exec (.fmKeyoff ch) s = .next { s with cmdErr := true })
      ∧ (∀ (field : BitVec 8) (idx : BitVec 5) (v : Byte), 15 ≤ field.toNat →
          exec (.setInstr field idx v) s = .next { s with cmdErr := true })
      ∧ (∀ (idx : BitVec 5) (v : Byte), 24 ≤ idx.toNat →
          exec (.setInstr 4 idx v) s = .next { s with cmdErr := true })
      ∧ (∀ note : Byte, note.toNat = 0 ∨ note.toNat > s.params.psgNoteMax.toNat →
          exec (.mapDiv note) s = .next { s with cmdErr := true })
      ∧ (∀ i : Instr, i.isAdapter = true → s.halted = true → exec i s = .next { s with cmdErr := true })

/-- R106, R120: a word that the decoder rejects sets `cmd_err` and changes nothing else; the word leaves the command
port, which is the model's own field (log entry 3). -/
def Obligations.RejectedWordSetsCmdErrAlone : Prop :=
  ∀ (s : State) (w : CmdWord) (rest : List CmdWord) (e : DecodeError),
    s.idle = true → s.port = w :: rest → decode w = .error e →
      step s = .next { s with port := rest, cmdErr := true }

/-- Words written out from R101 to R103, one of each family, decode to their commands: PCM_REGION 0x0800, 0x0400;
TONE_SET 2, 0x1AB; FM_PITCH 4, 5, 1083; SET_FMNOTE 2, -1; SET_INSTR 4, 18, 0x7F; FRAME_IN 0x90; MAP_FNUM -1. -/
def Obligations.SampleWordsDecode : Prop :=
  decode 0x1208000400#40 = .ok (.pcmRegion 0x0800 0x0400)
  ∧ decode 0x20000201AB#40 = .ok (.toneSet 2 0x1AB)
  ∧ decode 0x3804002C3B#40 = .ok (.fmPitch 4 5 1083)
  ∧ decode 0x06000200FF#40 = .ok (.setFmnote 2 0xFF)
  ∧ decode 0x070004127F#40 = .ok (.setInstr 4 18 0x7F)
  ∧ decode 0x0E00000090#40 = .ok (.frameIn 0x90)
  ∧ decode 0x410000FFFF#40 = .ok (.mapFnum 0xFFFF)

/-- R61, R79, R120: with no command in execution, a step takes the next word of the command port and executes the
command it decodes to. The port is the model's own field (log entry 3). -/
def Obligations.StepRunsTheDecodedCommand : Prop :=
  ∀ (s : State) (w : CmdWord) (rest : List CmdWord) (i : Instr),
    s.uq = [] → s.port = w :: rest → decode w = .ok i → step s = exec i { s with port := rest }

/-- R41, R270: with no command in execution and no word presented, the block waits: a step changes nothing. (The
port is the model's own field, log entry 3.) -/
def Obligations.StepWaitsForACommand : Prop :=
  ∀ s : State, s.uq = [] → s.port = [] → step s = .next s

/-! ### Store commands -/

/-- R232 -/
def Obligations.NopChangesNothing : Prop :=
  DecodesTo 0x00 (fun _ => .nop) ∧ ∀ s : State, s.idle = true → exec .nop s = .next s

/-- R233 -/
def Obligations.SetTempoStoresTheClampedTempo : Prop :=
  DecodesTo 0x01 (fun w => .setTempo (w.extractLsb' 0 8))
  ∧ ∀ (v : Byte) (s : State), s.idle = true →
      exec (.setTempo v) s =
        .next { s with tempo := if v.toNat = 0 then 1 else v, trace := s.trace ++ [.persist] }

/-- R234, R236, R237: the three unsigned step fields. Only the named element of the named array changes. -/
def Obligations.StepFieldSettersStoreTheClampedValue : Prop :=
  DecodesTo 0x02 (fun w => .setGate (w.extractLsb' 16 4) (w.extractLsb' 0 8))
  ∧ DecodesTo 0x04 (fun w => .setSpeed (w.extractLsb' 16 4) (w.extractLsb' 0 8))
  ∧ DecodesTo 0x05 (fun w => .setPsgnote (w.extractLsb' 16 4) (w.extractLsb' 0 8))
  ∧ ∀ (k : BitVec 4) (v : Byte) (s : State), s.idle = true →
      exec (.setGate k v) s =
        .next { s with
          pattern := { s.pattern with
            gate := stepSet s.pattern.gate k (BitVec.ofNat 8 (min v.toNat s.params.kit.length)) }
          trace := s.trace ++ [.persist] }
      ∧ exec (.setSpeed k v) s =
        .next { s with
          pattern := { s.pattern with speed := stepSet s.pattern.speed k (if v.toNat = 0 then 1 else v) }
          trace := s.trace ++ [.persist] }
      ∧ exec (.setPsgnote k v) s =
        .next { s with
          pattern := { s.pattern with
            psgNote := stepSet s.pattern.psgNote k (BitVec.ofNat 8 (min v.toNat s.params.psgNoteMax.toNat)) }
          trace := s.trace ++ [.persist] }

/-- R235 -/
def Obligations.SetAccentStoresABoolean : Prop :=
  DecodesTo 0x03 (fun w => .setAccent (w.extractLsb' 16 4) (w.extractLsb' 0 8))
  ∧ ∀ (k : BitVec 4) (v : Byte) (s : State), s.idle = true →
      exec (.setAccent k v) s =
        .next { s with
          pattern := { s.pattern with accent := stepSet s.pattern.accent k (if v.toNat = 0 then 0 else 1) }
          trace := s.trace ++ [.persist] }

/-- R238: the operand is a signed byte; below -1 it stores -1 (0xFF), above FM_NOTE_STORE_MAX that bound. -/
def Obligations.SetFmnoteStoresTheClampedSignedValue : Prop :=
  DecodesTo 0x06 (fun w => .setFmnote (w.extractLsb' 16 4) (w.extractLsb' 0 8))
  ∧ ∀ (k : BitVec 4) (v : Byte) (s : State), s.idle = true →
      exec (.setFmnote k v) s =
        .next { s with
          pattern := { s.pattern with
            fmNote := stepSet s.pattern.fmNote k
              (if v.toInt < -1 then 0xFF
               else if v.toInt > s.params.fmNoteStoreMax then BitVec.ofNat 8 s.params.fmNoteStoreMax
               else v) }
          trace := s.trace ++ [.persist] }

/-- R239: the field with the identifier (R35) holds the operand clamped to the field's upper bound, and every other
register of the file reads as before. `level` is written at slot `idx`; for a scalar `idx` is ignored, and a scalar
reads alike at every slot. A reserved field or level slot is refused. -/
def Obligations.SetInstrStoresTheClampedValue : Prop :=
  (∀ w : CmdWord, w.extractLsb' 32 8 = 0x07#8 → (w.extractLsb' 16 8).toNat < 15 →
      (w.extractLsb' 16 8 = 4#8 → (w.extractLsb' 8 5).toNat < 24) →
      ∃ idx : BitVec 5, decode w = .ok (.setInstr (w.extractLsb' 16 8) idx (w.extractLsb' 0 8))
        ∧ (w.extractLsb' 16 8 = 4#8 → idx = w.extractLsb' 8 5))
  ∧ ∀ (field : BitVec 8) (idx : BitVec 5) (v : Byte) (s : State), s.idle = true →
      (∀ f : InstrField,
        [InstrField.lfoEnable, .lfoSpeed, .detune, .multiplier, .level, .attack, .release, .sustain, .decay,
          .amEnable, .feedback, .algorithm, .pan, .ams, .fms][field.toNat]? = some f →
        (f = .level → idx.toNat < 24) →
        ∃ x : Instrument,
          exec (.setInstr field idx v) s = .next { s with instr := x, trace := s.trace ++ [.persist] }
          ∧ ∀ (g : InstrField) (slot : Fin 24),
              instrRead g slot x =
                if g = f ∧ (f = .level → slot.val = idx.toNat) then min v.toNat ([1, 7, 7, 15, 127, 31, 15, 15, 31, 1, 7, 7, 3, 3, 7].getD field.toNat 0)
                else instrRead g slot s.instr)
      ∧ (15 ≤ field.toNat → exec (.setInstr field idx v) s = .next { s with cmdErr := true })
      ∧ (field = 4 → 24 ≤ idx.toNat → exec (.setInstr field idx v) s = .next { s with cmdErr := true })

/-! ### Mappers -/

/-- R130, R131: for `1 <= note <= PSG_NOTE_MAX` the divider is the base divider of the semitone, halved, truncating,
once for each octave of the 0-based index up to 5; every other note is refused. No halt stops it. -/
def Obligations.MapDivHalvesTheBaseDividerPerOctave : Prop :=
  DecodesTo 0x40 (fun w => .mapDiv (w.extractLsb' 0 8))
  ∧ ∀ (note : Byte) (s : State), s.idle = true →
      (note.toNat = 0 ∨ note.toNat > s.params.psgNoteMax.toNat →
        exec (.mapDiv note) s = .next { s with cmdErr := true })
      ∧ (1 ≤ note.toNat → note.toNat ≤ s.params.psgNoteMax.toNat →
        ∃ d : BitVec 10, exec (.mapDiv note) s = .next { s with mapDiv := some d }
          ∧ d.toNat = (s.params.toneBase[(note.toNat - 1) % 12]'(Nat.mod_lt _ (by decide))).toNat
              / 2 ^ min ((note.toNat - 1) / 12) 5)

/-- R132: for a fixed remainder the divider does not increase with the octave, and it is the base divider of the
0-based index's remainder shifted right by the octave. -/
def Obligations.ToneMapperIsNonIncreasingInOctave : Prop :=
  ∀ (p : Params) (note : Byte), 1 ≤ note.toNat → note.toNat ≤ p.psgNoteMax.toNat →
    noteToDivider p note =
        p.toneBase[(note.toNat - 1) % 12]'(Nat.mod_lt _ (by decide)) >>> min ((note.toNat - 1) / 12) 5
    ∧ ∀ higher : Byte, higher.toNat = note.toNat + 12 → higher.toNat ≤ p.psgNoteMax.toNat →
        (noteToDivider p higher).toNat ≤ (noteToDivider p note).toNat

/-- R133, R134: any integer note is clamped to the supported range; the block is its octave, clamped to 0..7, and the
fnum the table entry of its semitone. MAP_FNUM writes the pair of its signed operand, halted or not. -/
def Obligations.MapFnumGivesBlockAndFnum : Prop :=
  DecodesTo 0x41 (fun w => .mapFnum (w.extractLsb' 0 16))
  ∧ (∀ (p : Params) (note : Int), ∃ (n : Nat) (b : BitVec 3),
      (n : Int) = (if note < p.fmNoteMin then (p.fmNoteMin : Int)
        else if note > p.fmNoteMax then (p.fmNoteMax : Int) else note)
      ∧ (b.toNat : Int) = min 7 (max 0 ((n / 12 : Nat) - 1 : Int))
      ∧ noteToBlockFnum p note = (b, p.fnumTable[n % 12]'(Nat.mod_lt _ (by decide))))
  ∧ ∀ (note : BitVec 16) (s : State), s.idle = true →
      exec (.mapFnum note) s =
        .next { s with mapBlock := some (noteToBlockFnum s.params note.toInt).1
                       mapFnum := some (noteToBlockFnum s.params note.toInt).2 }

/-- R135: in the supported range the fnum is the table entry of the semitone whatever the block, and the block does
not decrease as the note rises. -/
def Obligations.FmPitchMapperIsMonotone : Prop :=
  ∀ (p : Params) (m n : Nat), p.fmNoteMin ≤ m → m ≤ n → n ≤ p.fmNoteMax →
    (noteToBlockFnum p m).2 = p.fnumTable[m % 12]'(Nat.mod_lt _ (by decide))
    ∧ (noteToBlockFnum p m).1.toNat ≤ (noteToBlockFnum p n).1.toNat
    ∧ (noteToBlockFnum p n).1.toNat ≤ 7

/-! ### PCM adapter -/

/-- R141, R142: play sets the play flag alone; stop sets the stop flag and clears the play flag, in one bracket. -/
def Obligations.PcmPlayAndStopWriteTheFlags : Prop :=
  DecodesTo 0x10 (fun _ => .pcmPlay) ∧ DecodesTo 0x11 (fun _ => .pcmStop)
  ∧ ∀ s : State, s.Ready [.bus] →
      (∃ e, exec .pcmPlay s =
        .next { s with
          trace := s.trace ++ [.acq, .mbw s.params.mbxPlay s.params.pcmFlagSet, .rel], busRetry := 0, env := e })
      ∧ ∃ e, exec .pcmStop s =
        .next { s with
          trace := s.trace ++ [.acq, .mbw s.params.mbxStop s.params.pcmFlagSet,
            .mbw s.params.mbxPlay s.params.pcmFlagClear, .rel]
          busRetry := 0, env := e }

/-- R143: start, then length, each low byte first. -/
def Obligations.PcmRegionWritesFourBytes : Prop :=
  DecodesTo 0x12 (fun w => .pcmRegion (w.extractLsb' 16 16) (w.extractLsb' 0 16))
  ∧ ∀ (start length : BitVec 16) (s : State), s.Ready [.bus] →
      ∃ e, exec (.pcmRegion start length) s =
        .next { s with
          trace := s.trace ++ [.acq,
            .mbw s.params.mbxStart (BitVec.ofNat 8 (start.toNat % 256)),
            .mbw (s.params.mbxStart + 1) (BitVec.ofNat 8 (start.toNat / 256)),
            .mbw s.params.mbxLength (BitVec.ofNat 8 (length.toNat % 256)),
            .mbw (s.params.mbxLength + 1) (BitVec.ofNat 8 (length.toNat / 256)), .rel]
          busRetry := 0, env := e }

/-- R144, R145: the accent byte of the operand bit; the speed, 0 sent as 1. -/
def Obligations.PcmAccentAndSpeedWriteOneByte : Prop :=
  DecodesTo 0x13 (fun w => .pcmAccent (w.extractLsb' 0 1)) ∧ DecodesTo 0x14 (fun w => .pcmSpeed (w.extractLsb' 0 8))
  ∧ ∀ s : State, s.Ready [.bus] →
      (∀ b : BitVec 1, ∃ e, exec (.pcmAccent b) s =
        .next { s with
          trace := s.trace ++ [.acq,
            .mbw s.params.mbxAccent (if b.toNat = 0 then s.params.accentByte0 else s.params.accentByte1), .rel]
          busRetry := 0, env := e })
      ∧ ∀ v : Byte, ∃ e, exec (.pcmSpeed v) s =
        .next { s with
          trace := s.trace ++ [.acq, .mbw s.params.mbxSpeed (if v.toNat = 0 then 1 else v), .rel]
          busRetry := 0, env := e }

/-- R146: three bytes, low byte first. -/
def Obligations.PcmBankWritesThreeBytes : Prop :=
  DecodesTo 0x15 (fun w => .pcmBank (w.extractLsb' 0 24))
  ∧ ∀ (addr : BitVec 24) (s : State), s.Ready [.bus] →
      ∃ e, exec (.pcmBank addr) s =
        .next { s with
          trace := s.trace ++ [.acq,
            .mbw s.params.mbxBank (BitVec.ofNat 8 (addr.toNat % 256)),
            .mbw (s.params.mbxBank + 1) (BitVec.ofNat 8 (addr.toNat / 256 % 256)),
            .mbw (s.params.mbxBank + 2) (BitVec.ofNat 8 (addr.toNat / 65536)), .rel]
          busRetry := 0, env := e }

/-- R147: `meter` holds the byte that the environment returned (R68) to the read after the grant, whatever it is; that
the answers stand in the model's own field `env` is log entry 2. -/
def Obligations.PcmMeterReadsTheLevelMeter : Prop :=
  DecodesTo 0x16 (fun _ => .pcmMeter)
  ∧ ∀ s : State, s.Ready [.bus, .meter] →
      let v : Byte := s.env.afterGrant.meterByte
      ∃ e : Env, exec .pcmMeter s =
        .next { s with
          trace := s.trace ++ [.acq, .mbr s.params.mbxMeter v, .rel], meter := some v, busRetry := 0, env := e }

/-! ### Tone adapter -/

/-- R161: the latch byte, then the data byte, always both; channel 3 is refused. -/
def Obligations.ToneSetWritesLatchThenData : Prop :=
  (∀ w : CmdWord, w.extractLsb' 32 8 = 0x20#8 → w.extractLsb' 16 2 ≠ 3#2 →
      decode w = .ok (.toneSet (w.extractLsb' 16 2) (w.extractLsb' 0 10)))
  ∧ (∀ (d : BitVec 10) (s : State), s.idle = true → exec (.toneSet 3 d) s = .next { s with cmdErr := true })
  ∧ ∀ (ch : BitVec 2) (d : BitVec 10) (s : State), ch.toNat ≤ 2 → s.Ready [.bus] →
      ∃ e, exec (.toneSet ch d) s =
        .next { s with
          trace := s.trace ++ [.acq, .tpw (BitVec.ofNat 8 (0x80 + 32 * ch.toNat + d.toNat % 16)),
            .tpw (BitVec.ofNat 8 (d.toNat / 16)), .rel]
          busRetry := 0, env := e }

/-- R162, R163: one byte each, TONE_ENV on any of the four channels. -/
def Obligations.ToneEnvAndNoiseWriteOneByte : Prop :=
  DecodesTo 0x21 (fun w => .toneEnv (w.extractLsb' 16 2) (w.extractLsb' 0 4))
  ∧ DecodesTo 0x22 (fun w => .toneNoise (w.extractLsb' 2 1) (w.extractLsb' 0 2))
  ∧ ∀ s : State, s.Ready [.bus] →
      (∀ (ch : BitVec 2) (level : BitVec 4), ∃ e, exec (.toneEnv ch level) s =
        .next { s with
          trace := s.trace ++ [.acq, .tpw (BitVec.ofNat 8 (0x90 + 32 * ch.toNat + level.toNat)), .rel]
          busRetry := 0, env := e })
      ∧ ∀ (t : BitVec 1) (f : BitVec 2), ∃ e, exec (.toneNoise t f) s =
        .next { s with
          trace := s.trace ++ [.acq, .tpw (BitVec.ofNat 8 (0xE0 + 4 * t.toNat + f.toNat)), .rel]
          busRetry := 0, env := e }

/-! ### FM adapter -/

/-- R172: one register write on part A. -/
def Obligations.FmLfoWritesTheLfoRegister : Prop :=
  DecodesTo 0x30 (fun w => .fmLfo (w.extractLsb' 3 1) (w.extractLsb' 0 3))
  ∧ ∀ (enable : BitVec 1) (speed : BitVec 3) (s : State), s.Ready [.bus, .fm, .fm] →
      ∃ e, exec (.fmLfo enable speed) s =
        .next { s with
          trace := s.trace ++ .acq :: fmwEvents s.params .A s.params.lfoReg
            (BitVec.ofNat 8 (8 * enable.toNat + speed.toNat)) ++ [.rel]
          busRetry := 0, fmRetry := 0, env := e }

/-- R173 to R177: each per-operator setter is one register write, at the number the feature's table gives for the
channel and operator, on the channel's part; channels 6 and 7 are refused. -/
def Obligations.FmOperatorSettersWriteTheirRegister : Prop :=
  DecodesChannelTo 0x31 (fun w =>
    .fmDetmul (w.extractLsb' 24 3) (w.extractLsb' 16 2) (w.extractLsb' 4 3) (w.extractLsb' 0 4))
  ∧ DecodesChannelTo 0x32 (fun w => .fmLevel (w.extractLsb' 24 3) (w.extractLsb' 16 2) (w.extractLsb' 0 7))
  ∧ DecodesChannelTo 0x33 (fun w => .fmAttack (w.extractLsb' 24 3) (w.extractLsb' 16 2) (w.extractLsb' 0 5))
  ∧ DecodesChannelTo 0x34 (fun w =>
    .fmRelsus (w.extractLsb' 24 3) (w.extractLsb' 16 2) (w.extractLsb' 0 4) (w.extractLsb' 4 4))
  ∧ DecodesChannelTo 0x35 (fun w =>
    .fmDecam (w.extractLsb' 24 3) (w.extractLsb' 16 2) (w.extractLsb' 0 5) (w.extractLsb' 7 1))
  ∧ (∀ (ch : BitVec 3) (o : BitVec 2) (s : State), 5 < ch.toNat → s.idle = true →
      (∀ d m, exec (.fmDetmul ch o d m) s = .next { s with cmdErr := true })
      ∧ (∀ l, exec (.fmLevel ch o l) s = .next { s with cmdErr := true })
      ∧ (∀ a, exec (.fmAttack ch o a) s = .next { s with cmdErr := true })
      ∧ (∀ r u, exec (.fmRelsus ch o r u) s = .next { s with cmdErr := true })
      ∧ (∀ d a, exec (.fmDecam ch o d a) s = .next { s with cmdErr := true }))
  ∧ ∀ (ch : BitVec 3) (o : BitVec 2) (s : State), (h : ch.toNat < 6) → s.Ready [.bus, .fm, .fm] →
      let part : Part := if ch.toNat ≤ 2 then .A else .B
      let slot : Fin 24 := ⟨4 * ch.toNat + o.toNat, by have := o.isLt; omega⟩
      let writes (t : OpRegTable) (value : Nat) : List Event :=
        s.trace ++ .acq :: fmwEvents s.params part t[slot] (BitVec.ofNat 8 value) ++ [.rel]
      (∀ (d : BitVec 3) (m : BitVec 4), ∃ e, exec (.fmDetmul ch o d m) s =
        .next { s with
          trace := writes s.params.oprDetmul (16 * d.toNat + m.toNat), busRetry := 0, fmRetry := 0, env := e })
      ∧ (∀ l : BitVec 7, ∃ e, exec (.fmLevel ch o l) s =
        .next { s with trace := writes s.params.oprLevel l.toNat, busRetry := 0, fmRetry := 0, env := e })
      ∧ (∀ a : BitVec 5, ∃ e, exec (.fmAttack ch o a) s =
        .next { s with trace := writes s.params.oprAttack a.toNat, busRetry := 0, fmRetry := 0, env := e })
      ∧ (∀ r u : BitVec 4, ∃ e, exec (.fmRelsus ch o r u) s =
        .next { s with
          trace := writes s.params.oprRelsus (16 * u.toNat + r.toNat), busRetry := 0, fmRetry := 0, env := e })
      ∧ (∀ (d : BitVec 5) (a : BitVec 1), ∃ e, exec (.fmDecam ch o d a) s =
        .next { s with
          trace := writes s.params.oprDecam (128 * a.toNat + d.toNat), busRetry := 0, fmRetry := 0, env := e })

/-- R178, R179: each per-channel setter is one register write at its base plus `ch mod 3`, on the channel's part;
channels 6 and 7 are refused. -/
def Obligations.FmChannelSettersWriteTheirRegister : Prop :=
  DecodesChannelTo 0x36 (fun w => .fmFbalg (w.extractLsb' 24 3) (w.extractLsb' 3 3) (w.extractLsb' 0 3))
  ∧ DecodesChannelTo 0x37 (fun w =>
    .fmPanamsfms (w.extractLsb' 24 3) (w.extractLsb' 6 2) (w.extractLsb' 4 2) (w.extractLsb' 0 3))
  ∧ (∀ (ch : BitVec 3) (s : State), 5 < ch.toNat → s.idle = true →
      (∀ f a, exec (.fmFbalg ch f a) s = .next { s with cmdErr := true })
      ∧ (∀ n a f, exec (.fmPanamsfms ch n a f) s = .next { s with cmdErr := true }))
  ∧ ∀ (ch : BitVec 3) (s : State), ch.toNat < 6 → s.Ready [.bus, .fm, .fm] →
      let part : Part := if ch.toNat ≤ 2 then .A else .B
      let writes (base : Byte) (value : Nat) : List Event :=
        s.trace ++ .acq :: fmwEvents s.params part (base + BitVec.ofNat 8 (ch.toNat % 3)) (BitVec.ofNat 8 value)
          ++ [.rel]
      (∀ f a : BitVec 3, ∃ e, exec (.fmFbalg ch f a) s =
        .next { s with
          trace := writes s.params.chregFbalg (8 * f.toNat + a.toNat), busRetry := 0, fmRetry := 0, env := e })
      ∧ ∀ (n a : BitVec 2) (f : BitVec 3), ∃ e, exec (.fmPanamsfms ch n a f) s =
        .next { s with
          trace := writes s.params.chregPanamsfms (64 * n.toNat + 16 * a.toNat + f.toNat)
          busRetry := 0, fmRetry := 0, env := e }

/-- R180: the high byte with the block, then the low byte, in one bracket; channels 6 and 7 are refused. -/
def Obligations.FmPitchWritesHighThenLow : Prop :=
  DecodesChannelTo 0x38 (fun w => .fmPitch (w.extractLsb' 24 3) (w.extractLsb' 11 3) (w.extractLsb' 0 11))
  ∧ (∀ (ch b : BitVec 3) (f : BitVec 11) (s : State), 5 < ch.toNat → s.idle = true →
      exec (.fmPitch ch b f) s = .next { s with cmdErr := true })
  ∧ ∀ (ch b : BitVec 3) (f : BitVec 11) (s : State), ch.toNat < 6 → s.Ready [.bus, .fm, .fm, .fm, .fm] →
      let part : Part := if ch.toNat ≤ 2 then .A else .B
      let co : Byte := BitVec.ofNat 8 (ch.toNat % 3)
      ∃ e, exec (.fmPitch ch b f) s =
        .next { s with
          trace := s.trace ++ .acq
            :: fmwEvents s.params part (s.params.chregFnumHi + co) (BitVec.ofNat 8 (8 * b.toNat + f.toNat / 256))
            ++ fmwEvents s.params part (s.params.chregFnumLo + co) (BitVec.ofNat 8 (f.toNat % 256)) ++ [.rel]
          busRetry := 0, fmRetry := 0, env := e }

/-- R181, R182: key on and key off write the key register on part A; channels 6 and 7 are refused. -/
def Obligations.FmKeyCommandsWriteTheKeyRegister : Prop :=
  DecodesChannelTo 0x39 (fun w => .fmKeyon (w.extractLsb' 24 3))
  ∧ DecodesChannelTo 0x3A (fun w => .fmKeyoff (w.extractLsb' 24 3))
  ∧ (∀ (ch : BitVec 3) (s : State), 5 < ch.toNat → s.idle = true →
      exec (.fmKeyon ch) s = .next { s with cmdErr := true }
      ∧ exec (.fmKeyoff ch) s = .next { s with cmdErr := true })
  ∧ ∀ (ch : BitVec 3) (s : State), ch.toNat < 6 → s.Ready [.bus, .fm, .fm] →
      let sel : Nat := if ch.toNat ≤ 2 then ch.toNat else ch.toNat + 1
      (∃ e, exec (.fmKeyon ch) s =
        .next { s with
          trace := s.trace ++ .acq :: fmwEvents s.params .A s.params.keyReg (BitVec.ofNat 8 (0xF0 + sel)) ++ [.rel]
          busRetry := 0, fmRetry := 0, env := e })
      ∧ ∃ e, exec (.fmKeyoff ch) s =
        .next { s with
          trace := s.trace ++ .acq :: fmwEvents s.params .A s.params.keyReg (BitVec.ofNat 8 sel) ++ [.rel]
          busRetry := 0, fmRetry := 0, env := e }

/-- R183: each element of FM_LATCH_SEQ, preceded by a poll and followed by the delay; with an empty list the bracket
is empty and no poll starts. -/
def Obligations.FmLatchRunsTheLatchSequence : Prop :=
  DecodesTo 0x3B (fun _ => .fmLatch)
  ∧ ∀ s : State, s.Ready (.bus :: s.params.fmLatchSeq.map fun _ => .fm) →
      ∃ e, exec .fmLatch s =
        .next { s with
          trace := s.trace
            ++ .acq :: s.params.fmLatchSeq.flatMap (fun x => [.fms false, latchEvent x, .dly s.params.fmDelayNops])
            ++ [.rel]
          busRetry := 0
          fmRetry := if s.params.fmLatchSeq = [] then s.fmRetry else 0
          env := e }

/-- R184: FM_VOICE_LOAD ends in the state that its list of commands, executed one after another, ends in; of the
state it changes the trace and the hidden registers alone. -/
def Obligations.FmVoiceLoadReplaysTheInstrument : Prop :=
  DecodesTo 0x3C (fun _ => .fmVoiceLoad)
  ∧ ∀ s : State, s.Ready (asksOf (fmVoiceLoadOps s.params s.instr)) →
      ∃ t : State, exec .fmVoiceLoad s = .next t
        ∧ execAll (voiceCommands s.params s.instr) s = .next t
        ∧ t = { s with trace := t.trace, busRetry := 0, fmRetry := 0, env := t.env }

/-! ### Transport -/

/-- R201, R202, R214: FRAME_IN's press events, chord latch and toggle; a toggle that stops the transport ends in the
state that ON_STOP_ACTIONS, executed one after another, end in. -/
def Obligations.FrameInEdgesChordAndToggle : Prop :=
  DecodesTo 0x0E (fun w => .frameIn (w.extractLsb' 0 8))
  ∧ ∀ (b : Byte) (s : State), s.idle = true →
      let chord : Bool := b.getLsbD s.params.chordA.val && b.getLsbD s.params.chordB.val
      let toggles : Bool := chord && !s.chordLatch && !s.halted
      let t : State := { s with
        press := b &&& ~~~s.prevButtons
        prevButtons := b
        chordLatch := chord
        playing := if toggles then !s.playing else s.playing }
      ((toggles && s.playing) = false → exec (.frameIn b) s = .next t)
      ∧ ((toggles && s.playing) = true →
          s.params.onStopActions.all (fun i => i.isAdapter && i.wellFormed) = true →
          s.env.favours (asksOf (onStopOps s.params s.instr)) = true →
          ∃ u : State, exec (.frameIn b) s = .next u ∧ execAll s.params.onStopActions t = .next u)

/-- R202: while both chord buttons stay down no further frame toggles the transport; the first frame in which one is
up clears the latch. -/
def Obligations.HeldChordTogglesOnce : Prop :=
  ∀ (bs : List Byte) (s : State), s.idle = true → s.chordLatch = true →
    (∀ b ∈ bs, b.getLsbD s.params.chordA.val = true ∧ b.getLsbD s.params.chordB.val = true) →
    ∃ t : State, execAll (bs.map .frameIn) s = .next t
      ∧ t.playing = s.playing ∧ t.chordLatch = true ∧ t.trace = s.trace
      ∧ ∀ c : Byte, (c.getLsbD s.params.chordA.val && c.getLsbD s.params.chordB.val) = false →
          exec (.frameIn c) t = .next { t with press := c &&& ~~~t.prevButtons, prevButtons := c, chordLatch := false }

/-- R203, R204: a FRAME_RUN that does not dispatch increments `frame_counter` and changes nothing else. -/
def Obligations.FrameRunWithoutDispatchCountsOnly : Prop :=
  DecodesTo 0x0F (fun _ => .frameRun)
  ∧ ∀ s : State, s.idle = true →
      s.playing = false ∨ (1 ≤ s.tempo.toNat ∧ s.frameCounter % s.tempo.toNat ≠ 0) →
      exec .frameRun s = .next { s with frameCounter := s.frameCounter + 1 }

/-- R203 to R209: a gated FRAME_RUN executes the commands of STEP_DISPATCH for the current step, one after another,
then advances the step modulo 16 and increments `frame_counter`. A step of a legal store is dispatched; a tempo of 0, or a
field out of the domain of the rule that uses it, which only an illegal boot image can give (R45, R271), is the model's
fault (log entry 9). -/
def Obligations.FrameRunDispatchesTheCurrentStep : Prop :=
  DecodesTo 0x0F (fun _ => .frameRun)
  ∧ (∀ (p : Params) (st : PatternStore) (k : BitVec 4), st.legal p = true → stepDispatchable p st k = true)
  ∧ (∀ s : State, s.playing = true →
      s.tempo = 0 ∨ (s.frameCounter % s.tempo.toNat = 0 ∧ stepDispatchable s.params s.pattern s.stepPosition = false) →
      exec .frameRun s = .fault .storeIllegal)
  ∧ ∀ s : State, s.playing = true → 1 ≤ s.tempo.toNat → s.frameCounter % s.tempo.toNat = 0 →
      stepDispatchable s.params s.pattern s.stepPosition = true →
      s.Ready (asksOf (stepDispatchOps s.params s.pattern s.stepPosition)) →
      ∃ u : State, execAll (dispatchCommands s.params s.pattern s.stepPosition) s = .next u
        ∧ exec .frameRun s =
            .next { u with
              stepPosition := BitVec.ofNat 4 ((s.stepPosition.toNat + 1) % 16)
              frameCounter := s.frameCounter + 1 }
        ∧ u = { s with trace := u.trace, busRetry := 0, fmRetry := u.fmRetry, env := u.env }

/-- R205 to R208, from which the spec derives R213: every gated dispatch that completes sends one envelope byte and
the stop bracket, whatever the step holds, and that of an empty step, whatever its accent and speed, sends nothing else:
with all five fields 0 it is R213's minimum dispatch. -/
def Obligations.EveryDispatchSendsEnvelopeAndStop : Prop :=
  ∀ s : State, s.playing = true → 1 ≤ s.tempo.toNat → s.frameCounter % s.tempo.toNat = 0 →
    stepDispatchable s.params s.pattern s.stepPosition = true →
    s.Ready (asksOf (stepDispatchOps s.params s.pattern s.stepPosition)) →
    let envelope (level : BitVec 4) : List Event :=
      [.acq, .tpw (BitVec.ofNat 8 (0x90 + 32 * s.params.psgChannel.val + level.toNat)), .rel]
    let stop : List Event :=
      [.acq, .mbw s.params.mbxStop s.params.pcmFlagSet, .mbw s.params.mbxPlay s.params.pcmFlagClear, .rel]
    ∃ (t : State) (level : BitVec 4) (a b c : List Event), exec .frameRun s = .next t
      ∧ t.trace = s.trace ++ a ++ envelope level ++ b ++ stop ++ c
      ∧ (stepGet s.pattern.psgNote s.stepPosition = 0 → level = 15 ∧ a = [])
      ∧ (stepGet s.pattern.fmNote s.stepPosition = 0 → b = [])
      ∧ (stepGet s.pattern.gate s.stepPosition = 0 → c = [])

/-- R204, R216: FRAME_RUNs whose counters are no multiple of the tempo dispatch nothing, however many they are. -/
def Obligations.UngatedFramesProduceNoEvent : Prop :=
  ∀ (n : Nat) (s : State), s.idle = true → 1 ≤ s.tempo.toNat →
    (∀ j, j < n → (s.frameCounter + j) % s.tempo.toNat ≠ 0) →
    execAll (List.replicate n .frameRun) s = .next { s with frameCounter := s.frameCounter + n }

/-- R28, R209: over any number of FRAME_RUNs that complete without a fault, the step advances once for each gated one,
modulo 16, and the counter once for each. -/
def Obligations.StepAdvancesOncePerGatedFrame : Prop :=
  ∀ (n : Nat) (s t : State), s.idle = true → s.playing = true →
    execAll (List.replicate n .frameRun) s = .next t → t.uq = [] → t.halted = false →
    t.stepPosition.toNat = (s.stepPosition.toNat + gatedFrames s.tempo s.frameCounter n) % 16
    ∧ t.frameCounter = s.frameCounter + n ∧ t.playing = true

/-! ### Holds -/

/-- R62: one attempt of the ACQ at the head; `fresh` is its first. The environment's answers and the rest of a command
that waits are held as the model chose (log entries 2 and 4). -/
def Obligations.AcquireWaitsUntilGranted : Prop :=
  ∀ (fresh : Bool) (rest : List MicroOp) (s : State),
    let retries := (if fresh then 0 else s.busRetry) + 1
    ∃ e : Env,
      (s.env.grant = true →
        runQueue fresh (.acq :: rest) s =
          runQueue true rest { s with
            busRetry := if fresh then 0 else s.busRetry, busHeld := true, trace := s.trace ++ [.acq], env := e })
      ∧ (s.env.grant = false → (∀ n, s.params.busTimeout = some n → retries < n) →
        runQueue fresh (.acq :: rest) s = { s with busRetry := retries, uq := .acq :: rest, env := e })
      ∧ (s.env.grant = false → (∃ n, s.params.busTimeout = some n ∧ n ≤ retries) →
        runQueue fresh (.acq :: rest) s = raiseFault .busContention { s with busRetry := retries, env := e })

/-- R70: one status read of the FMS at the head; `fresh` is its first (log entries 2 and 4, as above). -/
def Obligations.PollWaitsUntilNotBusy : Prop :=
  ∀ (fresh : Bool) (rest : List MicroOp) (s : State),
    let retries := (if fresh then 0 else s.fmRetry) + 1
    ∃ e : Env,
      (s.env.busyAnswer = false →
        runQueue fresh (.fms :: rest) s =
          runQueue true rest { s with
            fmRetry := if fresh then 0 else s.fmRetry, trace := s.trace ++ [.fms false], env := e })
      ∧ (s.env.busyAnswer = true → (∀ n, s.params.fmTimeout = some n → retries < n) →
        runQueue fresh (.fms :: rest) s =
          { s with fmRetry := retries, trace := s.trace ++ [.fms true], uq := .fms :: rest, env := e })
      ∧ (s.env.busyAnswer = true → (∃ n, s.params.fmTimeout = some n ∧ n ≤ retries) →
        runQueue fresh (.fms :: rest) s =
          raiseFault .fmBusyTimeout { s with fmRetry := retries, trace := s.trace ++ [.fms true], env := e })

/-- R63, R64, R65, R69, R71, R72: the micro-operations that never wait are performed at once, each with its event. That
MBR writes `meter` at once is the model's choice (log entry 8). -/
def Obligations.OtherMicroOperationsNeverWait : Prop :=
  ∀ (fresh : Bool) (rest : List MicroOp) (s : State),
    runQueue fresh (.rel :: rest) s = runQueue true rest { s with busHeld := false, trace := s.trace ++ [.rel] }
    ∧ (∀ a b, runQueue fresh (.mbw a b :: rest) s = runQueue true rest { s with trace := s.trace ++ [.mbw a b] })
    ∧ (∀ a, ∃ e : Env, runQueue fresh (.mbr a :: rest) s =
        runQueue true rest { s with
          meter := some s.env.meterByte, trace := s.trace ++ [.mbr a s.env.meterByte], env := e })
    ∧ (∀ b, runQueue fresh (.tpw b :: rest) s = runQueue true rest { s with trace := s.trace ++ [.tpw b] })
    ∧ (∀ p b, runQueue fresh (.fma p b :: rest) s = runQueue true rest { s with trace := s.trace ++ [.fma p b] })
    ∧ (∀ p b, runQueue fresh (.fmd p b :: rest) s = runQueue true rest { s with trace := s.trace ++ [.fmd p b] })
    ∧ (∀ n, runQueue fresh (.dly n :: rest) s = runQueue true rest { s with trace := s.trace ++ [.dly n] })
    ∧ runQueue fresh (.persist :: rest) s = runQueue true rest { s with trace := s.trace ++ [.persist] }

/-- R62, R87, R253: every command that needs the bus and is denied it at its first attempt (an adapter command, a
FRAME_RUN that dispatches, a FRAME_IN that stops the transport with actions to take) waits at its ACQ with its whole
micro-sequence in `uq` and no event recorded, or, where BUS_TIMEOUT is 1, faults there. While a FRAME_RUN waits, its updates
of `step_position` and `frame_counter` are still to come (R61, R203), in the model's own field `after` (log entry 4); a
FRAME_IN has already written `press`, `prev_buttons`, `chord_latch` and `playing`. That the answers stand in `env` is log
entry 2. -/
def Obligations.AdapterCommandsWaitForTheBus : Prop :=
  ∀ s : State, s.idle = true → s.halted = false → s.env.grant = false →
    ∃ e : Env,
      let mayWait : Prop := ∀ n, s.params.busTimeout = some n → 2 ≤ n
      (∀ i : Instr, i.isAdapter = true → i.wellFormed = true →
        (mayWait → exec i s = .next { s with uq := adapterOps s.params s.instr i, busRetry := 1, env := e })
        ∧ (s.params.busTimeout = some 1 →
          exec i s = .next { s with busRetry := 1, halted := true, faultCode := 1, playing := false, env := e }))
      ∧ (s.playing = true → 1 ≤ s.tempo.toNat → s.frameCounter % s.tempo.toNat = 0 →
          stepDispatchable s.params s.pattern s.stepPosition = true →
        (mayWait → exec .frameRun s = .next { s with
          uq := stepDispatchOps s.params s.pattern s.stepPosition
          after := [.advanceStep, .tickFrame]
          busRetry := 1, env := e })
        ∧ (s.params.busTimeout = some 1 → exec .frameRun s = .next { s with
          frameCounter := s.frameCounter + 1
          busRetry := 1, halted := true, faultCode := 1, playing := false, env := e }))
      ∧ ∀ b : Byte, s.playing = true → s.chordLatch = false →
          b.getLsbD s.params.chordA.val = true → b.getLsbD s.params.chordB.val = true →
          s.params.onStopActions ≠ [] → s.params.onStopActions.all (fun i => i.isAdapter && i.wellFormed) = true →
        let t : State := { s with
          press := b &&& ~~~s.prevButtons, prevButtons := b, chordLatch := true, playing := false
          busRetry := 1, env := e }
        (mayWait → exec (.frameIn b) s = .next { t with uq := onStopOps s.params s.instr })
        ∧ (s.params.busTimeout = some 1 → exec (.frameIn b) s = .next { t with halted := true, faultCode := 1 })

/-- R61, R62, R66, R67, R70, R87: a command that waits at its ACQ, or at an FMS, stays there while the bus is denied, or the
FM chip busy, however often, as long as its timeout is not reached; a denial records nothing, a busy answer an `FMS 1`. It
is complete one step after the answer that lifts the hold, where its other holds are lifted at once, and its deferred
updates are then made (`CompletesWith`: R203, R209). That each step makes one further attempt, that the step after the
lifting answer runs the command to its end, and that the updates stand in `after` are the model's choice (log entry 4);
the scripted answers are the model's own field `env` (log entry 2). -/
def Obligations.WaitingCommandCompletesAfterTheGrant : Prop :=
  ∀ (k : Nat) (s : State) (rest : List MicroOp),
    (∀ gs : List Bool,
      let granted : Env := { s.env with grants := gs, asked := s.env.asked + k + 1 }
      s.uq = .acq :: rest → s.busHeld = false → bracketed false (.acq :: rest) = true →
      (∀ n, s.params.busTimeout = some n → s.busRetry + k < n) →
      s.env.grants = List.replicate k false ++ true :: gs → granted.favours (asksOf rest) = true →
      (∀ j, j ≤ k → Host.Core.run Sys2Proof.core j s =
        .next { s with busRetry := s.busRetry + j
                       env := { s.env with grants := s.env.grants.drop j, asked := s.env.asked + j } })
      ∧ ∃ t : State, Host.Core.run Sys2Proof.core (k + 1) s = .next t
          ∧ CompletesWith (.acq :: eventsOf granted rest) s t)
    ∧ ∀ bs : List Bool,
      let ready : Env := { s.env with busy := bs, asked := s.env.asked + k + 1 }
      s.uq = .fms :: rest → s.busHeld = true → bracketed true (.fms :: rest) = true →
      (∀ n, s.params.fmTimeout = some n → s.fmRetry + k < n) →
      s.env.busy = List.replicate k true ++ false :: bs → ready.favours (asksOf rest) = true →
      (∀ j, j ≤ k → Host.Core.run Sys2Proof.core j s =
        .next { s with fmRetry := s.fmRetry + j
                       trace := s.trace ++ List.replicate j (.fms true)
                       env := { s.env with busy := s.env.busy.drop j, asked := s.env.asked + j } })
      ∧ ∃ t : State, Host.Core.run Sys2Proof.core (k + 1) s = .next t
          ∧ CompletesWith (List.replicate k (.fms true) ++ .fms false :: eventsOf ready rest) s t

/-! ### Faults -/

/-- R254: what fault entry does, for a command with no deferred updates and for a FRAME_RUN's dispatch. The deferred
updates stand in the model's own field `after` (log entry 4). -/
def Obligations.FaultEntryHaltsAndReleasesTheBus : Prop :=
  ∀ (f : FaultCause) (s : State),
    let code : BitVec 2 := if s.halted then s.faultCode else if f = .busContention then 1 else 2
    let t : State := { s with
      faultCode := code
      halted := true
      playing := false
      uq := []
      after := []
      busHeld := false
      trace := if s.busHeld then s.trace ++ [.rel] else s.trace }
    (s.after = [] → raiseFault f s = t)
    ∧ (s.after = [.advanceStep, .tickFrame] → raiseFault f s = { t with frameCounter := s.frameCounter + 1 })
    ∧ (raiseFault f s).idle = true

/-- R203, R252, R254: a dispatch that faults at its first ACQ leaves the step unadvanced and still counts the frame.
With BUS_TIMEOUT = 1 the first denial is the fault (R253). -/
def Obligations.FaultedDispatchKeepsTheStep : Prop :=
  ∀ s : State, s.idle = true → s.halted = false → s.playing = true → 1 ≤ s.tempo.toNat →
    s.frameCounter % s.tempo.toNat = 0 → stepDispatchable s.params s.pattern s.stepPosition = true →
    s.params.busTimeout = some 1 →
    s.env.grant = false →
    ∃ e, exec .frameRun s =
      .next { s with frameCounter := s.frameCounter + 1, halted := true, faultCode := 1, playing := false
                     busRetry := 1, env := e }

/-- R70, R252, R253, R254: every FM command, FM_VOICE_LOAD included, whose first poll reads busy under FM_TIMEOUT = 1
faults there, and the bus it holds is released with its event. FM_LATCH with an empty FM_LATCH_SEQ does not poll. -/
def Obligations.FmTimeoutReleasesTheBus : Prop :=
  ∀ (i : Instr) (s : State), i.isFm = true → i.wellFormed = true → (i = .fmLatch → s.params.fmLatchSeq ≠ []) →
    s.idle = true → s.halted = false → s.env.grant = true → s.env.afterGrant.busyAnswer = true →
    s.params.fmTimeout = some 1 →
    ∃ e, exec i s =
      .next { s with trace := s.trace ++ [.acq, .fms true, .rel], halted := true, faultCode := 2
                     playing := false, busRetry := 0, fmRetry := 1, env := e }

/-- R250: with both timeouts infinite no command traps, in any number of steps: every step answers a next state, and
`halted` and `fault_code` stay 0. -/
def Obligations.InfiniteTimeoutsNeverHalt : Prop :=
  ∀ (n : Nat) (s : State), Inv s → s.params.busTimeout = none → s.params.fmTimeout = none → s.halted = false →
    ∃ t : State, Host.Core.run Sys2Proof.core n s = .next t ∧ t.halted = false ∧ t.faultCode = 0

/-- R39, R214, R255, R267: a halted block stays halted with its code, does not play, and records no event but
PERSIST. -/
def Obligations.HaltedBlockTouchesNoDevice : Prop :=
  ∀ s t : State, Inv s → s.halted = true → step s = .next t →
    t.halted = true ∧ t.faultCode = s.faultCode ∧ t.playing = false ∧ t.stepPosition = s.stepPosition
    ∧ (t.trace = s.trace ∨ t.trace = s.trace ++ [.persist])

/-! ### Invariants and ownership -/

/-- R45, R271: the reset state, and the state after a reset with any legal boot image and parameters, meet the
invariants. (The reset state takes the reference instance of each, log entry 1.) -/
def Obligations.ResetMeetsTheInvariants : Prop :=
  (Inv State.reset ∧ TraceInv State.reset)
  ∧ ∀ (p : Params) (b : BootImage), p.legal = true → b.legal p = true →
      Inv (State.boot p b) ∧ TraceInv (State.boot p b)

/-- R40, R41, R45: from every state that meets the invariant a step answers a next state, which meets it: the
model's own faults (log entry 9) are never raised. -/
def Obligations.EveryStepKeepsTheInvariant : Prop :=
  ∀ s : State, Inv s → ∃ t : State, step s = .next t ∧ Inv t

/-- R73, R86: every step keeps the bracket discipline and the port-write protocol of the trace. -/
def Obligations.EveryStepKeepsTheTraceProtocol : Prop :=
  ∀ s t : State, Inv s → TraceInv s → step s = .next t → TraceInv t

/-- R11, R21, R27 to R34, R37 to R39, R241: which commands write which architectural registers, in a command's own step
and in the steps that go on with it while it waits. FRAME_RUN's updates of `step_position` and `frame_counter` may wait
in `after` (log entry 4), and the meter reads of PCM_METER and of FRAME_IN's stop actions (DEDUCED, log entry 5) in
`uq`; no other command leaves either. A waiting command's updates are made, each, when it completes (R61, R203), and where
it faults `frame_counter`'s alone (R254). `cmd_err` is set by a refusal, which changes nothing else; `halted` and
`fault_code` are written by fault entry alone, which also stops the transport. No step changes the parameters, which are
a field of State by the model's choice (log entry 1). -/
def Obligations.RegistersHaveTheirOnlyWriters : Prop :=
  (∀ s t : State, step s = .next t →
      t.params = s.params ∧ KeepsOrEntersFault s t
      ∧ (t.cmdErr = s.cmdErr ∨ t = { s with port := s.port.tail, cmdErr := true }))
  ∧ (∀ (i : Instr) (s t : State), exec i s = .next t →
      KeepsOrEntersFault s t
      ∧ (t.halted = s.halted ∨ i.isAdapter = true ∨ i = .frameRun ∨ ∃ b, i = .frameIn b)
      ∧ (t.cmdErr = s.cmdErr ∨ t = { s with cmdErr := true })
      ∧ (i ≠ .frameRun → t.frameCounter = s.frameCounter ∧ t.stepPosition = s.stepPosition ∧ t.after = [])
      ∧ ((∀ b, i ≠ .frameIn b) → t.press = s.press ∧ t.prevButtons = s.prevButtons ∧ t.chordLatch = s.chordLatch
          ∧ (t.playing = s.playing ∨ t.halted = true))
      ∧ ((∀ b, i ≠ .frameIn b) → i ≠ .pcmMeter → t.meter = s.meter ∧ ∀ a, .mbr a ∉ t.uq)
      ∧ ((∀ v, i ≠ .setTempo v) → t.tempo = s.tempo)
      ∧ ((∀ k v, i ≠ .setGate k v) → t.pattern.gate = s.pattern.gate)
      ∧ ((∀ k v, i ≠ .setAccent k v) → t.pattern.accent = s.pattern.accent)
      ∧ ((∀ k v, i ≠ .setSpeed k v) → t.pattern.speed = s.pattern.speed)
      ∧ ((∀ k v, i ≠ .setPsgnote k v) → t.pattern.psgNote = s.pattern.psgNote)
      ∧ ((∀ k v, i ≠ .setFmnote k v) → t.pattern.fmNote = s.pattern.fmNote)
      ∧ ((∀ f x v, i ≠ .setInstr f x v) → t.instr = s.instr)
      ∧ ((∀ n, i ≠ .mapDiv n) → t.mapDiv = s.mapDiv)
      ∧ ((∀ n, i ≠ .mapFnum n) → t.mapBlock = s.mapBlock ∧ t.mapFnum = s.mapFnum))
  ∧ ∀ s t : State, s.uq ≠ [] → step s = .next t →
      t.pattern = s.pattern ∧ t.instr = s.instr ∧ t.tempo = s.tempo ∧ t.press = s.press
      ∧ t.prevButtons = s.prevButtons ∧ t.chordLatch = s.chordLatch ∧ t.mapDiv = s.mapDiv
      ∧ t.mapBlock = s.mapBlock ∧ t.mapFnum = s.mapFnum ∧ t.cmdErr = s.cmdErr ∧ t.port = s.port
      ∧ (t.playing = s.playing ∨ t.halted = true)
      ∧ (t.after = s.after ∨ t.after = [])
      ∧ (t.uq ≠ [] → t.after = s.after ∧ t.stepPosition = s.stepPosition ∧ t.frameCounter = s.frameCounter)
      ∧ (t.uq = [] → t.halted = false → t.after = []
          ∧ t.stepPosition.toNat = (s.stepPosition.toNat + s.after.count .advanceStep) % 16
          ∧ t.frameCounter = s.frameCounter + s.after.count .tickFrame)
      ∧ (s.halted = false → t.halted = true → t.after = [] ∧ t.stepPosition = s.stepPosition
          ∧ t.frameCounter = s.frameCounter + if .tickFrame ∈ s.after then 1 else 0)
      ∧ (.advanceStep ∉ s.after → t.stepPosition = s.stepPosition)
      ∧ (.tickFrame ∉ s.after → t.frameCounter = s.frameCounter)
      ∧ ((∀ a, .mbr a ∉ s.uq) → t.meter = s.meter ∧ ∀ a, .mbr a ∉ t.uq)

/-- R217: FRAME_RUN does what it does whatever the Instrument file, the result registers, `press`, `prev_buttons`,
`chord_latch` and `cmd_err` hold. (Fault entry alone reads `halted`, R254.) -/
def Obligations.FrameRunReadsOnlyTheSequencerState : Prop :=
  ∀ (x : Instrument) (d : Option (BitVec 10)) (b : Option (BitVec 3)) (f : Option (BitVec 11)) (m : Option Byte)
    (pr pv : Byte) (cl ce : Bool) (s : State),
    let other (t : State) : State :=
      { t with
        instr := x, mapDiv := d, mapBlock := b, mapFnum := f, meter := m
        press := pr, prevButtons := pv, chordLatch := cl, cmdErr := ce }
    (∀ t, exec .frameRun s = .next t → exec .frameRun (other s) = .next (other t))
    ∧ (∀ r, exec .frameRun s = .fault r → exec .frameRun (other s) = .fault r)

/-! ### Reset, host reads and the devices' view -/

/-- R272, R273: the reference boot image, field by field (the Instrument scalars by their numbers of R35); a reset
with legal parameters and a legal boot image writes every element with its reset value. -/
def Obligations.ResetWritesEveryElement : Prop :=
  (BootImage.reference.tempo = 11
    ∧ (∀ k : BitVec 4, stepGet BootImage.reference.pattern.gate k = 0
      ∧ stepGet BootImage.reference.pattern.accent k = 0 ∧ stepGet BootImage.reference.pattern.speed k = 1
      ∧ stepGet BootImage.reference.pattern.psgNote k = 0 ∧ stepGet BootImage.reference.pattern.fmNote k = 0)
    ∧ ∀ slot : Fin 24,
      [InstrField.lfoEnable, .lfoSpeed, .detune, .multiplier, .level, .attack, .release, .sustain, .decay, .amEnable,
        .feedback, .algorithm, .pan, .ams, .fms].map (fun f => instrRead f slot BootImage.reference.instr)
        = [0, 0, 0, 1, 0, 31, 15, 0, 0, 0, 0, 7, 3, 0, 0])
  ∧ ∀ (p : Params) (b : BootImage), p.legal = true → 1 ≤ b.tempo.toNat →
    (∀ k : BitVec 4, (stepGet b.pattern.gate k).toNat ≤ p.kit.length
      ∧ (stepGet b.pattern.accent k).toNat ≤ 1 ∧ 1 ≤ (stepGet b.pattern.speed k).toNat
      ∧ (stepGet b.pattern.psgNote k).toNat ≤ p.psgNoteMax.toNat
      ∧ -1 ≤ (stepGet b.pattern.fmNote k).toInt ∧ (stepGet b.pattern.fmNote k).toInt ≤ p.fmNoteStoreMax) →
    ∃ t : State, coldReset p b = .next t
      ∧ t.pattern = b.pattern ∧ t.tempo = b.tempo ∧ t.instr = b.instr
      ∧ t.stepPosition = 0 ∧ t.frameCounter = 1 ∧ t.playing = false ∧ t.chordLatch = false
      ∧ t.prevButtons = 0 ∧ t.press = 0
      ∧ t.mapDiv = none ∧ t.mapBlock = none ∧ t.mapFnum = none ∧ t.meter = none
      ∧ t.cmdErr = false ∧ t.halted = false ∧ t.faultCode = 0
      ∧ t.busHeld = false ∧ t.uq = [] ∧ t.busRetry = 0 ∧ t.fmRetry = 0 ∧ t.trace = []

/-- R46: between commands the host reads every element of sections 2 to 5; R37, R274: a result register without a value
has no number to read. That such a read is a fault is the model's choice among the forms R274 offers (an option type, or
a read that fails), log entry 5; that a host read is a function of the state is log entry 17. -/
def Obligations.HostReadsEveryElement : Prop :=
  ∀ s : State, s.uq = [] →
    (∀ k, hostRead (.gate k) s = .ok ((stepGet s.pattern.gate k).toNat : Int)
      ∧ hostRead (.accent k) s = .ok ((stepGet s.pattern.accent k).toNat : Int)
      ∧ hostRead (.speed k) s = .ok ((stepGet s.pattern.speed k).toNat : Int)
      ∧ hostRead (.psgNote k) s = .ok ((stepGet s.pattern.psgNote k).toNat : Int)
      ∧ hostRead (.fmNote k) s = .ok (stepGet s.pattern.fmNote k).toInt)
    ∧ hostRead .stepPosition s = .ok (s.stepPosition.toNat : Int)
    ∧ hostRead .frameCounter s = .ok (s.frameCounter : Int)
    ∧ hostRead .tempo s = .ok (s.tempo.toNat : Int)
    ∧ hostRead .playing s = .ok (if s.playing then 1 else 0)
    ∧ hostRead .chordLatch s = .ok (if s.chordLatch then 1 else 0)
    ∧ hostRead .prevButtons s = .ok (s.prevButtons.toNat : Int)
    ∧ hostRead .press s = .ok (s.press.toNat : Int)
    ∧ (∀ f slot, hostRead (.instr f slot) s = .ok (instrRead f slot s.instr : Int))
    ∧ hostRead .cmdErr s = .ok (if s.cmdErr then 1 else 0)
    ∧ hostRead .halted s = .ok (if s.halted then 1 else 0)
    ∧ hostRead .faultCode s = .ok (s.faultCode.toNat : Int)
    ∧ (∀ v, s.mapDiv = some v → hostRead .mapDiv s = .ok (v.toNat : Int))
    ∧ (∀ v, s.mapBlock = some v → hostRead .mapBlock s = .ok (v.toNat : Int))
    ∧ (∀ v, s.mapFnum = some v → hostRead .mapFnum s = .ok (v.toNat : Int))
    ∧ (∀ v, s.meter = some v → hostRead .meter s = .ok (v.toNat : Int))
    ∧ (s.mapDiv = none → hostRead .mapDiv s = .error .emptyResult)
    ∧ (s.mapBlock = none → hostRead .mapBlock s = .error .emptyResult)
    ∧ (s.mapFnum = none → hostRead .mapFnum s = .error .emptyResult)
    ∧ (s.meter = none → hostRead .meter s = .error .emptyResult)

/-- R71, R73, R80: the devices' view of a trace that ends between commands: a PCM bracket's writes reach the
co-processor together, and an FM register write reaches the register it names on its part. The views are functions of
the trace by the model's choice (log entry 12). -/
def Obligations.DevicesSeeBracketsAndRegisterWrites : Prop :=
  ∀ t : List Event, heldAfter false t = some false →
    (∀ writes : List (CoAddr × Byte),
      mailboxCommits [] (t ++ .acq :: writes.map (fun x => .mbw x.1 x.2) ++ [.rel]) = mailboxCommits [] t ++ [writes])
    ∧ ∀ (p : Params) (part : Part) (r v : Byte) (la lb : Option Byte),
      fmRegisterWrites la lb (t ++ .acq :: fmwEvents p part r v ++ [.rel])
        = fmRegisterWrites la lb t ++ [(part, some r, v)]

/-! ### Steps of a command that waits -/

/-- R41, R61, R87, R122, R201, R203: the executor runs every micro-sequence, whatever the environment answers. The step
that accepts an adapter command, a FRAME_RUN that dispatches or a FRAME_IN that stops the transport runs the command's
micro-sequence from its head (`fresh`), with FRAME_RUN's updates deferred and FRAME_IN's registers written; the
micro-sequence of a composite is those of its commands, one after another. While a command is in execution every step is
one further attempt of the hold it waits at, an ACQ or an FMS, whose retry counter goes on (`fresh` is false). At the end of
the micro-sequence every deferred update is made. What the executor does with each micro-operation is said of `runQueue` by
the statements on ACQ, FMS and the others: so a hold of the accepting step waits, or faults, wherever it stands. One attempt
a step, and the field `after`, are the model's choice (log entry 4). -/
def Obligations.ExecutorRunsTheMicroSequence : Prop :=
  (∀ s : State, s.idle = true →
    (∀ i : Instr, i.isAdapter = true → i.wellFormed = true → s.halted = false →
      exec i s = .next (runQueue true (adapterOps s.params s.instr i) s))
    ∧ (s.playing = true → 1 ≤ s.tempo.toNat → s.frameCounter % s.tempo.toNat = 0 →
        stepDispatchable s.params s.pattern s.stepPosition = true →
      exec .frameRun s =
        .next (runQueue true (stepDispatchOps s.params s.pattern s.stepPosition)
          { s with after := [.advanceStep, .tickFrame] }))
    ∧ ∀ b : Byte, s.playing = true → s.chordLatch = false → s.halted = false →
        b.getLsbD s.params.chordA.val = true → b.getLsbD s.params.chordB.val = true →
      exec (.frameIn b) s =
        .next (runQueue true (onStopOps s.params s.instr) { s with
          press := b &&& ~~~s.prevButtons, prevButtons := b, chordLatch := true, playing := false }))
  ∧ (∀ (p : Params) (x : Instrument),
      adapterOps p x .fmVoiceLoad = (voiceCommands p x).flatMap (adapterOps p x)
      ∧ onStopOps p x = p.onStopActions.flatMap (adapterOps p x)
      ∧ ∀ (st : PatternStore) (k : BitVec 4), stepDispatchable p st k = true →
          stepDispatchOps p st k = (dispatchCommands p st k).flatMap (adapterOps p x))
  ∧ (∀ s : State, Inv s → s.uq ≠ [] →
    (∃ rest, (s.uq = .acq :: rest ∧ s.busHeld = false) ∨ (s.uq = .fms :: rest ∧ s.busHeld = true))
    ∧ step s = .next (runQueue false s.uq { s with uq := [] }))
  ∧ ∀ (fresh : Bool) (s : State),
      runQueue fresh [] s = { s with
        after := []
        stepPosition := BitVec.ofNat 4 ((s.stepPosition.toNat + s.after.count .advanceStep) % 16)
        frameCounter := s.frameCounter + s.after.count .tickFrame }

/-- R253, R254: a command that waits faults at the unfavourable answer that makes its retry counter equal to the timeout,
and not before; the counter goes on from step to step. A fault at an FMS releases the bus with its event; of the deferred
updates only that of `frame_counter` is made. The scripted answers and the field `after` are log entries 2 and 4. -/
def Obligations.WaitingHoldFaultsAtItsTimeout : Prop :=
  ∀ (k n : Nat) (s : State) (rest : List MicroOp) (later : List Bool),
    let fault (code : BitVec 2) : State := { s with
      uq := []
      after := []
      halted := true
      playing := false
      faultCode := if s.halted then s.faultCode else code
      frameCounter := s.frameCounter + if .tickFrame ∈ s.after then 1 else 0 }
    (s.uq = .acq :: rest → s.busHeld = false → bracketed false (.acq :: rest) = true →
      s.params.busTimeout = some n → s.busRetry + (k + 1) = n →
      s.env.grants = List.replicate (k + 1) false ++ later →
      (∀ j, j ≤ k → ∃ e : Env, Host.Core.run Sys2Proof.core j s = .next { s with busRetry := s.busRetry + j, env := e })
      ∧ ∃ e : Env, Host.Core.run Sys2Proof.core (k + 1) s = .next { fault 1 with busRetry := n, env := e })
    ∧ (s.uq = .fms :: rest → s.busHeld = true → bracketed true (.fms :: rest) = true →
      s.params.fmTimeout = some n → s.fmRetry + (k + 1) = n →
      s.env.busy = List.replicate (k + 1) true ++ later →
      (∀ j, j ≤ k → ∃ e : Env, Host.Core.run Sys2Proof.core j s =
        .next { s with fmRetry := s.fmRetry + j, trace := s.trace ++ List.replicate j (.fms true), env := e })
      ∧ ∃ e : Env, Host.Core.run Sys2Proof.core (k + 1) s =
        .next { fault 2 with
          busHeld := false, trace := s.trace ++ List.replicate (k + 1) (.fms true) ++ [.rel], fmRetry := n, env := e })
end

