-- ==== Sys2Proof/Laws/State.lean ====
section
/-! SUPPORT. One lemma per field for each named update of the state: an event recorded, a word presented, a deferred
update applied, and the state after reset. Each is true by unfolding its one update. -/

namespace Sys2Proof.Machine

@[simp] theorem record_params (e : Event) (s : State) : (record e s).params = s.params := rfl
@[simp] theorem record_pattern (e : Event) (s : State) : (record e s).pattern = s.pattern := rfl
@[simp] theorem record_stepPosition (e : Event) (s : State) : (record e s).stepPosition = s.stepPosition := rfl
@[simp] theorem record_frameCounter (e : Event) (s : State) : (record e s).frameCounter = s.frameCounter := rfl
@[simp] theorem record_tempo (e : Event) (s : State) : (record e s).tempo = s.tempo := rfl
@[simp] theorem record_playing (e : Event) (s : State) : (record e s).playing = s.playing := rfl
@[simp] theorem record_chordLatch (e : Event) (s : State) : (record e s).chordLatch = s.chordLatch := rfl
@[simp] theorem record_prevButtons (e : Event) (s : State) : (record e s).prevButtons = s.prevButtons := rfl
@[simp] theorem record_press (e : Event) (s : State) : (record e s).press = s.press := rfl
@[simp] theorem record_instr (e : Event) (s : State) : (record e s).instr = s.instr := rfl
@[simp] theorem record_mapDiv (e : Event) (s : State) : (record e s).mapDiv = s.mapDiv := rfl
@[simp] theorem record_mapBlock (e : Event) (s : State) : (record e s).mapBlock = s.mapBlock := rfl
@[simp] theorem record_mapFnum (e : Event) (s : State) : (record e s).mapFnum = s.mapFnum := rfl
@[simp] theorem record_meter (e : Event) (s : State) : (record e s).meter = s.meter := rfl
@[simp] theorem record_cmdErr (e : Event) (s : State) : (record e s).cmdErr = s.cmdErr := rfl
@[simp] theorem record_halted (e : Event) (s : State) : (record e s).halted = s.halted := rfl
@[simp] theorem record_faultCode (e : Event) (s : State) : (record e s).faultCode = s.faultCode := rfl
@[simp] theorem record_busHeld (e : Event) (s : State) : (record e s).busHeld = s.busHeld := rfl
@[simp] theorem record_uq (e : Event) (s : State) : (record e s).uq = s.uq := rfl
@[simp] theorem record_after (e : Event) (s : State) : (record e s).after = s.after := rfl
@[simp] theorem record_busRetry (e : Event) (s : State) : (record e s).busRetry = s.busRetry := rfl
@[simp] theorem record_fmRetry (e : Event) (s : State) : (record e s).fmRetry = s.fmRetry := rfl
@[simp] theorem record_trace (e : Event) (s : State) : (record e s).trace = s.trace ++ [e] := rfl
@[simp] theorem record_port (e : Event) (s : State) : (record e s).port = s.port := rfl
@[simp] theorem record_env (e : Event) (s : State) : (record e s).env = s.env := rfl

@[simp] theorem presentWord_params (w : CmdWord) (s : State) : (presentWord w s).params = s.params := rfl
@[simp] theorem presentWord_pattern (w : CmdWord) (s : State) : (presentWord w s).pattern = s.pattern := rfl
@[simp] theorem presentWord_stepPosition (w : CmdWord) (s : State) : (presentWord w s).stepPosition = s.stepPosition := rfl
@[simp] theorem presentWord_frameCounter (w : CmdWord) (s : State) : (presentWord w s).frameCounter = s.frameCounter := rfl
@[simp] theorem presentWord_tempo (w : CmdWord) (s : State) : (presentWord w s).tempo = s.tempo := rfl
@[simp] theorem presentWord_playing (w : CmdWord) (s : State) : (presentWord w s).playing = s.playing := rfl
@[simp] theorem presentWord_chordLatch (w : CmdWord) (s : State) : (presentWord w s).chordLatch = s.chordLatch := rfl
@[simp] theorem presentWord_prevButtons (w : CmdWord) (s : State) : (presentWord w s).prevButtons = s.prevButtons := rfl
@[simp] theorem presentWord_press (w : CmdWord) (s : State) : (presentWord w s).press = s.press := rfl
@[simp] theorem presentWord_instr (w : CmdWord) (s : State) : (presentWord w s).instr = s.instr := rfl
@[simp] theorem presentWord_mapDiv (w : CmdWord) (s : State) : (presentWord w s).mapDiv = s.mapDiv := rfl
@[simp] theorem presentWord_mapBlock (w : CmdWord) (s : State) : (presentWord w s).mapBlock = s.mapBlock := rfl
@[simp] theorem presentWord_mapFnum (w : CmdWord) (s : State) : (presentWord w s).mapFnum = s.mapFnum := rfl
@[simp] theorem presentWord_meter (w : CmdWord) (s : State) : (presentWord w s).meter = s.meter := rfl
@[simp] theorem presentWord_cmdErr (w : CmdWord) (s : State) : (presentWord w s).cmdErr = s.cmdErr := rfl
@[simp] theorem presentWord_halted (w : CmdWord) (s : State) : (presentWord w s).halted = s.halted := rfl
@[simp] theorem presentWord_faultCode (w : CmdWord) (s : State) : (presentWord w s).faultCode = s.faultCode := rfl
@[simp] theorem presentWord_busHeld (w : CmdWord) (s : State) : (presentWord w s).busHeld = s.busHeld := rfl
@[simp] theorem presentWord_uq (w : CmdWord) (s : State) : (presentWord w s).uq = s.uq := rfl
@[simp] theorem presentWord_after (w : CmdWord) (s : State) : (presentWord w s).after = s.after := rfl
@[simp] theorem presentWord_busRetry (w : CmdWord) (s : State) : (presentWord w s).busRetry = s.busRetry := rfl
@[simp] theorem presentWord_fmRetry (w : CmdWord) (s : State) : (presentWord w s).fmRetry = s.fmRetry := rfl
@[simp] theorem presentWord_trace (w : CmdWord) (s : State) : (presentWord w s).trace = s.trace := rfl
@[simp] theorem presentWord_port (w : CmdWord) (s : State) : (presentWord w s).port = w :: s.port := rfl
@[simp] theorem presentWord_env (w : CmdWord) (s : State) : (presentWord w s).env = s.env := rfl

@[simp] theorem applyDeferred_advanceStep_params (s : State) : (applyDeferred .advanceStep s).params = s.params := rfl
@[simp] theorem applyDeferred_advanceStep_pattern (s : State) : (applyDeferred .advanceStep s).pattern = s.pattern := rfl
@[simp] theorem applyDeferred_advanceStep_stepPosition (s : State) : (applyDeferred .advanceStep s).stepPosition = s.stepPosition + 1 := rfl
@[simp] theorem applyDeferred_advanceStep_frameCounter (s : State) : (applyDeferred .advanceStep s).frameCounter = s.frameCounter := rfl
@[simp] theorem applyDeferred_advanceStep_tempo (s : State) : (applyDeferred .advanceStep s).tempo = s.tempo := rfl
@[simp] theorem applyDeferred_advanceStep_playing (s : State) : (applyDeferred .advanceStep s).playing = s.playing := rfl
@[simp] theorem applyDeferred_advanceStep_chordLatch (s : State) : (applyDeferred .advanceStep s).chordLatch = s.chordLatch := rfl
@[simp] theorem applyDeferred_advanceStep_prevButtons (s : State) : (applyDeferred .advanceStep s).prevButtons = s.prevButtons := rfl
@[simp] theorem applyDeferred_advanceStep_press (s : State) : (applyDeferred .advanceStep s).press = s.press := rfl
@[simp] theorem applyDeferred_advanceStep_instr (s : State) : (applyDeferred .advanceStep s).instr = s.instr := rfl
@[simp] theorem applyDeferred_advanceStep_mapDiv (s : State) : (applyDeferred .advanceStep s).mapDiv = s.mapDiv := rfl
@[simp] theorem applyDeferred_advanceStep_mapBlock (s : State) : (applyDeferred .advanceStep s).mapBlock = s.mapBlock := rfl
@[simp] theorem applyDeferred_advanceStep_mapFnum (s : State) : (applyDeferred .advanceStep s).mapFnum = s.mapFnum := rfl
@[simp] theorem applyDeferred_advanceStep_meter (s : State) : (applyDeferred .advanceStep s).meter = s.meter := rfl
@[simp] theorem applyDeferred_advanceStep_cmdErr (s : State) : (applyDeferred .advanceStep s).cmdErr = s.cmdErr := rfl
@[simp] theorem applyDeferred_advanceStep_halted (s : State) : (applyDeferred .advanceStep s).halted = s.halted := rfl
@[simp] theorem applyDeferred_advanceStep_faultCode (s : State) : (applyDeferred .advanceStep s).faultCode = s.faultCode := rfl
@[simp] theorem applyDeferred_advanceStep_busHeld (s : State) : (applyDeferred .advanceStep s).busHeld = s.busHeld := rfl
@[simp] theorem applyDeferred_advanceStep_uq (s : State) : (applyDeferred .advanceStep s).uq = s.uq := rfl
@[simp] theorem applyDeferred_advanceStep_after (s : State) : (applyDeferred .advanceStep s).after = s.after := rfl
@[simp] theorem applyDeferred_advanceStep_busRetry (s : State) : (applyDeferred .advanceStep s).busRetry = s.busRetry := rfl
@[simp] theorem applyDeferred_advanceStep_fmRetry (s : State) : (applyDeferred .advanceStep s).fmRetry = s.fmRetry := rfl
@[simp] theorem applyDeferred_advanceStep_trace (s : State) : (applyDeferred .advanceStep s).trace = s.trace := rfl
@[simp] theorem applyDeferred_advanceStep_port (s : State) : (applyDeferred .advanceStep s).port = s.port := rfl
@[simp] theorem applyDeferred_advanceStep_env (s : State) : (applyDeferred .advanceStep s).env = s.env := rfl

@[simp] theorem applyDeferred_tickFrame_params (s : State) : (applyDeferred .tickFrame s).params = s.params := rfl
@[simp] theorem applyDeferred_tickFrame_pattern (s : State) : (applyDeferred .tickFrame s).pattern = s.pattern := rfl
@[simp] theorem applyDeferred_tickFrame_stepPosition (s : State) : (applyDeferred .tickFrame s).stepPosition = s.stepPosition := rfl
@[simp] theorem applyDeferred_tickFrame_frameCounter (s : State) : (applyDeferred .tickFrame s).frameCounter = s.frameCounter + 1 := rfl
@[simp] theorem applyDeferred_tickFrame_tempo (s : State) : (applyDeferred .tickFrame s).tempo = s.tempo := rfl
@[simp] theorem applyDeferred_tickFrame_playing (s : State) : (applyDeferred .tickFrame s).playing = s.playing := rfl
@[simp] theorem applyDeferred_tickFrame_chordLatch (s : State) : (applyDeferred .tickFrame s).chordLatch = s.chordLatch := rfl
@[simp] theorem applyDeferred_tickFrame_prevButtons (s : State) : (applyDeferred .tickFrame s).prevButtons = s.prevButtons := rfl
@[simp] theorem applyDeferred_tickFrame_press (s : State) : (applyDeferred .tickFrame s).press = s.press := rfl
@[simp] theorem applyDeferred_tickFrame_instr (s : State) : (applyDeferred .tickFrame s).instr = s.instr := rfl
@[simp] theorem applyDeferred_tickFrame_mapDiv (s : State) : (applyDeferred .tickFrame s).mapDiv = s.mapDiv := rfl
@[simp] theorem applyDeferred_tickFrame_mapBlock (s : State) : (applyDeferred .tickFrame s).mapBlock = s.mapBlock := rfl
@[simp] theorem applyDeferred_tickFrame_mapFnum (s : State) : (applyDeferred .tickFrame s).mapFnum = s.mapFnum := rfl
@[simp] theorem applyDeferred_tickFrame_meter (s : State) : (applyDeferred .tickFrame s).meter = s.meter := rfl
@[simp] theorem applyDeferred_tickFrame_cmdErr (s : State) : (applyDeferred .tickFrame s).cmdErr = s.cmdErr := rfl
@[simp] theorem applyDeferred_tickFrame_halted (s : State) : (applyDeferred .tickFrame s).halted = s.halted := rfl
@[simp] theorem applyDeferred_tickFrame_faultCode (s : State) : (applyDeferred .tickFrame s).faultCode = s.faultCode := rfl
@[simp] theorem applyDeferred_tickFrame_busHeld (s : State) : (applyDeferred .tickFrame s).busHeld = s.busHeld := rfl
@[simp] theorem applyDeferred_tickFrame_uq (s : State) : (applyDeferred .tickFrame s).uq = s.uq := rfl
@[simp] theorem applyDeferred_tickFrame_after (s : State) : (applyDeferred .tickFrame s).after = s.after := rfl
@[simp] theorem applyDeferred_tickFrame_busRetry (s : State) : (applyDeferred .tickFrame s).busRetry = s.busRetry := rfl
@[simp] theorem applyDeferred_tickFrame_fmRetry (s : State) : (applyDeferred .tickFrame s).fmRetry = s.fmRetry := rfl
@[simp] theorem applyDeferred_tickFrame_trace (s : State) : (applyDeferred .tickFrame s).trace = s.trace := rfl
@[simp] theorem applyDeferred_tickFrame_port (s : State) : (applyDeferred .tickFrame s).port = s.port := rfl
@[simp] theorem applyDeferred_tickFrame_env (s : State) : (applyDeferred .tickFrame s).env = s.env := rfl

@[simp] theorem boot_params (p : Params) (b : BootImage) : (State.boot p b).params = p := rfl
@[simp] theorem boot_pattern (p : Params) (b : BootImage) : (State.boot p b).pattern = b.pattern := rfl
@[simp] theorem boot_stepPosition (p : Params) (b : BootImage) : (State.boot p b).stepPosition = 0 := rfl
@[simp] theorem boot_frameCounter (p : Params) (b : BootImage) : (State.boot p b).frameCounter = 1 := rfl
@[simp] theorem boot_tempo (p : Params) (b : BootImage) : (State.boot p b).tempo = b.tempo := rfl
@[simp] theorem boot_playing (p : Params) (b : BootImage) : (State.boot p b).playing = false := rfl
@[simp] theorem boot_chordLatch (p : Params) (b : BootImage) : (State.boot p b).chordLatch = false := rfl
@[simp] theorem boot_prevButtons (p : Params) (b : BootImage) : (State.boot p b).prevButtons = 0 := rfl
@[simp] theorem boot_press (p : Params) (b : BootImage) : (State.boot p b).press = 0 := rfl
@[simp] theorem boot_instr (p : Params) (b : BootImage) : (State.boot p b).instr = b.instr := rfl
@[simp] theorem boot_mapDiv (p : Params) (b : BootImage) : (State.boot p b).mapDiv = none := rfl
@[simp] theorem boot_mapBlock (p : Params) (b : BootImage) : (State.boot p b).mapBlock = none := rfl
@[simp] theorem boot_mapFnum (p : Params) (b : BootImage) : (State.boot p b).mapFnum = none := rfl
@[simp] theorem boot_meter (p : Params) (b : BootImage) : (State.boot p b).meter = none := rfl
@[simp] theorem boot_cmdErr (p : Params) (b : BootImage) : (State.boot p b).cmdErr = false := rfl
@[simp] theorem boot_halted (p : Params) (b : BootImage) : (State.boot p b).halted = false := rfl
@[simp] theorem boot_faultCode (p : Params) (b : BootImage) : (State.boot p b).faultCode = 0 := rfl
@[simp] theorem boot_busHeld (p : Params) (b : BootImage) : (State.boot p b).busHeld = false := rfl
@[simp] theorem boot_uq (p : Params) (b : BootImage) : (State.boot p b).uq = [] := rfl
@[simp] theorem boot_after (p : Params) (b : BootImage) : (State.boot p b).after = [] := rfl
@[simp] theorem boot_busRetry (p : Params) (b : BootImage) : (State.boot p b).busRetry = 0 := rfl
@[simp] theorem boot_fmRetry (p : Params) (b : BootImage) : (State.boot p b).fmRetry = 0 := rfl
@[simp] theorem boot_trace (p : Params) (b : BootImage) : (State.boot p b).trace = [] := rfl
@[simp] theorem boot_port (p : Params) (b : BootImage) : (State.boot p b).port = [] := rfl
@[simp] theorem boot_env (p : Params) (b : BootImage) : (State.boot p b).env = Env.unknown := rfl

end Sys2Proof.Machine
end

