-- ==== Sys2Proof/Laws/Ops.lean ====
section
/-! SUPPORT. What each shared operation can do, said once: an attempt of a micro-operation, fault entry, the executor,
accepting and refusing a command, and going on with one. -/

namespace Sys2Proof.Machine

/-- The state an attempt ends in. -/
def Progress.state : Progress → State
  | .done s => s
  | .waiting s => s
  | .faulted s => s

/-- The state elements no micro-operation touches: the parameters, the stores, the button registers, the mapper
results, `cmd_err` and the command port. -/
structure ExecutorFrame (s t : State) : Prop where
  params : t.params = s.params
  pattern : t.pattern = s.pattern
  tempo : t.tempo = s.tempo
  instr : t.instr = s.instr
  chordLatch : t.chordLatch = s.chordLatch
  prevButtons : t.prevButtons = s.prevButtons
  press : t.press = s.press
  mapDiv : t.mapDiv = s.mapDiv
  mapBlock : t.mapBlock = s.mapBlock
  mapFnum : t.mapFnum = s.mapFnum
  cmdErr : t.cmdErr = s.cmdErr
  port : t.port = s.port

theorem ExecutorFrame.refl (s : State) : ExecutorFrame s s :=
  ⟨rfl, rfl, rfl, rfl, rfl, rfl, rfl, rfl, rfl, rfl, rfl, rfl⟩

theorem ExecutorFrame.trans {s t u : State} (h : ExecutorFrame s t) (k : ExecutorFrame t u) : ExecutorFrame s u :=
  ⟨k.params.trans h.params, k.pattern.trans h.pattern, k.tempo.trans h.tempo, k.instr.trans h.instr,
   k.chordLatch.trans h.chordLatch, k.prevButtons.trans h.prevButtons, k.press.trans h.press,
   k.mapDiv.trans h.mapDiv, k.mapBlock.trans h.mapBlock, k.mapFnum.trans h.mapFnum, k.cmdErr.trans h.cmdErr,
   k.port.trans h.port⟩

/-! ### Deferred updates -/

theorem applyDeferred_frame (d : Deferred) (s : State) : ExecutorFrame s (applyDeferred d s) := by
  cases d <;> exact ⟨rfl, rfl, rfl, rfl, rfl, rfl, rfl, rfl, rfl, rfl, rfl, rfl⟩

/-- `finish` with nothing deferred. -/
@[simp] theorem finish_none {s : State} (h : s.after = []) : finish s = s := by
  cases s; simp_all [finish]

/-- `finish` of an ungated FRAME_RUN (R203). -/
theorem finish_tick {s : State} (h : s.after = [.tickFrame]) :
    finish s = { s with frameCounter := s.frameCounter + 1, after := [] } := by
  simp [finish, h, applyDeferred]

/-- `finish` of a dispatch (R203, R209). -/
theorem finish_advance_tick {s : State} (h : s.after = [.advanceStep, .tickFrame]) :
    finish s =
      { s with stepPosition := s.stepPosition + 1, frameCounter := s.frameCounter + 1, after := [] } := by
  simp [finish, h, applyDeferred]

theorem foldl_applyDeferred_frame (ds : List Deferred) (s : State) :
    ExecutorFrame s (ds.foldl (fun t d => applyDeferred d t) s) := by
  induction ds generalizing s with
  | nil => exact .refl s
  | cons d ds ih => exact (applyDeferred_frame d s).trans (ih _)

theorem finish_frame (s : State) : ExecutorFrame s (finish s) := by
  have h := foldl_applyDeferred_frame s.after s
  exact ⟨h.params, h.pattern, h.tempo, h.instr, h.chordLatch, h.prevButtons, h.press, h.mapDiv, h.mapBlock,
    h.mapFnum, h.cmdErr, h.port⟩

/-- Of the state, the deferred updates write the step position, the frame counter and their own list alone. -/
theorem finish_other (s : State) :
    (finish s).playing = s.playing ∧ (finish s).meter = s.meter ∧ (finish s).halted = s.halted
      ∧ (finish s).faultCode = s.faultCode ∧ (finish s).busHeld = s.busHeld ∧ (finish s).uq = s.uq
      ∧ (finish s).after = [] ∧ (finish s).busRetry = s.busRetry ∧ (finish s).fmRetry = s.fmRetry
      ∧ (finish s).trace = s.trace ∧ (finish s).env = s.env := by
  have key : ∀ (ds : List Deferred) (u : State), ∃ p n,
      ds.foldl (fun t d => applyDeferred d t) u = { u with stepPosition := p, frameCounter := n } := by
    intro ds
    induction ds with
    | nil => intro u; exact ⟨u.stepPosition, u.frameCounter, rfl⟩
    | cons d ds ih =>
      intro u
      obtain ⟨p, n, h⟩ := ih (applyDeferred d u)
      refine ⟨p, n, ?_⟩
      rw [List.foldl_cons, h]
      cases d <;> rfl
  obtain ⟨p, n, h⟩ := key s.after s
  simp [finish, h]

/-! ### Fault entry -/

/-- Everything fault entry does (R254). -/
theorem raiseFault_spec (f : FaultCause) (s : State) :
    raiseFault f s =
      { s with
        faultCode := if s.halted then s.faultCode else faultCodeOf f
        halted := true
        playing := false
        uq := []
        after := []
        busHeld := false
        trace := if s.busHeld then s.trace ++ [.rel] else s.trace
        frameCounter := if s.after.contains .tickFrame then s.frameCounter + 1 else s.frameCounter } := by
  cases s with
  | mk _ _ _ _ _ _ _ _ _ _ _ _ _ _ _ halted _ busHeld _ after _ _ _ _ _ =>
    cases halted <;> cases busHeld <;> by_cases h : after.contains Deferred.tickFrame = true <;>
      simp_all [raiseFault, record, applyDeferred]

theorem raiseFault_frame (f : FaultCause) (s : State) : ExecutorFrame s (raiseFault f s) := by
  rw [raiseFault_spec]; exact ⟨rfl, rfl, rfl, rfl, rfl, rfl, rfl, rfl, rfl, rfl, rfl, rfl⟩

/-! ### One attempt -/

/-- A granted attempt of ACQ (R62). -/
theorem attemptAcq_granted {s : State} (fresh : Bool) (h : s.env.grant = true) :
    attemptAcq fresh s =
      .done { s with busRetry := if fresh then 0 else s.busRetry, env := s.env.afterGrant, busHeld := true
                     trace := s.trace ++ [.acq] } := by
  cases fresh <;> simp [attemptAcq, h, record]

/-- A denied attempt of ACQ (R62). -/
theorem attemptAcq_denied {s : State} (fresh : Bool) (h : s.env.grant = false) :
    attemptAcq fresh s =
      let n := (if fresh then 0 else s.busRetry) + 1
      let s' := { s with busRetry := n, env := s.env.afterGrant }
      if timedOut s.params.busTimeout n then .faulted (raiseFault .busContention s') else .waiting s' := by
  cases fresh <;> simp [attemptAcq, h]

/-- A status read of FMS that finds the chip ready (R70). -/
theorem attemptFms_ready {s : State} (fresh : Bool) (h : s.env.busyAnswer = false) :
    attemptFms fresh s =
      .done { s with fmRetry := if fresh then 0 else s.fmRetry, env := s.env.afterBusy
                     trace := s.trace ++ [.fms false] } := by
  cases fresh <;> simp [attemptFms, h, record]

/-- A status read of FMS that finds the chip busy (R70). -/
theorem attemptFms_busy {s : State} (fresh : Bool) (h : s.env.busyAnswer = true) :
    attemptFms fresh s =
      let n := (if fresh then 0 else s.fmRetry) + 1
      let s' := { s with fmRetry := n, env := s.env.afterBusy, trace := s.trace ++ [.fms true] }
      if timedOut s.params.fmTimeout n then .faulted (raiseFault .fmBusyTimeout s') else .waiting s' := by
  cases fresh <;> simp [attemptFms, h, record]

theorem attempt_frame (fresh : Bool) (m : MicroOp) (s : State) :
    ExecutorFrame s (attempt fresh m s).state := by
  have stop (b : Bool) (f : FaultCause) (t : State) (h : ExecutorFrame s t) :
      ExecutorFrame s (if b then Progress.faulted (raiseFault f t) else .waiting t).state := by
    cases b
    · exact h
    · exact h.trans (raiseFault_frame f t)
  cases m with
  | acq =>
    cases h : s.env.grant with
    | true =>
      simp only [attempt, attemptAcq_granted fresh h, Progress.state]
      exact ⟨rfl, rfl, rfl, rfl, rfl, rfl, rfl, rfl, rfl, rfl, rfl, rfl⟩
    | false =>
      rw [attempt, attemptAcq_denied fresh h]
      exact stop _ _ _ ⟨rfl, rfl, rfl, rfl, rfl, rfl, rfl, rfl, rfl, rfl, rfl, rfl⟩
  | fms =>
    cases h : s.env.busyAnswer with
    | false =>
      simp only [attempt, attemptFms_ready fresh h, Progress.state]
      exact ⟨rfl, rfl, rfl, rfl, rfl, rfl, rfl, rfl, rfl, rfl, rfl, rfl⟩
    | true =>
      rw [attempt, attemptFms_busy fresh h]
      exact stop _ _ _ ⟨rfl, rfl, rfl, rfl, rfl, rfl, rfl, rfl, rfl, rfl, rfl, rfl⟩
  | _ => exact ⟨rfl, rfl, rfl, rfl, rfl, rfl, rfl, rfl, rfl, rfl, rfl, rfl⟩

/-! ### The executor -/

@[simp] theorem runQueue_nil (fresh : Bool) (s : State) : runQueue fresh [] s = finish s := rfl

/-- One micro-operation of the executor, by what its attempt comes to (R61). -/
theorem runQueue_cons (fresh : Bool) (m : MicroOp) (rest : List MicroOp) (s : State) :
    runQueue fresh (m :: rest) s =
      match attempt fresh m s with
      | .done s' => runQueue true rest s'
      | .waiting s' => { s' with uq := m :: rest }
      | .faulted s' => s' := rfl

/-- The executor's frame: it touches none of the elements of `ExecutorFrame`. -/
theorem runQueue_frame (fresh : Bool) (ops : List MicroOp) (s : State) :
    ExecutorFrame s (runQueue fresh ops s) := by
  induction ops generalizing fresh s with
  | nil => exact finish_frame s
  | cons m rest ih =>
    have h := attempt_frame fresh m s
    rw [runQueue_cons]
    cases e : attempt fresh m s with
    | done t => rw [e] at h; exact h.trans (ih true t)
    | waiting t =>
      rw [e] at h
      exact h.trans ⟨rfl, rfl, rfl, rfl, rfl, rfl, rfl, rfl, rfl, rfl, rfl, rfl⟩
    | faulted t => rw [e] at h; exact h

/-- The state after a micro-sequence whose every hold is lifted at once, before the deferred updates. -/
def performed (ops : List MicroOp) (s : State) : State :=
  match ops with
  | [] => s
  | .acq :: rest =>
    performed rest { s with busRetry := 0, env := s.env.afterGrant, busHeld := true, trace := s.trace ++ [.acq] }
  | .rel :: rest => performed rest { s with busHeld := false, trace := s.trace ++ [.rel] }
  | .mbw a b :: rest => performed rest { s with trace := s.trace ++ [.mbw a b] }
  | .mbr a :: rest =>
    performed rest { s with meter := some s.env.meterByte, env := s.env.afterMeter
                            trace := s.trace ++ [.mbr a s.env.meterByte] }
  | .tpw b :: rest => performed rest { s with trace := s.trace ++ [.tpw b] }
  | .fms :: rest =>
    performed rest { s with fmRetry := 0, env := s.env.afterBusy, trace := s.trace ++ [.fms false] }
  | .fma p b :: rest => performed rest { s with trace := s.trace ++ [.fma p b] }
  | .fmd p b :: rest => performed rest { s with trace := s.trace ++ [.fmd p b] }
  | .dly n :: rest => performed rest { s with trace := s.trace ++ [.dly n] }
  | .persist :: rest => performed rest { s with trace := s.trace ++ [.persist] }

/-- A micro-sequence whose holds the environment lifts at once runs to completion in one step. -/
theorem runQueue_favoured (ops : List MicroOp) (s : State) (h : s.env.favours (asksOf ops) = true) :
    runQueue true ops s = finish (performed ops s) := by
  induction ops generalizing s with
  | nil => rfl
  | cons m rest ih =>
    cases m with
    | acq =>
      simp only [asksOf, Env.favours, Bool.and_eq_true] at h
      rw [runQueue_cons, attempt, attemptAcq_granted true h.1]
      exact ih _ h.2
    | fms =>
      simp only [asksOf, Env.favours, Bool.and_eq_true, Bool.not_eq_true'] at h
      rw [runQueue_cons, attempt, attemptFms_ready true h.1]
      exact ih _ h.2
    | mbr a =>
      simp only [asksOf, Env.favours] at h
      exact ih _ h
    | _ =>
      exact ih _ h

/-- The trace and the environment after such a micro-sequence. -/
theorem performed_trace (ops : List MicroOp) (s : State) :
    (performed ops s).trace = s.trace ++ eventsOf s.env ops := by
  induction ops generalizing s with
  | nil => simp [performed, eventsOf]
  | cons m rest ih => cases m <;> simp [performed, eventsOf, ih]

theorem performed_env (ops : List MicroOp) (s : State) :
    (performed ops s).env = s.env.afterAsks (asksOf ops) := by
  induction ops generalizing s with
  | nil => rfl
  | cons m rest ih => cases m <;> simp [performed, ih, asksOf, Env.afterAsks]

/-- What `performed` writes beside the trace, the environment and the bus registers: the meter alone. -/
theorem performed_other (ops : List MicroOp) (s : State) :
    performed ops s =
      { s with trace := (performed ops s).trace, env := (performed ops s).env, meter := (performed ops s).meter
               busHeld := (performed ops s).busHeld, busRetry := (performed ops s).busRetry
               fmRetry := (performed ops s).fmRetry } := by
  induction ops generalizing s with
  | nil => rfl
  | cons m rest ih => cases m <;> (simp only [performed]; rw [ih])

/-- `performed` neither reads nor writes the deferred updates. -/
theorem performed_with_after (ops : List MicroOp) (s : State) (ds : List Deferred) :
    performed ops { s with after := ds } = { performed ops s with after := ds } := by
  have key : ∀ u : State, u = { s with after := ds } → performed ops u = { performed ops s with after := ds } := by
    induction ops generalizing s with
    | nil => intro u h; exact h
    | cons m rest ih => intro u h; subst h; cases m <;> (simp only [performed]; exact ih _ _ rfl)
  exact key _ rfl

theorem performed_busRetry (ops : List MicroOp) (s : State) :
    (performed ops s).busRetry = if MicroOp.acq ∈ ops then 0 else s.busRetry := by
  induction ops generalizing s with
  | nil => rfl
  | cons m rest ih => cases m <;> simp [performed, ih]

theorem performed_fmRetry (ops : List MicroOp) (s : State) :
    (performed ops s).fmRetry = if MicroOp.fms ∈ ops then 0 else s.fmRetry := by
  induction ops generalizing s with
  | nil => rfl
  | cons m rest ih => cases m <;> simp [performed, ih]

/-- A micro-sequence that keeps the bracket discipline leaves the bus free. -/
theorem performed_busHeld (ops : List MicroOp) (s : State) (h : bracketed s.busHeld ops = true) :
    (performed ops s).busHeld = false := by
  induction ops generalizing s with
  | nil => simpa [bracketed, performed] using h
  | cons m rest ih =>
    cases m <;> (simp only [bracketed, Bool.and_eq_true, Bool.not_eq_true'] at h; exact ih _ (by simp_all))

/-- A micro-sequence without a meter read leaves the meter. -/
theorem performed_meter (ops : List MicroOp) (s : State) (h : ∀ a, MicroOp.mbr a ∉ ops) :
    (performed ops s).meter = s.meter := by
  induction ops generalizing s with
  | nil => rfl
  | cons m rest ih =>
    have hr : ∀ a, MicroOp.mbr a ∉ rest := fun a ha => h a (List.mem_cons_of_mem _ ha)
    cases m with
    | mbr a => exact absurd List.mem_cons_self (h a)
    | _ => exact ih _ hr

theorem performed_append (a b : List MicroOp) (s : State) :
    performed (a ++ b) s = performed b (performed a s) := by
  induction a generalizing s with
  | nil => rfl
  | cons m rest ih => cases m <;> simp [performed, ih]

/-! ### Accepting and refusing -/

theorem idle_iff (s : State) : s.idle = true ↔ s.uq = [] ∧ s.after = [] ∧ s.busHeld = false := by
  simp [State.idle, and_assoc]

/-- Everything `accept` can do. -/
theorem accept_cases (s : State) (ops : List MicroOp) (ds : List Deferred) :
    (s.idle = true ∧ accept s ops ds = .next (runQueue true ops { s with after := ds }))
      ∨ (s.idle = false ∧ accept s ops ds = .fault .notIdle) := by
  cases h : s.idle <;> simp [accept, h]

theorem accept_idle {s : State} (h : s.idle = true) (ops : List MicroOp) (ds : List Deferred) :
    accept s ops ds = .next (runQueue true ops { s with after := ds }) := by
  simp [accept, h]

/-- A command that emits nothing and defers nothing. -/
theorem accept_nothing {s : State} (h : s.idle = true) : accept s [] [] = .next s := by
  have ha := ((idle_iff s).1 h).2.1
  rw [accept_idle h, runQueue_nil, finish_none rfl]
  cases s; simp_all

/-- A FRAME_RUN that dispatches nothing (R203). -/
theorem accept_tick {s : State} (h : s.idle = true) :
    accept s [] [.tickFrame] = .next { s with frameCounter := s.frameCounter + 1 } := by
  have ha := ((idle_iff s).1 h).2.1
  rw [accept_idle h, runQueue_nil, finish_tick rfl]
  cases s; simp_all

/-- Everything `refuse` can do (R106). -/
theorem refuse_cases (s : State) :
    (s.idle = true ∧ refuse s = .next { s with cmdErr := true })
      ∨ (s.idle = false ∧ refuse s = .fault .notIdle) := by
  cases h : s.idle <;> simp [refuse, h]

theorem refuse_idle {s : State} (h : s.idle = true) : refuse s = .next { s with cmdErr := true } := by
  simp [refuse, h]

/-- Everything `acceptAdapter` can do (R107, R267). -/
theorem acceptAdapter_cases (s : State) (ops : List MicroOp) :
    (s.idle = true ∧ s.halted = false ∧ acceptAdapter s ops = .next (runQueue true ops s))
      ∨ (s.idle = true ∧ s.halted = true ∧ acceptAdapter s ops = .next { s with cmdErr := true })
      ∨ (s.idle = false ∧ acceptAdapter s ops = .fault .notIdle) := by
  cases hi : s.idle with
  | false => cases hh : s.halted <;> simp [acceptAdapter, accept, refuse, hi, hh]
  | true =>
    have ha := ((idle_iff s).1 hi).2.1
    have e : ({ s with after := [] } : State) = s := by cases s; simp_all
    rcases Bool.eq_false_or_eq_true s.halted with hh | hh
    · exact .inr (.inl ⟨rfl, hh, by rw [acceptAdapter, if_pos hh, refuse_idle hi]⟩)
    · refine .inl ⟨rfl, hh, ?_⟩
      rw [acceptAdapter, if_neg (by simp [hh]), accept_idle hi, e]

/-- An adapter command whose holds are lifted at once, on an idle machine that is not halted. -/
theorem acceptAdapter_favoured {s : State} {ops : List MicroOp} (hi : s.idle = true) (hh : s.halted = false)
    (h : s.env.favours (asksOf ops) = true) : acceptAdapter s ops = .next (performed ops s) := by
  have ha := ((idle_iff s).1 hi).2.1
  have e : ({ s with after := [] } : State) = s := by cases s; simp_all
  have hp : (performed ops s).after = [] := by rw [performed_other]; exact ha
  rw [acceptAdapter, hh, if_neg Bool.false_ne_true, accept_idle hi, e, runQueue_favoured ops s h, finish_none hp]

/-- Everything `acceptStore` can do (R231). -/
theorem acceptStore_cases (s : State) :
    (s.idle = true ∧ acceptStore s = .next { s with trace := s.trace ++ [.persist] })
      ∨ (s.idle = false ∧ acceptStore s = .fault .notIdle) := by
  cases hi : s.idle with
  | false => simp [acceptStore, accept, hi]
  | true =>
    have ha := ((idle_iff s).1 hi).2.1
    refine .inl ⟨rfl, ?_⟩
    rw [acceptStore, accept_idle hi]
    cases s
    simp_all [runQueue, attempt, record, finish]

theorem acceptStore_idle {s : State} (h : s.idle = true) :
    acceptStore s = .next { s with trace := s.trace ++ [.persist] } := by
  rcases acceptStore_cases s with ⟨_, e⟩ | ⟨n, _⟩
  · exact e
  · simp [h] at n

/-- Everything `resume` can do. -/
theorem resume_cases (s : State) :
    (startsWithHold s.uq = true ∧ bracketed s.busHeld s.uq = true
        ∧ resume s = .next (runQueue false s.uq { s with uq := [] }))
      ∨ ((startsWithHold s.uq && bracketed s.busHeld s.uq) = false ∧ resume s = .fault .busDiscipline) := by
  by_cases h : (startsWithHold s.uq && bracketed s.busHeld s.uq) = true
  · left; simp only [Bool.and_eq_true] at h; exact ⟨h.1, h.2, by simp [resume, h.1, h.2]⟩
  · right; simp only [Bool.not_eq_true] at h; exact ⟨h, by simp [resume, h]⟩

end Sys2Proof.Machine
end

