-- ==== Sys2Proof/Laws/Adapters.lean ====
section
/-! SUPPORT. Every micro-sequence the commands emit keeps the bracket discipline (R86) and the port-write protocol
(R73): one lemma per adapter command, assembled from the bodies of brackets. -/

namespace Sys2Proof.Machine

theorem portPhaseAfter_append (ph : PortPhase) (a b : List Event) :
    portPhaseAfter ph (a ++ b) = (portPhaseAfter ph a).bind fun ph' => portPhaseAfter ph' b := by
  induction a generalizing ph with
  | nil => rfl
  | cons e a ih =>
    simp only [List.cons_append, portPhaseAfter]
    cases portPhaseStep ph e <;> simp [ih]

theorem opPhaseAfter_append (ph : PortPhase) (a b : List MicroOp) :
    opPhaseAfter ph (a ++ b) = (opPhaseAfter ph a).bind fun ph' => opPhaseAfter ph' b := by
  simp [opPhaseAfter, portPhaseAfter_append]

theorem heldAfter_append (h : Bool) (a b : List Event) :
    heldAfter h (a ++ b) = (heldAfter h a).bind fun h' => heldAfter h' b := by
  induction a generalizing h with
  | nil => rfl
  | cons e a ih => cases e <;> cases h <;> simp [heldAfter, ih]

theorem eventsOf_append (e : Env) (a b : List MicroOp) :
    eventsOf e (a ++ b) = eventsOf e a ++ eventsOf (e.afterAsks (asksOf a)) b := by
  induction a generalizing e with
  | nil => rfl
  | cons m a ih => cases m <;> simp [eventsOf, asksOf, Env.afterAsks, ih]

theorem asksOf_append (a b : List MicroOp) : asksOf (a ++ b) = asksOf a ++ asksOf b := by
  induction a with
  | nil => rfl
  | cons m a ih => cases m <;> simp [asksOf, ih]

theorem favours_append (e : Env) (a b : List Ask) :
    e.favours (a ++ b) = (e.favours a && (e.afterAsks a).favours b) := by
  induction a generalizing e with
  | nil => simp [Env.favours, Env.afterAsks]
  | cons k a ih => cases k <;> simp [Env.favours, Env.afterAsks, ih, Bool.and_assoc]

/-- The body of a bracket: it leaves the bus held and owes no delay. -/
structure IsBody (ops : List MicroOp) : Prop where
  held : ∀ rest, bracketed true (ops ++ rest) = bracketed true rest
  phase : opPhaseAfter .quiet ops = some .quiet

/-- A sequence of whole brackets: it leaves the bus free and owes no delay. -/
structure IsClean (ops : List MicroOp) : Prop where
  free : ∀ rest, bracketed false (ops ++ rest) = bracketed false rest
  phase : opPhaseAfter .quiet ops = some .quiet

theorem IsClean.bracketed {ops : List MicroOp} (h : IsClean ops) : bracketed false ops = true := by
  have := h.free []
  simpa [Machine.bracketed] using this

theorem isBody_nil : IsBody [] := ⟨fun _ => rfl, rfl⟩

theorem isClean_nil : IsClean [] := ⟨fun _ => rfl, rfl⟩

theorem isClean_persist : IsClean [.persist] := ⟨fun _ => by simp [bracketed], rfl⟩

theorem IsBody.append {a b : List MicroOp} (ha : IsBody a) (hb : IsBody b) : IsBody (a ++ b) :=
  ⟨fun rest => by rw [List.append_assoc, ha.held, hb.held],
   by rw [opPhaseAfter_append, ha.phase]; exact hb.phase⟩

theorem IsClean.append {a b : List MicroOp} (ha : IsClean a) (hb : IsClean b) : IsClean (a ++ b) :=
  ⟨fun rest => by rw [List.append_assoc, ha.free, hb.free],
   by rw [opPhaseAfter_append, ha.phase]; exact hb.phase⟩

theorem IsBody.flatMap {α : Type} (l : List α) (f : α → List MicroOp) (h : ∀ a, IsBody (f a)) :
    IsBody (l.flatMap f) := by
  induction l with
  | nil => exact isBody_nil
  | cons a l ih => exact (h a).append ih

theorem IsClean.flatMap {α : Type} (l : List α) (f : α → List MicroOp) (h : ∀ a, IsClean (f a)) :
    IsClean (l.flatMap f) := by
  induction l with
  | nil => exact isClean_nil
  | cons a l ih => exact (h a).append ih

theorem isBody_mbw (a : CoAddr) (b : Byte) : IsBody [.mbw a b] := ⟨fun _ => by simp [bracketed], rfl⟩

theorem isBody_mbr (a : CoAddr) : IsBody [.mbr a] := ⟨fun _ => by simp [bracketed], rfl⟩

theorem isBody_tpw (b : Byte) : IsBody [.tpw b] := ⟨fun _ => by simp [bracketed], rfl⟩

theorem isBody_fmw (p : Params) (part : Part) (r v : Byte) : IsBody (fmw p part r v) :=
  ⟨fun _ => by simp [fmw, bracketed], rfl⟩

theorem isClean_bracket {body : List MicroOp} (h : IsBody body) : IsClean (bracket body) := by
  refine ⟨fun rest => ?_, ?_⟩
  · simp only [bracket, List.append_assoc, List.cons_append, List.nil_append, bracketed, Bool.not_false,
      Bool.true_and]
    rw [h.held]
    simp [bracketed]
  · rw [bracket, opPhaseAfter_append, opPhaseAfter_append]
    simp only [Option.bind_assoc]
    have : opPhaseAfter .quiet [.acq] = some .quiet := rfl
    rw [this, Option.bind_some, h.phase]
    rfl

theorem isClean_pcmPlay (p : Params) : IsClean (pcmPlayOps p) := isClean_bracket (isBody_mbw _ _)

theorem isClean_pcmStop (p : Params) : IsClean (pcmStopOps p) :=
  isClean_bracket ((isBody_mbw _ _).append (isBody_mbw _ _))

theorem isClean_pcmRegion (p : Params) (s l : BitVec 16) : IsClean (pcmRegionOps p s l) :=
  isClean_bracket ((isBody_mbw _ _).append ((isBody_mbw _ _).append ((isBody_mbw _ _).append (isBody_mbw _ _))))

theorem isClean_pcmAccent (p : Params) (b : BitVec 1) : IsClean (pcmAccentOps p b) :=
  isClean_bracket (isBody_mbw _ _)

theorem isClean_pcmSpeed (p : Params) (v : Byte) : IsClean (pcmSpeedOps p v) := isClean_bracket (isBody_mbw _ _)

theorem isClean_pcmBank (p : Params) (a : BitVec 24) : IsClean (pcmBankOps p a) :=
  isClean_bracket ((isBody_mbw _ _).append ((isBody_mbw _ _).append (isBody_mbw _ _)))

theorem isClean_pcmMeter (p : Params) : IsClean (pcmMeterOps p) := isClean_bracket (isBody_mbr _)

theorem isClean_toneSet (c : BitVec 2) (d : BitVec 10) : IsClean (toneSetOps c d) :=
  isClean_bracket ((isBody_tpw _).append (isBody_tpw _))

theorem isClean_toneEnv (c : BitVec 2) (l : BitVec 4) : IsClean (toneEnvOps c l) := isClean_bracket (isBody_tpw _)

theorem isClean_toneNoise (t : BitVec 1) (f : BitVec 2) : IsClean (toneNoiseOps t f) :=
  isClean_bracket (isBody_tpw _)

theorem isClean_fmLfo (p : Params) (e : BitVec 1) (s : BitVec 3) : IsClean (fmLfoOps p e s) :=
  isClean_bracket (isBody_fmw _ _ _ _)

theorem isClean_operatorWrite (p : Params) (t : OpRegTable) (c : Fin 6) (o : BitVec 2) (v : Byte) :
    IsClean (operatorWriteOps p t c o v) := isClean_bracket (isBody_fmw _ _ _ _)

theorem isBody_channelWrite (p : Params) (b : Byte) (c : Fin 6) (v : Byte) : IsBody (channelWrite p b c v) :=
  isBody_fmw _ _ _ _

theorem isClean_fmFbalg (p : Params) (c : Fin 6) (f a : BitVec 3) : IsClean (fmFbalgOps p c f a) :=
  isClean_bracket (isBody_channelWrite _ _ _ _)

theorem isClean_fmPanamsfms (p : Params) (c : Fin 6) (n a : BitVec 2) (f : BitVec 3) :
    IsClean (fmPanamsfmsOps p c n a f) := isClean_bracket (isBody_channelWrite _ _ _ _)

theorem isClean_fmPitch (p : Params) (c : Fin 6) (b : BitVec 3) (f : BitVec 11) : IsClean (fmPitchOps p c b f) :=
  isClean_bracket ((isBody_channelWrite _ _ _ _).append (isBody_channelWrite _ _ _ _))

theorem isClean_fmKeyon (p : Params) (c : Fin 6) : IsClean (fmKeyonOps p c) := isClean_bracket (isBody_fmw _ _ _ _)

theorem isClean_fmKeyoff (p : Params) (c : Fin 6) : IsClean (fmKeyoffOps p c) :=
  isClean_bracket (isBody_fmw _ _ _ _)

theorem isClean_fmLatch (p : Params) : IsClean (fmLatchOps p) := by
  refine isClean_bracket (.flatMap _ _ fun e => ?_)
  cases e <;> exact ⟨fun _ => by simp [latchWrite, bracketed], rfl⟩

theorem isClean_forOperators (p : Params) (f : Fin 6 → BitVec 2 → List MicroOp) (h : ∀ c o, IsClean (f c o)) :
    IsClean (forOperators p f) := .flatMap _ _ fun c => .flatMap _ _ fun o => h c o

theorem isClean_forChannels (p : Params) (f : Fin 6 → List MicroOp) (h : ∀ c, IsClean (f c)) :
    IsClean (forChannels p f) := .flatMap _ _ h

theorem isClean_fmVoiceLoad (p : Params) (x : Instrument) : IsClean (fmVoiceLoadOps p x) := by
  have op (f : Fin 6 → BitVec 2 → List MicroOp) (h : ∀ c o, IsClean (f c o)) := isClean_forOperators p f h
  have ch (f : Fin 6 → List MicroOp) (h : ∀ c, IsClean (f c)) := isClean_forChannels p f h
  have w (t : OpRegTable) (c : Fin 6) (o : BitVec 2) (v : Byte) := isClean_operatorWrite p t c o v
  exact (((((((((isClean_fmLfo p _ _).append (op _ fun c o => w _ c o _)).append (op _ fun c o => w _ c o _)).append
    (op _ fun c o => w _ c o _)).append (op _ fun c o => w _ c o _)).append (op _ fun c o => w _ c o _)).append
    (ch _ fun c => isClean_fmFbalg p c _ _)).append (ch _ fun c => isClean_fmPanamsfms p c _ _ _)).append
    (isClean_fmLatch p))

theorem isClean_adapter (p : Params) (x : Instrument) (i : Instr) : IsClean (adapterOps p x i) := by
  have onCh (ch : BitVec 3) (f : Fin 6 → List MicroOp) (h : ∀ c, IsClean (f c)) :
      IsClean (((fmChannel? ch).map f).getD []) := by
    cases fmChannel? ch with
    | none => exact isClean_nil
    | some c => exact h c
  cases i with
  | pcmPlay => exact isClean_pcmPlay p
  | pcmStop => exact isClean_pcmStop p
  | pcmRegion s l => exact isClean_pcmRegion p s l
  | pcmAccent b => exact isClean_pcmAccent p b
  | pcmSpeed v => exact isClean_pcmSpeed p v
  | pcmBank a => exact isClean_pcmBank p a
  | pcmMeter => exact isClean_pcmMeter p
  | toneSet c d =>
    simp only [adapterOps]
    split
    · exact isClean_nil
    · exact isClean_toneSet c d
  | toneEnv c l => exact isClean_toneEnv c l
  | toneNoise t f => exact isClean_toneNoise t f
  | fmLfo e s => exact isClean_fmLfo p e s
  | fmDetmul ch o d m => exact onCh ch _ fun c => isClean_operatorWrite p _ c o _
  | fmLevel ch o l => exact onCh ch _ fun c => isClean_operatorWrite p _ c o _
  | fmAttack ch o a => exact onCh ch _ fun c => isClean_operatorWrite p _ c o _
  | fmRelsus ch o r s => exact onCh ch _ fun c => isClean_operatorWrite p _ c o _
  | fmDecam ch o d a => exact onCh ch _ fun c => isClean_operatorWrite p _ c o _
  | fmFbalg ch f a => exact onCh ch _ fun c => isClean_fmFbalg p c f a
  | fmPanamsfms ch n a f => exact onCh ch _ fun c => isClean_fmPanamsfms p c n a f
  | fmPitch ch b f => exact onCh ch _ fun c => isClean_fmPitch p c b f
  | fmKeyon ch => exact onCh ch _ fun c => isClean_fmKeyon p c
  | fmKeyoff ch => exact onCh ch _ fun c => isClean_fmKeyoff p c
  | fmLatch => exact isClean_fmLatch p
  | fmVoiceLoad => exact isClean_fmVoiceLoad p x
  | _ => exact isClean_nil

theorem isClean_onStop (p : Params) (x : Instrument) : IsClean (onStopOps p x) :=
  .flatMap _ _ fun i => isClean_adapter p x i

theorem isClean_stepDispatch (p : Params) (st : PatternStore) (k : BitVec 4) :
    IsClean (stepDispatchOps p st k) := by
  refine .append (.append ?_ ?_) ?_
  · rw [toneStepOps]
    split
    · exact isClean_toneEnv _ _
    · exact (isClean_toneSet _ _).append (isClean_toneEnv _ _)
  · rw [fmStepOps]
    split
    · exact (isClean_fmKeyoff _ _).append (isClean_fmLatch _)
    · split
      · exact isClean_nil
      · exact ((isClean_fmPitch _ _ _ _).append (isClean_fmKeyon _ _)).append (isClean_fmLatch _)
  · unfold pcmStepOps
    split
    · exact isClean_pcmStop _
    · exact ((((isClean_pcmStop _).append (isClean_pcmRegion _ _ _)).append (isClean_pcmAccent _ _)).append
        (isClean_pcmSpeed _ _)).append (isClean_pcmPlay _)

end Sys2Proof.Machine
end

