-- ==== Sys2Proof/Laws/Decode.lean ====
section
/-! SUPPORT. What the decoder reads from a word that the encoder wrote: a field reads what was placed at it, and nothing
of what was placed elsewhere. -/

namespace Sys2Proof

theorem bits_or (lo n : Nat) (a b : CmdWord) : bits lo n (a ||| b) = bits lo n a ||| bits lo n b := by
  simp [bits, BitVec.extractLsb'_or]

theorem getLsbD_place {n : Nat} (lo : Nat) (x : BitVec n) (i : Nat) :
    (place lo x).getLsbD i = (decide (i < 40) && decide (lo ≤ i) && x.getLsbD (i - lo)) := by
  simp only [place, BitVec.getLsbD_shiftLeft, BitVec.getLsbD_setWidth]
  by_cases h : i < 40
  · by_cases h2 : i < lo
    · simp [h2]
    · have : i - lo < 40 := by omega
      simp [h, h2, this, Nat.le_of_not_lt h2]
  · simp [h]

/-- A field reads what was placed at it. -/
theorem bits_place_same {n : Nat} (lo : Nat) (x : BitVec n) (h : lo + n ≤ 40) : bits lo n (place lo x) = x := by
  apply BitVec.eq_of_getLsbD_eq
  intro i hi
  rw [bits, BitVec.getLsbD_extractLsb', getLsbD_place]
  have h1 : lo + i < 40 := by omega
  simp [hi, h1]

/-- A field reads nothing of what was placed at other bits. -/
theorem bits_place_disjoint {n m : Nat} (lo lo' : Nat) (x : BitVec m) (h : lo' + m ≤ lo ∨ lo + n ≤ lo') :
    bits lo n (place lo' x) = 0 := by
  apply BitVec.eq_of_getLsbD_eq
  intro i hi
  rw [bits, BitVec.getLsbD_extractLsb', getLsbD_place]
  rcases h with h | h
  · have : x.getLsbD (lo + i - lo') = false := BitVec.getLsbD_of_ge _ _ (by omega)
    simp [this]
  · have : ¬ lo' ≤ lo + i := by omega
    simp [this]

theorem bits_and (lo n : Nat) (a b : CmdWord) : bits lo n (a &&& b) = bits lo n a &&& bits lo n b := by
  simp [bits, BitVec.extractLsb'_and]

/-- A field inside a mask reads alike from words that agree on the mask. -/
theorem bits_eq_of_and_eq {lo n : Nat} {w w' m : CmdWord} (hm : bits lo n m = BitVec.allOnes n)
    (h : w &&& m = w' &&& m) : bits lo n w = bits lo n w' := by
  have e := congrArg (bits lo n) h
  simpa [bits_and, hm] using e

/-- A value placed inside a mask has no bit outside it. -/
theorem place_and_not {lo n : Nat} (x : BitVec n) {m : CmdWord} (hm : bits lo n m = BitVec.allOnes n) :
    place lo x &&& ~~~m = 0 := by
  apply BitVec.eq_of_getLsbD_eq
  intro i hi
  rw [BitVec.getLsbD_and, getLsbD_place, BitVec.getLsbD_not]
  by_cases h1 : lo ≤ i
  · by_cases h2 : i - lo < n
    · have e := congrArg (fun v => v.getLsbD (i - lo)) hm
      have h3 : lo + (i - lo) = i := by omega
      simp only [bits, BitVec.getLsbD_extractLsb', h2, h3, BitVec.getLsbD_allOnes] at e
      simp_all
    · simp [BitVec.getLsbD_of_ge _ _ (Nat.le_of_not_lt h2)]
  · simp [h1]

/-- The opcode of an encoded command is the byte at the opcode's place. -/
theorem opcodeField_opWord (op : Byte) : opcodeField (opWord op) = op := bits_place_same 32 op (by decide)

theorem opcodeField_or (a b : CmdWord) : opcodeField (a ||| b) = opcodeField a ||| opcodeField b := bits_or 32 8 a b

theorem opcodeField_place {n : Nat} (lo : Nat) (x : BitVec n) (h : lo + n ≤ 32) : opcodeField (place lo x) = 0 :=
  bits_place_disjoint 32 lo x (.inl h)

theorem bits_opWord {lo n : Nat} (op : Byte) (h : lo + n ≤ 32) : bits lo n (opWord op) = 0 :=
  bits_place_disjoint lo 32 op (.inr h)

end Sys2Proof
end

