-- ==== Sys2Proof/Laws/Operands.lean ====
section
/-! SUPPORT. The small laws of the operand forms: clamps (R8), step arrays (R21), channels and slots. -/

namespace Sys2Proof.Machine

theorem clamp_bounds {v lo hi : Int} (h : lo ≤ hi) : lo ≤ clamp v lo hi ∧ clamp v lo hi ≤ hi := by
  unfold clamp; split <;> [skip; split] <;> omega

theorem clamp_of_mem {v lo hi : Int} (h1 : lo ≤ v) (h2 : v ≤ hi) : clamp v lo hi = v := by
  unfold clamp; split <;> [skip; split] <;> omega

/-- A value in range is stored exactly (R136). -/
theorem narrow_toNat {n : Nat} {v : Int} (h0 : 0 ≤ v) (h1 : v < 2 ^ n) : (narrow n v).toNat = v.toNat := by
  have e : v % ((2 ^ n : Nat) : Int) = v := Int.emod_eq_of_lt h0 (by push_cast; exact h1)
  rw [narrow, BitVec.toNat_ofInt, e]

/-- What an unsigned clamp stores (R230). -/
theorem clampTo_toNat {n : Nat} {v : Byte} {lo hi : Int} (h0 : 0 ≤ lo) (h : lo ≤ hi) (h1 : hi < 2 ^ n) :
    (clampTo n v lo hi).toNat = (clamp v.toNat lo hi).toNat := by
  have b := clamp_bounds (v := (v.toNat : Int)) h
  exact narrow_toNat (by omega) (by omega)

/-- What a signed clamp stores (R238). -/
theorem clampSigned_toInt {v : Byte} {lo hi : Int} (h0 : -128 ≤ lo) (h : lo ≤ hi) (h1 : hi ≤ 127) :
    (clampSigned v lo hi).toInt = clamp v.toInt lo hi := by
  have b := clamp_bounds (v := v.toInt) h
  rw [clampSigned, narrow, BitVec.toInt_ofInt]
  exact Int.bmod_eq_of_le (by omega) (by omega)

theorem stepGet_stepSet_same (v : Vector Byte 16) (k : BitVec 4) (x : Byte) : stepGet (stepSet v k x) k = x := by
  simp [stepGet, stepSet]

theorem stepGet_stepSet_other (v : Vector Byte 16) {k j : BitVec 4} (x : Byte) (h : j ≠ k) :
    stepGet (stepSet v k x) j = stepGet v j := by
  have : k.toNat ≠ j.toNat := fun e => h (BitVec.eq_of_toNat_eq e.symm)
  simp [stepGet, stepSet, this]

theorem stepGet_stepSet (v : Vector Byte 16) (k j : BitVec 4) (x : Byte) :
    stepGet (stepSet v k x) j = if j = k then x else stepGet v j := by
  split
  · next h => rw [h, stepGet_stepSet_same]
  · next h => rw [stepGet_stepSet_other v x h]

theorem fmChannel?_ok {ch : BitVec 3} (h : ch.toNat < 6) : fmChannel? ch = some ⟨ch.toNat, h⟩ := by
  simp [fmChannel?, h]

theorem fmChannel?_reserved {ch : BitVec 3} (h : 6 ≤ ch.toNat) : fmChannel? ch = none := by
  simp [fmChannel?]; omega

theorem levelSlot?_ok {idx : BitVec 5} (h : idx.toNat < 24) : levelSlot? idx = some ⟨idx.toNat, h⟩ := by
  simp [levelSlot?, h]

theorem levelSlot?_reserved {idx : BitVec 5} (h : 24 ≤ idx.toNat) : levelSlot? idx = none := by
  simp [levelSlot?]; omega

/-- Masking a register to its own width changes nothing (R185). -/
theorem instrMasked_eq (x : Instrument) : instrMasked x = x := by
  have m1 (a : BitVec 1) : a &&& 1 = a := by revert a; decide
  have m2 (a : BitVec 2) : a &&& 3 = a := by revert a; decide
  have m3 (a : BitVec 3) : a &&& 7 = a := by revert a; decide
  have m4 (a : BitVec 4) : a &&& 15 = a := by revert a; decide
  have m5 (a : BitVec 5) : a &&& 31 = a := by revert a; decide
  have m7 (a : BitVec 7) : a &&& 127 = a := by revert a; decide
  have ml : x.level.map (· &&& 127) = x.level := by
    apply Vector.ext
    intro i hi
    rw [Vector.getElem_map]
    exact m7 _
  simp only [instrMasked, m1, m2, m3, m4, m5, ml]

/-- A legal store is one whose every step is legal (R45). -/
theorem patternLegal_iff (p : Params) (st : PatternStore) :
    st.legal p = true ↔ ∀ k : BitVec 4, stepLegal p st k = true := by
  simp [PatternStore.legal]

/-- The five ranges of R22 to R26, at one step. -/
theorem stepLegal_iff (p : Params) (st : PatternStore) (k : BitVec 4) :
    stepLegal p st k = true ↔
      (stepGet st.gate k).toNat ≤ p.kitN ∧ (stepGet st.accent k).toNat ≤ 1 ∧ 1 ≤ (stepGet st.speed k).toNat
        ∧ (stepGet st.psgNote k).toNat ≤ p.psgNoteMax.toNat
        ∧ -1 ≤ (stepGet st.fmNote k).toInt ∧ (stepGet st.fmNote k).toInt ≤ p.fmNoteStoreMax := by
  simp [stepLegal, and_assoc]

/-- What a step's fields must meet for its dispatch to have a meaning. -/
theorem stepDispatchable_iff (p : Params) (st : PatternStore) (k : BitVec 4) :
    stepDispatchable p st k = true ↔
      (stepGet st.psgNote k).toNat ≤ p.psgNoteMax.toNat ∧ -1 ≤ (stepGet st.fmNote k).toInt
        ∧ (stepGet st.gate k).toNat ≤ p.kitN ∧ (stepGet st.gate k = 0 ∨ (stepGet st.accent k).toNat ≤ 1) := by
  simp [stepDispatchable, and_assoc]

/-- A legal step is dispatched (R45). -/
theorem stepDispatchable_of_legal {p : Params} {st : PatternStore} {k : BitVec 4} (h : stepLegal p st k = true) :
    stepDispatchable p st k = true := by
  rw [stepLegal_iff] at h
  rw [stepDispatchable_iff]
  exact ⟨h.2.2.2.1, h.2.2.2.2.1, h.1, .inr h.2.1⟩

end Sys2Proof.Machine
end

