-- ==== Sys2Proof/Laws/Exec.lean ====
section
/-! SUPPORT. What a command can do, said once for all 35 (the shape of `exec` and of `step`), for the proofs of
invariants: they cite it instead of unfolding the meanings. -/

namespace Sys2Proof.Machine

/-- The state updates a command makes before its micro-sequence: of the registers it may write, the store stays
legal, the tempo stays at least 1, and a halted machine's `playing` stays as it is; everything else is unchanged. -/
structure Expansion (s u : State) : Prop where
  params : u.params = s.params
  stepPosition : u.stepPosition = s.stepPosition
  frameCounter : u.frameCounter = s.frameCounter
  meter : u.meter = s.meter
  cmdErr : u.cmdErr = s.cmdErr
  halted : u.halted = s.halted
  faultCode : u.faultCode = s.faultCode
  busHeld : u.busHeld = s.busHeld
  uq : u.uq = s.uq
  after : u.after = s.after
  busRetry : u.busRetry = s.busRetry
  fmRetry : u.fmRetry = s.fmRetry
  trace : u.trace = s.trace
  port : u.port = s.port
  env : u.env = s.env
  pattern : s.params.legal = true → s.pattern.legal s.params = true → u.pattern.legal s.params = true
  tempo : 1 ≤ s.tempo.toNat → 1 ≤ u.tempo.toNat
  playing : s.halted = true → u.playing = s.playing

/-- A command that is executed: its updates `u`, its micro-sequence and its deferred updates. -/
structure Expands (s u : State) (ops : List MicroOp) (ds : List Deferred) : Prop where
  updates : Expansion s u
  clean : IsClean ops
  quiet : s.halted = true → s.playing = false → ops = [] ∨ ops = [.persist]
  deferred : ds = [] ∨ ds = [.tickFrame] ∨ s.playing = true ∧ ds = [.advanceStep, .tickFrame]

theorem Expansion.refl (s : State) : Expansion s s :=
  ⟨rfl, rfl, rfl, rfl, rfl, rfl, rfl, rfl, rfl, rfl, rfl, rfl, rfl, rfl, rfl, fun _ h => h, fun h => h, fun _ => rfl⟩

/-- An update of the Pattern Store that keeps it legal. -/
theorem Expansion.ofPattern {s : State} {st : PatternStore}
    (h : s.params.legal = true → s.pattern.legal s.params = true → st.legal s.params = true) :
    Expansion s { s with pattern := st } :=
  ⟨rfl, rfl, rfl, rfl, rfl, rfl, rfl, rfl, rfl, rfl, rfl, rfl, rfl, rfl, rfl, h, fun h => h, fun _ => rfl⟩

/-- The three things a command can come to. -/
def ExecShape (s : State) (o : Host.Outcome State Fault Refusal) : Prop :=
  (∃ f, o = .fault f) ∨ o = refuse s ∨ ∃ u ops ds, o = accept u ops ds ∧ Expands s u ops ds

theorem ExecShape.ofStore {s u : State} (h : Expansion s u) : ExecShape s (acceptStore u) :=
  .inr (.inr ⟨u, [.persist], [], rfl, h, isClean_persist, fun _ _ => .inr rfl, .inl rfl⟩)

theorem ExecShape.ofPure {s u : State} (h : Expansion s u) : ExecShape s (accept u [] []) :=
  .inr (.inr ⟨u, [], [], rfl, h, isClean_nil, fun _ _ => .inl rfl, .inl rfl⟩)

theorem ExecShape.ofAdapter {s : State} {ops : List MicroOp} (h : IsClean ops) : ExecShape s (acceptAdapter s ops) := by
  unfold acceptAdapter
  split
  · exact .inr (.inl rfl)
  · next hh => exact .inr (.inr ⟨s, ops, [], rfl, .refl s, h, fun e => absurd e hh, .inl rfl⟩)

theorem ExecShape.ofChannel {s : State} {ch : BitVec 3} {ops : Fin 6 → List MicroOp} (h : ∀ c, IsClean (ops c)) :
    ExecShape s (acceptChannel ch s ops) := by
  unfold acceptChannel
  split
  · exact .inr (.inl rfl)
  · next c _ => exact .ofAdapter (h c)

theorem kitN_le {p : Params} (h : p.legal = true) : p.kitN ≤ 255 := by
  simp only [Params.legal, Bool.and_eq_true, decide_eq_true_eq] at h; omega

theorem fmNoteStoreMax_le {p : Params} (h : p.legal = true) : 1 ≤ p.fmNoteStoreMax ∧ p.fmNoteStoreMax ≤ 127 := by
  simp only [Params.legal, Bool.and_eq_true, decide_eq_true_eq] at h; omega

/-- A store whose step arrays are replaced element-wise by legal values stays legal. -/
theorem patternLegal_of {p : Params} {st st' : PatternStore} (h : st.legal p = true)
    (hs : ∀ k, stepLegal p st k = true → stepLegal p st' k = true) : st'.legal p = true :=
  (patternLegal_iff p st').2 fun k => hs k ((patternLegal_iff p st).1 h k)

theorem execSetGate_shape (step : BitVec 4) (v : Byte) (s : State) : ExecShape s (execSetGate step v s) := by
  refine .ofStore (.ofPattern fun hp h => patternLegal_of h fun k hk => ?_)
  rw [stepLegal_iff] at hk ⊢
  refine ⟨?_, hk.2⟩
  rw [stepGet_stepSet]
  split
  · have hk := kitN_le hp
    have b := clamp_bounds (v := (v.toNat : Int)) (lo := 0) (hi := (s.params.kitN : Int)) (by omega)
    rw [clampTo_toNat (by omega) (by omega) (by omega)]
    omega
  · exact hk.1

theorem execSetAccent_shape (step : BitVec 4) (v : Byte) (s : State) : ExecShape s (execSetAccent step v s) := by
  refine .ofStore (.ofPattern fun _ h => patternLegal_of h fun k hk => ?_)
  rw [stepLegal_iff] at hk ⊢
  refine ⟨hk.1, ?_, hk.2.2⟩
  rw [stepGet_stepSet]
  split
  · split <;> decide
  · exact hk.2.1

theorem execSetSpeed_shape (step : BitVec 4) (v : Byte) (s : State) : ExecShape s (execSetSpeed step v s) := by
  refine .ofStore (.ofPattern fun _ h => patternLegal_of h fun k hk => ?_)
  rw [stepLegal_iff] at hk ⊢
  refine ⟨hk.1, hk.2.1, ?_, hk.2.2.2⟩
  rw [stepGet_stepSet]
  split
  · have b := clamp_bounds (v := (v.toNat : Int)) (lo := 1) (hi := 255) (by omega)
    rw [clampTo_toNat (by omega) (by omega) (by omega)]
    omega
  · exact hk.2.2.1

theorem execSetPsgnote_shape (step : BitVec 4) (v : Byte) (s : State) : ExecShape s (execSetPsgnote step v s) := by
  refine .ofStore (.ofPattern fun _ h => patternLegal_of h fun k hk => ?_)
  rw [stepLegal_iff] at hk ⊢
  refine ⟨hk.1, hk.2.1, hk.2.2.1, ?_, hk.2.2.2.2⟩
  rw [stepGet_stepSet]
  split
  · have := s.params.psgNoteMax.isLt
    have b := clamp_bounds (v := (v.toNat : Int)) (lo := 0) (hi := (s.params.psgNoteMax.toNat : Int)) (by omega)
    rw [clampTo_toNat (by omega) (by omega) (by omega)]
    omega
  · exact hk.2.2.2.1

theorem execSetFmnote_shape (step : BitVec 4) (v : Byte) (s : State) : ExecShape s (execSetFmnote step v s) := by
  refine .ofStore (.ofPattern fun hp h => patternLegal_of h fun k hk => ?_)
  rw [stepLegal_iff] at hk ⊢
  refine ⟨hk.1, hk.2.1, hk.2.2.1, hk.2.2.2.1, ?_⟩
  rw [stepGet_stepSet]
  split
  · have hm := fmNoteStoreMax_le hp
    rw [clampSigned_toInt (by omega) (by omega) (by omega)]
    exact clamp_bounds (by omega)
  · exact hk.2.2.2.2

theorem execSetTempo_shape (v : Byte) (s : State) : ExecShape s (execSetTempo v s) := by
  refine .ofStore ⟨rfl, rfl, rfl, rfl, rfl, rfl, rfl, rfl, rfl, rfl, rfl, rfl, rfl, rfl, rfl, fun _ h => h, fun _ => ?_,
    fun _ => rfl⟩
  have b := clamp_bounds (v := (v.toNat : Int)) (lo := 1) (hi := 255) (by omega)
  rw [clampTo_toNat (by omega) (by omega) (by omega)]
  omega

theorem execSetInstr_shape (field : BitVec 8) (idx : BitVec 5) (v : Byte) (s : State) :
    ExecShape s (execSetInstr field idx v s) := by
  unfold execSetInstr
  have w (x : Instrument) : Expansion s { s with instr := x } :=
    ⟨rfl, rfl, rfl, rfl, rfl, rfl, rfl, rfl, rfl, rfl, rfl, rfl, rfl, rfl, rfl, fun _ h => h, fun h => h, fun _ => rfl⟩
  split
  · exact .inr (.inl rfl)
  · split
    · exact .inr (.inl rfl)
    · exact .ofStore (w _)
  · exact .ofStore (w _)

theorem execMapDiv_shape (note : Byte) (s : State) : ExecShape s (execMapDiv note s) := by
  unfold execMapDiv
  split
  · exact .inr (.inl rfl)
  · exact .ofPure
      ⟨rfl, rfl, rfl, rfl, rfl, rfl, rfl, rfl, rfl, rfl, rfl, rfl, rfl, rfl, rfl, fun _ h => h, fun h => h, fun _ => rfl⟩

theorem execMapFnum_shape (note : BitVec 16) (s : State) : ExecShape s (execMapFnum note s) :=
  .ofPure
    ⟨rfl, rfl, rfl, rfl, rfl, rfl, rfl, rfl, rfl, rfl, rfl, rfl, rfl, rfl, rfl, fun _ h => h, fun h => h, fun _ => rfl⟩

theorem execFrameIn_shape (buttons : Byte) (s : State) : ExecShape s (execFrameIn buttons s) := by
  refine .inr (.inr ⟨_, _, _, rfl,
    ⟨rfl, rfl, rfl, rfl, rfl, rfl, rfl, rfl, rfl, rfl, rfl, rfl, rfl, rfl, rfl, fun _ h => h, fun h => h, ?_⟩, ?_, ?_,
    .inl rfl⟩)
  · intro h; simp [togglesPlaying, h]
  · split
    · exact isClean_onStop _ _
    · exact isClean_nil
  · intro _ hp; simp [hp]

theorem execFrameRun_shape (s : State) : ExecShape s (execFrameRun s) := by
  have tick : ExecShape s (accept s [] [.tickFrame]) :=
    .inr (.inr ⟨s, [], [.tickFrame], rfl, .refl s, isClean_nil, fun _ _ => .inl rfl, .inr (.inl rfl)⟩)
  unfold execFrameRun
  split
  · next hp =>
    split
    · exact .inl ⟨_, rfl⟩
    · split
      · split
        · exact .inr (.inr ⟨s, _, _, rfl, .refl s, isClean_stepDispatch _ _ _,
            fun _ h => absurd hp (by simp [h]), .inr (.inr ⟨hp, rfl⟩)⟩)
        · exact .inl ⟨_, rfl⟩
      · exact tick
  · exact tick

/-- Everything a command can do: a fault, the refusal of R106, or an acceptance whose updates, micro-sequence and
deferred updates are as `Expands` says. -/
theorem exec_shape (i : Instr) (s : State) : ExecShape s (exec i s) := by
  cases i with
  | nop => exact .ofPure (.refl s)
  | setTempo v => exact execSetTempo_shape v s
  | setGate k v => exact execSetGate_shape k v s
  | setAccent k v => exact execSetAccent_shape k v s
  | setSpeed k v => exact execSetSpeed_shape k v s
  | setPsgnote k v => exact execSetPsgnote_shape k v s
  | setFmnote k v => exact execSetFmnote_shape k v s
  | setInstr f x v => exact execSetInstr_shape f x v s
  | frameIn b => exact execFrameIn_shape b s
  | frameRun => exact execFrameRun_shape s
  | pcmPlay => exact .ofAdapter (isClean_pcmPlay _)
  | pcmStop => exact .ofAdapter (isClean_pcmStop _)
  | pcmRegion a b => exact .ofAdapter (isClean_pcmRegion _ _ _)
  | pcmAccent b => exact .ofAdapter (isClean_pcmAccent _ _)
  | pcmSpeed v => exact .ofAdapter (isClean_pcmSpeed _ _)
  | pcmBank a => exact .ofAdapter (isClean_pcmBank _ _)
  | pcmMeter => exact .ofAdapter (isClean_pcmMeter _)
  | toneSet c d =>
    simp only [exec, execToneSet]
    split
    · exact .inr (.inl rfl)
    · exact .ofAdapter (isClean_toneSet _ _)
  | toneEnv c l => exact .ofAdapter (isClean_toneEnv _ _)
  | toneNoise t f => exact .ofAdapter (isClean_toneNoise _ _)
  | fmLfo e x => exact .ofAdapter (isClean_fmLfo _ _ _)
  | fmDetmul c o d m => exact .ofChannel fun c => isClean_operatorWrite _ _ c o _
  | fmLevel c o l => exact .ofChannel fun c => isClean_operatorWrite _ _ c o _
  | fmAttack c o a => exact .ofChannel fun c => isClean_operatorWrite _ _ c o _
  | fmRelsus c o r x => exact .ofChannel fun c => isClean_operatorWrite _ _ c o _
  | fmDecam c o d a => exact .ofChannel fun c => isClean_operatorWrite _ _ c o _
  | fmFbalg c f a => exact .ofChannel fun c => isClean_fmFbalg _ c f a
  | fmPanamsfms c n a f => exact .ofChannel fun c => isClean_fmPanamsfms _ c n a f
  | fmPitch c b f => exact .ofChannel fun c => isClean_fmPitch _ c b f
  | fmKeyon c => exact .ofChannel fun c => isClean_fmKeyon _ c
  | fmKeyoff c => exact .ofChannel fun c => isClean_fmKeyoff _ c
  | fmLatch => exact .ofAdapter (isClean_fmLatch _)
  | fmVoiceLoad => exact .ofAdapter (isClean_fmVoiceLoad _ _)
  | mapDiv n => exact execMapDiv_shape n s
  | mapFnum n => exact execMapFnum_shape n s

/-- A well-formed adapter command is accepted with its micro-sequence. -/
theorem exec_adapter {i : Instr} (ha : i.isAdapter = true) (hw : i.wellFormed = true) (s : State) :
    exec i s = acceptAdapter s (adapterOps s.params s.instr i) := by
  have ch {c : BitVec 3} (h : fmChannelOk c = true) (ops : Fin 6 → List MicroOp) :
      acceptChannel c s ops = acceptAdapter s (((fmChannel? c).map ops).getD []) := by
    have h6 : c.toNat < 6 := by simpa [fmChannelOk] using h
    simp [acceptChannel, fmChannel?_ok h6]
  cases i <;> simp only [Instr.isAdapter, Bool.false_eq_true] at ha <;> simp only [Instr.wellFormed] at hw <;> first
    | rfl
    | exact ch hw _
    | skip
  have h3 := bne_iff_ne.1 hw
  simp only [exec, execToneSet, adapterOps, if_neg h3]

/-- A state between commands, after a clean micro-sequence whose holds were lifted at once, is between commands. -/
theorem performed_idle {s : State} {ops : List MicroOp} (h : s.idle = true) (hc : IsClean ops) :
    (performed ops s).idle = true := by
  obtain ⟨hu, ha, hb⟩ := (idle_iff s).1 h
  refine (idle_iff _).2 ⟨?_, ?_, performed_busHeld ops s (by rw [hb]; exact hc.bracketed)⟩
  · rw [performed_other]; exact hu
  · rw [performed_other]; exact ha

/-- Adapter commands executed one after another, every hold lifted at once, perform their micro-sequences in order. -/
theorem execAll_adapters (is : List Instr) (s : State) (hi : s.idle = true) (hh : s.halted = false)
    (hs : ∀ i ∈ is, i.isAdapter = true ∧ i.wellFormed = true)
    (hf : s.env.favours (asksOf (is.flatMap (adapterOps s.params s.instr))) = true) :
    execAll is s = .next (performed (is.flatMap (adapterOps s.params s.instr)) s) := by
  induction is generalizing s with
  | nil => rfl
  | cons i rest ih =>
    obtain ⟨hw, hr⟩ := List.forall_mem_cons.1 hs
    rw [List.flatMap_cons, asksOf_append, favours_append, Bool.and_eq_true] at hf
    rw [List.flatMap_cons, performed_append, execAll, exec_adapter hw.1 hw.2, acceptAdapter_favoured hi hh hf.1]
    have hp : (performed (adapterOps s.params s.instr i) s).params = s.params := by rw [performed_other]
    have hx : (performed (adapterOps s.params s.instr i) s).instr = s.instr := by rw [performed_other]
    have := ih (performed (adapterOps s.params s.instr i) s) (performed_idle hi (isClean_adapter _ _ _))
      (by rw [performed_other]; exact hh) hr (by rw [hp, hx, performed_env]; exact hf.2)
    rwa [hp, hx] at this

/-- Everything a step can do (R61, R120): go on with the command in execution, wait for a word, run the decoded
command, or refuse the word. -/
theorem step_cases (s : State) :
    (s.uq ≠ [] ∧ step s = resume s)
      ∨ (s.uq = [] ∧ s.port = [] ∧ step s = .next s)
      ∨ (∃ w rest i, s.uq = [] ∧ s.port = w :: rest ∧ decode w = .ok i ∧ step s = exec i { s with port := rest })
      ∨ (∃ w rest e, s.uq = [] ∧ s.port = w :: rest ∧ decode w = .error e
          ∧ step s = refuse { s with port := rest }) := by
  cases hu : s.uq with
  | cons m rest => exact .inl ⟨by simp, by simp [step, hu]⟩
  | nil =>
    cases hp : s.port with
    | nil => exact .inr (.inl ⟨rfl, rfl, by simp [step, hu, hp]⟩)
    | cons w rest =>
      cases hd : decode w with
      | ok i => exact .inr (.inr (.inl ⟨w, rest, i, rfl, rfl, hd, by simp [step, hu, hp, hd]⟩))
      | error e => exact .inr (.inr (.inr ⟨w, rest, e, rfl, rfl, hd, by simp [step, hu, hp, hd]⟩))

end Sys2Proof.Machine
end

