-- ==== Sys2Proof/Laws/PerInstr.lean ====
section
/-! SUPPORT. Per-instruction laws: the opcode byte of a command's word is the one of its row of R102's table. -/

namespace Sys2Proof.Laws

/-- The opcode byte of a command, from the command table (R102). -/
def tableOpcode : Instr → Byte
  | .nop => 0x00
  | .setTempo _ => 0x01
  | .setGate _ _ => 0x02
  | .setAccent _ _ => 0x03
  | .setSpeed _ _ => 0x04
  | .setPsgnote _ _ => 0x05
  | .setFmnote _ _ => 0x06
  | .setInstr _ _ _ => 0x07
  | .frameIn _ => 0x0E
  | .frameRun => 0x0F
  | .pcmPlay => 0x10
  | .pcmStop => 0x11
  | .pcmRegion _ _ => 0x12
  | .pcmAccent _ => 0x13
  | .pcmSpeed _ => 0x14
  | .pcmBank _ => 0x15
  | .pcmMeter => 0x16
  | .toneSet _ _ => 0x20
  | .toneEnv _ _ => 0x21
  | .toneNoise _ _ => 0x22
  | .fmLfo _ _ => 0x30
  | .fmDetmul _ _ _ _ => 0x31
  | .fmLevel _ _ _ => 0x32
  | .fmAttack _ _ _ => 0x33
  | .fmRelsus _ _ _ _ => 0x34
  | .fmDecam _ _ _ _ => 0x35
  | .fmFbalg _ _ _ => 0x36
  | .fmPanamsfms _ _ _ _ => 0x37
  | .fmPitch _ _ _ => 0x38
  | .fmKeyon _ => 0x39
  | .fmKeyoff _ => 0x3A
  | .fmLatch => 0x3B
  | .fmVoiceLoad => 0x3C
  | .mapDiv _ => 0x40
  | .mapFnum _ => 0x41

/-- The encoder writes the command's opcode byte into bits 39 to 32. -/
def EncodeOpcode.Statement (i : Instr) : Prop := opcodeField (encode i) = tableOpcode i

/-- A field below the opcode byte leaves it alone. -/
theorem opcodeField_field {a : CmdWord} {op : Byte} {n lo : Nat} {x : BitVec n} (ha : opcodeField a = op)
    (h : lo + n ≤ 32) : opcodeField (a ||| place lo x) = op := by
  rw [opcodeField_or, ha, opcodeField_place lo x h]
  exact BitVec.or_zero

theorem EncodeOpcode.nop : EncodeOpcode.Statement (.nop) :=
  opcodeField_opWord _

theorem EncodeOpcode.setTempo : ∀ a, EncodeOpcode.Statement (.setTempo a) := fun _ =>
  opcodeField_field (opcodeField_opWord _) (by decide)

theorem EncodeOpcode.setGate : ∀ a b, EncodeOpcode.Statement (.setGate a b) := fun _ _ =>
  opcodeField_field (opcodeField_field (opcodeField_opWord _) (by decide)) (by decide)

theorem EncodeOpcode.setAccent : ∀ a b, EncodeOpcode.Statement (.setAccent a b) := fun _ _ =>
  opcodeField_field (opcodeField_field (opcodeField_opWord _) (by decide)) (by decide)

theorem EncodeOpcode.setSpeed : ∀ a b, EncodeOpcode.Statement (.setSpeed a b) := fun _ _ =>
  opcodeField_field (opcodeField_field (opcodeField_opWord _) (by decide)) (by decide)

theorem EncodeOpcode.setPsgnote : ∀ a b, EncodeOpcode.Statement (.setPsgnote a b) := fun _ _ =>
  opcodeField_field (opcodeField_field (opcodeField_opWord _) (by decide)) (by decide)

theorem EncodeOpcode.setFmnote : ∀ a b, EncodeOpcode.Statement (.setFmnote a b) := fun _ _ =>
  opcodeField_field (opcodeField_field (opcodeField_opWord _) (by decide)) (by decide)

theorem EncodeOpcode.setInstr : ∀ a b c, EncodeOpcode.Statement (.setInstr a b c) := fun _ _ _ =>
  opcodeField_field (opcodeField_field (opcodeField_field (opcodeField_opWord _) (by decide)) (by decide)) (by decide)

theorem EncodeOpcode.frameIn : ∀ a, EncodeOpcode.Statement (.frameIn a) := fun _ =>
  opcodeField_field (opcodeField_opWord _) (by decide)

theorem EncodeOpcode.frameRun : EncodeOpcode.Statement (.frameRun) :=
  opcodeField_opWord _

theorem EncodeOpcode.pcmPlay : EncodeOpcode.Statement (.pcmPlay) :=
  opcodeField_opWord _

theorem EncodeOpcode.pcmStop : EncodeOpcode.Statement (.pcmStop) :=
  opcodeField_opWord _

theorem EncodeOpcode.pcmRegion : ∀ a b, EncodeOpcode.Statement (.pcmRegion a b) := fun _ _ =>
  opcodeField_field (opcodeField_field (opcodeField_opWord _) (by decide)) (by decide)

theorem EncodeOpcode.pcmAccent : ∀ a, EncodeOpcode.Statement (.pcmAccent a) := fun _ =>
  opcodeField_field (opcodeField_opWord _) (by decide)

theorem EncodeOpcode.pcmSpeed : ∀ a, EncodeOpcode.Statement (.pcmSpeed a) := fun _ =>
  opcodeField_field (opcodeField_opWord _) (by decide)

theorem EncodeOpcode.pcmBank : ∀ a, EncodeOpcode.Statement (.pcmBank a) := fun _ =>
  opcodeField_field (opcodeField_opWord _) (by decide)

theorem EncodeOpcode.pcmMeter : EncodeOpcode.Statement (.pcmMeter) :=
  opcodeField_opWord _

theorem EncodeOpcode.toneSet : ∀ a b, EncodeOpcode.Statement (.toneSet a b) := fun _ _ =>
  opcodeField_field (opcodeField_field (opcodeField_opWord _) (by decide)) (by decide)

theorem EncodeOpcode.toneEnv : ∀ a b, EncodeOpcode.Statement (.toneEnv a b) := fun _ _ =>
  opcodeField_field (opcodeField_field (opcodeField_opWord _) (by decide)) (by decide)

theorem EncodeOpcode.toneNoise : ∀ a b, EncodeOpcode.Statement (.toneNoise a b) := fun _ _ =>
  opcodeField_field (opcodeField_field (opcodeField_opWord _) (by decide)) (by decide)

theorem EncodeOpcode.fmLfo : ∀ a b, EncodeOpcode.Statement (.fmLfo a b) := fun _ _ =>
  opcodeField_field (opcodeField_field (opcodeField_opWord _) (by decide)) (by decide)

theorem EncodeOpcode.fmDetmul : ∀ a b c d, EncodeOpcode.Statement (.fmDetmul a b c d) := fun _ _ _ _ =>
  opcodeField_field (opcodeField_field
    (opcodeField_field (opcodeField_field (opcodeField_opWord _) (by decide)) (by decide)) (by decide)) (by decide)

theorem EncodeOpcode.fmLevel : ∀ a b c, EncodeOpcode.Statement (.fmLevel a b c) := fun _ _ _ =>
  opcodeField_field (opcodeField_field (opcodeField_field (opcodeField_opWord _) (by decide)) (by decide)) (by decide)

theorem EncodeOpcode.fmAttack : ∀ a b c, EncodeOpcode.Statement (.fmAttack a b c) := fun _ _ _ =>
  opcodeField_field (opcodeField_field (opcodeField_field (opcodeField_opWord _) (by decide)) (by decide)) (by decide)

theorem EncodeOpcode.fmRelsus : ∀ a b c d, EncodeOpcode.Statement (.fmRelsus a b c d) := fun _ _ _ _ =>
  opcodeField_field (opcodeField_field
    (opcodeField_field (opcodeField_field (opcodeField_opWord _) (by decide)) (by decide)) (by decide)) (by decide)

theorem EncodeOpcode.fmDecam : ∀ a b c d, EncodeOpcode.Statement (.fmDecam a b c d) := fun _ _ _ _ =>
  opcodeField_field (opcodeField_field
    (opcodeField_field (opcodeField_field (opcodeField_opWord _) (by decide)) (by decide)) (by decide)) (by decide)

theorem EncodeOpcode.fmFbalg : ∀ a b c, EncodeOpcode.Statement (.fmFbalg a b c) := fun _ _ _ =>
  opcodeField_field (opcodeField_field (opcodeField_field (opcodeField_opWord _) (by decide)) (by decide)) (by decide)

theorem EncodeOpcode.fmPanamsfms : ∀ a b c d, EncodeOpcode.Statement (.fmPanamsfms a b c d) := fun _ _ _ _ =>
  opcodeField_field (opcodeField_field
    (opcodeField_field (opcodeField_field (opcodeField_opWord _) (by decide)) (by decide)) (by decide)) (by decide)

theorem EncodeOpcode.fmPitch : ∀ a b c, EncodeOpcode.Statement (.fmPitch a b c) := fun _ _ _ =>
  opcodeField_field (opcodeField_field (opcodeField_field (opcodeField_opWord _) (by decide)) (by decide)) (by decide)

theorem EncodeOpcode.fmKeyon : ∀ a, EncodeOpcode.Statement (.fmKeyon a) := fun _ =>
  opcodeField_field (opcodeField_opWord _) (by decide)

theorem EncodeOpcode.fmKeyoff : ∀ a, EncodeOpcode.Statement (.fmKeyoff a) := fun _ =>
  opcodeField_field (opcodeField_opWord _) (by decide)

theorem EncodeOpcode.fmLatch : EncodeOpcode.Statement (.fmLatch) :=
  opcodeField_opWord _

theorem EncodeOpcode.fmVoiceLoad : EncodeOpcode.Statement (.fmVoiceLoad) :=
  opcodeField_opWord _

theorem EncodeOpcode.mapDiv : ∀ a, EncodeOpcode.Statement (.mapDiv a) := fun _ =>
  opcodeField_field (opcodeField_opWord _) (by decide)

theorem EncodeOpcode.mapFnum : ∀ a, EncodeOpcode.Statement (.mapFnum a) := fun _ =>
  opcodeField_field (opcodeField_opWord _) (by decide)

end Sys2Proof.Laws
end

