-- ==== Sys2Proof/Laws/Queue.lean ====
section
/-! SUPPORT. Everything the executor can do with a micro-sequence, said once: it completes, waits at a hold, or enters
a fault, and in each case what the execution registers and the trace then are. -/

namespace Sys2Proof.Machine

/-- The command completed: its deferred updates are made and nothing is left over. -/
structure Completed (s t : State) : Prop where
  uq : t.uq = s.uq
  after : t.after = []
  halted : t.halted = s.halted
  faultCode : t.faultCode = s.faultCode
  playing : t.playing = s.playing
  stepPosition : t.stepPosition = (finish s).stepPosition
  frameCounter : t.frameCounter = (finish s).frameCounter

/-- The command waits at the hold at the head of `uq`; its deferred updates are still to be made. -/
structure Waits (s t : State) : Prop where
  hold : startsWithHold t.uq = true
  after : t.after = s.after
  halted : t.halted = s.halted
  faultCode : t.faultCode = s.faultCode
  playing : t.playing = s.playing
  stepPosition : t.stepPosition = s.stepPosition
  frameCounter : t.frameCounter = s.frameCounter

/-- A hold's timeout was reached (R253, R254). -/
structure Faulted (s t : State) : Prop where
  timeouts : s.params.busTimeout ≠ none ∨ s.params.fmTimeout ≠ none
  uq : t.uq = []
  after : t.after = []
  busHeld : t.busHeld = false
  halted : t.halted = true
  playing : t.playing = false
  stepPosition : t.stepPosition = s.stepPosition
  frameCounter : t.frameCounter = if s.after.contains .tickFrame then s.frameCounter + 1 else s.frameCounter
  faultCode : s.halted = false → t.faultCode = 1 ∨ t.faultCode = 2
  firstCode : s.halted = true → t.faultCode = s.faultCode

theorem timedOut_ne_none {limit : Option Nat} {n : Nat} (h : timedOut limit n = true) : limit ≠ none := by
  rintro rfl; exact absurd h (by simp [timedOut])

/-- Entering a fault from a state whose deferred updates and counters are those of `s`. -/
theorem raiseFault_faulted (f : FaultCause) {s u : State} (ha : u.after = s.after)
    (hh : u.halted = s.halted) (hf : u.faultCode = s.faultCode) (hp : u.stepPosition = s.stepPosition) (hc : u.frameCounter = s.frameCounter)
    (ht : s.params.busTimeout ≠ none ∨ s.params.fmTimeout ≠ none) : Faulted s (raiseFault f u) := by
  rw [raiseFault_spec]
  refine ⟨ht, rfl, rfl, rfl, rfl, rfl, hp, by simp only [ha, hc], fun h0 => ?_, fun h0 => ?_⟩
  · simp only [hh, h0, Bool.false_eq_true, if_false]
    cases f <;> simp [faultCodeOf]
  · simp only [hh, h0, if_true, hf]

/-- The three results of the executor, with the bracket discipline of what is left (R86). -/
theorem runQueue_result (fresh : Bool) (ops : List MicroOp) (s : State) (hb : bracketed s.busHeld ops = true) :
    (Completed s (runQueue fresh ops s) ∧ (runQueue fresh ops s).busHeld = false)
      ∨ (Waits s (runQueue fresh ops s)
          ∧ bracketed (runQueue fresh ops s).busHeld (runQueue fresh ops s).uq = true)
      ∨ Faulted s (runQueue fresh ops s) := by
  induction ops generalizing fresh s with
  | nil =>
    obtain ⟨h1, _, h3, h4, h5, h6, h7, _⟩ := finish_other s
    left
    refine ⟨⟨h6, h7, h3, h4, h1, rfl, rfl⟩, ?_⟩
    simpa [h5, bracketed] using hb
  | cons m rest ih =>
    have fin (u : State) (h2 : u.after = s.after) (h6 : u.stepPosition = s.stepPosition)
        (h7 : u.frameCounter = s.frameCounter) :
        (finish u).stepPosition = (finish s).stepPosition ∧ (finish u).frameCounter = (finish s).frameCounter := by
      have key : ∀ (ds : List Deferred) (a b : State), a.stepPosition = b.stepPosition →
          a.frameCounter = b.frameCounter →
          (ds.foldl (fun t d => applyDeferred d t) a).stepPosition
              = (ds.foldl (fun t d => applyDeferred d t) b).stepPosition
            ∧ (ds.foldl (fun t d => applyDeferred d t) a).frameCounter
              = (ds.foldl (fun t d => applyDeferred d t) b).frameCounter := by
        intro ds
        induction ds with
        | nil => intro a b h h'; exact ⟨h, h'⟩
        | cons d ds ih => intro a b h h'; cases d <;> exact ih _ _ (by simp [applyDeferred, h]) (by simp [applyDeferred, h'])
      have := key s.after u s h6 h7
      simpa [finish, h2] using this
    have go (u : State) (hu : bracketed u.busHeld rest = true) (h1 : u.uq = s.uq) (h2 : u.after = s.after)
        (h3 : u.halted = s.halted) (h4 : u.faultCode = s.faultCode) (h5 : u.playing = s.playing)
        (h6 : u.stepPosition = s.stepPosition) (h7 : u.frameCounter = s.frameCounter) (h8 : u.params = s.params)
        (he : runQueue fresh (m :: rest) s = runQueue true rest u) :
        (Completed s (runQueue fresh (m :: rest) s) ∧ (runQueue fresh (m :: rest) s).busHeld = false)
          ∨ (Waits s (runQueue fresh (m :: rest) s)
              ∧ bracketed (runQueue fresh (m :: rest) s).busHeld (runQueue fresh (m :: rest) s).uq = true)
          ∨ Faulted s (runQueue fresh (m :: rest) s) := by
      rw [he]
      rcases ih true u hu with ⟨c, b⟩ | ⟨c, b⟩ | c
      · exact .inl ⟨⟨c.uq.trans h1, c.after, c.halted.trans h3, c.faultCode.trans h4, c.playing.trans h5,
          c.stepPosition.trans (fin u h2 h6 h7).1, c.frameCounter.trans (fin u h2 h6 h7).2⟩, b⟩
      · exact .inr (.inl ⟨⟨c.hold, c.after.trans h2, c.halted.trans h3, c.faultCode.trans h4, c.playing.trans h5,
          c.stepPosition.trans h6, c.frameCounter.trans h7⟩, b⟩)
      · exact .inr (.inr ⟨h8 ▸ c.timeouts, c.uq, c.after, c.busHeld, c.halted, c.playing, c.stepPosition.trans h6,
          by rw [c.frameCounter, h2, h7], fun h => c.faultCode (h3.trans h),
          fun h => (c.firstCode (h3.trans h)).trans h4⟩)
    cases m with
    | acq =>
      simp only [bracketed, Bool.and_eq_true, Bool.not_eq_true'] at hb
      cases hg : s.env.grant with
      | true =>
        refine go { s with busRetry := if fresh then 0 else s.busRetry, env := s.env.afterGrant, busHeld := true
                           trace := s.trace ++ [.acq] } hb.2 rfl rfl rfl rfl rfl rfl rfl rfl ?_
        rw [runQueue_cons, attempt, attemptAcq_granted fresh hg]
      | false =>
        rw [runQueue_cons, attempt, attemptAcq_denied fresh hg]
        cases ht : timedOut s.params.busTimeout ((if fresh then 0 else s.busRetry) + 1) with
        | true =>
          simp only [ht, if_true]
          exact .inr (.inr (raiseFault_faulted _ rfl rfl rfl rfl rfl (.inl (timedOut_ne_none ht))))
        | false =>
          simp only [ht, Bool.false_eq_true, if_false]
          exact .inr (.inl ⟨⟨rfl, rfl, rfl, rfl, rfl, rfl, rfl⟩, by simp [bracketed, hb]⟩)
    | fms =>
      simp only [bracketed, Bool.and_eq_true] at hb
      cases hg : s.env.busyAnswer with
      | false =>
        refine go { s with fmRetry := if fresh then 0 else s.fmRetry, env := s.env.afterBusy
                           trace := s.trace ++ [.fms false] } (by simpa [hb.1] using hb.2)
          rfl rfl rfl rfl rfl rfl rfl rfl ?_
        rw [runQueue_cons, attempt, attemptFms_ready fresh hg]
      | true =>
        rw [runQueue_cons, attempt, attemptFms_busy fresh hg]
        cases ht : timedOut s.params.fmTimeout ((if fresh then 0 else s.fmRetry) + 1) with
        | true =>
          simp only [ht, if_true]
          exact .inr (.inr (raiseFault_faulted _ rfl rfl rfl rfl rfl (.inr (timedOut_ne_none ht))))
        | false =>
          simp only [ht, Bool.false_eq_true, if_false]
          exact .inr (.inl ⟨⟨rfl, rfl, rfl, rfl, rfl, rfl, rfl⟩, by simp [bracketed, hb]⟩)
    | rel =>
      simp only [bracketed, Bool.and_eq_true] at hb
      exact go { s with busHeld := false, trace := s.trace ++ [.rel] } hb.2 rfl rfl rfl rfl rfl rfl rfl rfl rfl
    | mbr a =>
      simp only [bracketed, Bool.and_eq_true] at hb
      exact go { s with meter := some s.env.meterByte, env := s.env.afterMeter
                        trace := s.trace ++ [.mbr a s.env.meterByte] } (by simpa [hb.1] using hb.2)
        rfl rfl rfl rfl rfl rfl rfl rfl rfl
    | persist =>
      simp only [bracketed, Bool.and_eq_true, Bool.not_eq_true'] at hb
      exact go { s with trace := s.trace ++ [.persist] } (by simpa [hb.1] using hb.2)
        rfl rfl rfl rfl rfl rfl rfl rfl rfl
    | _ =>
      simp only [bracketed, Bool.and_eq_true] at hb
      exact go (record _ s) (by simpa [hb.1] using hb.2)
        rfl rfl rfl rfl rfl rfl rfl rfl rfl

/-- A fault register changes only where the executor enters a fault (R39, R254). -/
theorem runQueue_keepsOrEntersFault (fresh : Bool) (ops : List MicroOp) (s : State)
    (hb : bracketed s.busHeld ops = true) : KeepsOrEntersFault s (runQueue fresh ops s) := by
  rcases runQueue_result fresh ops s hb with ⟨c, _⟩ | ⟨c, _⟩ | c
  · exact .inl ⟨c.halted, c.faultCode⟩
  · exact .inl ⟨c.halted, c.faultCode⟩
  · cases h : s.halted with
    | true => exact .inl ⟨c.halted.trans h.symm, c.firstCode h⟩
    | false => exact .inr ⟨h, c.halted, c.faultCode h, c.playing, c.uq, c.busHeld⟩

/-- A micro-operation that is no meter read leaves `meter` and `uq` as they are, but for a fault, which empties `uq`. -/
theorem attempt_noMeterRead (fresh : Bool) {m : MicroOp} (s : State) (h : ∀ a, m ≠ .mbr a) :
    (attempt fresh m s).state.meter = s.meter
      ∧ ((attempt fresh m s).state.uq = s.uq ∨ (attempt fresh m s).state.uq = []) := by
  have stop (b : Bool) (f : FaultCause) (t : State) :
      (if b then Progress.faulted (raiseFault f t) else .waiting t).state.meter = t.meter
        ∧ ((if b then Progress.faulted (raiseFault f t) else .waiting t).state.uq = t.uq
          ∨ (if b then Progress.faulted (raiseFault f t) else .waiting t).state.uq = []) := by
    cases b
    · exact ⟨rfl, .inl rfl⟩
    · show (raiseFault f t).meter = _ ∧ ((raiseFault f t).uq = _ ∨ (raiseFault f t).uq = _)
      rw [raiseFault_spec]; exact ⟨rfl, .inr rfl⟩
  cases m with
  | mbr a => exact absurd rfl (h a)
  | acq =>
    rw [attempt]
    cases hg : s.env.grant with
    | true => rw [attemptAcq_granted fresh hg]; exact ⟨rfl, .inl rfl⟩
    | false => rw [attemptAcq_denied fresh hg]; exact stop _ _ _
  | fms =>
    rw [attempt]
    cases hg : s.env.busyAnswer with
    | false => rw [attemptFms_ready fresh hg]; exact ⟨rfl, .inl rfl⟩
    | true => rw [attemptFms_busy fresh hg]; exact stop _ _ _
  | _ => exact ⟨rfl, .inl rfl⟩

/-- A micro-sequence without a meter read leaves `meter` as it is, and leaves no meter read in `uq` (R37, R65). -/
theorem runQueue_noMeterRead (fresh : Bool) (ops : List MicroOp) (s : State) (h : ∀ a, MicroOp.mbr a ∉ ops)
    (hu : s.uq = []) :
    (runQueue fresh ops s).meter = s.meter ∧ ∀ a, MicroOp.mbr a ∉ (runQueue fresh ops s).uq := by
  induction ops generalizing fresh s with
  | nil =>
    rw [runQueue_nil]
    obtain ⟨_, h2, _, _, _, h6, _⟩ := finish_other s
    exact ⟨h2, by rw [h6, hu]; simp⟩
  | cons m rest ih =>
    have hm := attempt_noMeterRead fresh s (m := m) fun a e => h a (e ▸ List.mem_cons_self)
    have hr : ∀ a, MicroOp.mbr a ∉ rest := fun a ha => h a (List.mem_cons_of_mem _ ha)
    have hq : (attempt fresh m s).state.uq = [] := by rcases hm.2 with e | e <;> simp [e, hu]
    rw [runQueue_cons]
    cases k : attempt fresh m s with
    | done s' =>
      rw [k] at hm hq
      exact ⟨(ih true s' hr hq).1.trans hm.1, (ih true s' hr hq).2⟩
    | waiting s' => rw [k] at hm; exact ⟨hm.1, h⟩
    | faulted s' =>
      rw [k] at hm hq
      exact ⟨hm.1, by rw [show s'.uq = [] from hq]; simp⟩

/-- The trace protocol of a state in phase `ph` (R73, R86). -/
structure InProtocol (ph : PortPhase) (s : State) : Prop where
  held : heldAfter false s.trace = some s.busHeld
  phase : portPhaseAfter .quiet s.trace = some ph

/-- One event more. -/
theorem InProtocol.event {ph ph' : PortPhase} {s u : State} {e : Event} (h : InProtocol ph s)
    (ht : u.trace = s.trace ++ [e]) (hh : heldAfter s.busHeld [e] = some u.busHeld)
    (hp : portPhaseStep ph e = some ph') : InProtocol ph' u := by
  refine ⟨?_, ?_⟩
  · rw [ht, heldAfter_append, h.held]; exact hh
  · rw [ht, portPhaseAfter_append, h.phase]
    simp [portPhaseAfter, hp]

/-- The executor keeps the trace protocol, and what it leaves in `uq` keeps it when it goes on. -/
theorem runQueue_protocol (fresh : Bool) (ops : List MicroOp) (s : State) (ph : PortPhase) (hu : s.uq = [])
    (hb : bracketed s.busHeld ops = true) (hp : opPhaseAfter ph ops = some .quiet) (h : InProtocol ph s)
    (hq : s.busHeld = false → ph = .quiet) :
    InProtocol .quiet (runQueue fresh ops s)
      ∧ opPhaseAfter .quiet (runQueue fresh ops s).uq = some .quiet := by
  have fault (f : FaultCause) (u : State) (hi : InProtocol .quiet u) :
      InProtocol .quiet (raiseFault f u) ∧ opPhaseAfter .quiet (raiseFault f u).uq = some .quiet := by
    rw [raiseFault_spec]
    refine ⟨?_, rfl⟩
    cases hx : u.busHeld with
    | true =>
      exact hi.event (e := .rel) (by simp) (by simp [heldAfter, hx]) rfl
    | false => exact ⟨by simpa [hx] using hi.held, by simpa using hi.phase⟩
  induction ops generalizing fresh s ph with
  | nil =>
    have hq : ph = .quiet := by simpa [opPhaseAfter, portPhaseAfter] using hp
    subst hq
    obtain ⟨_, _, _, _, h5, h6, _, _, _, h10, _⟩ := finish_other s
    exact ⟨⟨by rw [runQueue_nil, h10, h5]; exact h.held, by rw [runQueue_nil, h10]; exact h.phase⟩,
      by rw [runQueue_nil, h6, hu]; rfl⟩
  | cons m rest ih =>
    have hp' : (portPhaseStep ph (eventOf m)).bind (fun ph' => opPhaseAfter ph' rest) = some .quiet := hp
    cases hs : portPhaseStep ph (eventOf m) with
    | none => rw [hs] at hp'; cases hp'
    | some ph' =>
      rw [hs] at hp'
      have go (u : State) (e : Event) (he : runQueue fresh (m :: rest) s = runQueue true rest u) (h1 : u.uq = [])
          (h2 : bracketed u.busHeld rest = true) (h3 : u.trace = s.trace ++ [e])
          (h4 : heldAfter s.busHeld [e] = some u.busHeld) (h5 : portPhaseStep ph e = portPhaseStep ph (eventOf m))
          (h6 : u.busHeld = false → ph' = .quiet) :
          InProtocol .quiet (runQueue fresh (m :: rest) s)
            ∧ opPhaseAfter .quiet (runQueue fresh (m :: rest) s).uq = some .quiet := by
        rw [he]; exact ih true u ph' h1 h2 hp' (h.event h3 h4 (h5.trans hs)) h6
      cases m with
      | acq =>
        simp only [bracketed, Bool.and_eq_true, Bool.not_eq_true'] at hb
        cases hg : s.env.grant with
        | true =>
          exact go { s with
            busRetry := if fresh then 0 else s.busRetry, env := s.env.afterGrant, busHeld := true
            trace := s.trace ++ [.acq] } .acq (by rw [runQueue_cons, attempt, attemptAcq_granted fresh hg]) hu hb.2 rfl
            (by simp [heldAfter, hb.1]) rfl (by simp)
        | false =>
          obtain rfl := hq hb.1
          rw [runQueue_cons, attempt, attemptAcq_denied fresh hg]
          cases ht : timedOut s.params.busTimeout ((if fresh then 0 else s.busRetry) + 1) with
          | true =>
            simp only [ht, if_true]
            exact fault _ { s with busRetry := _, env := _ } ⟨h.held, h.phase⟩
          | false =>
            simp only [ht, Bool.false_eq_true, if_false]
            exact ⟨⟨h.held, h.phase⟩, hp⟩
      | fms =>
        simp only [bracketed, Bool.and_eq_true] at hb
        cases hg : s.env.busyAnswer with
        | false =>
          exact go { s with
            fmRetry := if fresh then 0 else s.fmRetry, env := s.env.afterBusy
            trace := s.trace ++ [.fms false] } (.fms false) (by rw [runQueue_cons, attempt, attemptFms_ready fresh hg]) hu
            (by simpa [hb.1] using hb.2) rfl (by simp [heldAfter, hb.1]) rfl (by simp [hb.1])
        | true =>
          have hb' : portPhaseStep ph (.fms true) = some .quiet := by
            cases ph <;> first | rfl | cases hs
          have hw : opPhaseAfter .quiet (.fms :: rest) = some .quiet := by
            cases ph with
            | written => cases hs
            | quiet => exact hp
            | polled => exact hp
          rw [runQueue_cons, attempt, attemptFms_busy fresh hg]
          have hi (u : State) (h1 : u.trace = s.trace ++ [.fms true]) (h2 : u.busHeld = s.busHeld) :
              InProtocol .quiet u := h.event h1 (by simp [heldAfter, h2, hb.1]) hb'
          cases ht : timedOut s.params.fmTimeout ((if fresh then 0 else s.fmRetry) + 1) with
          | true =>
            simp only [ht, if_true]
            exact fault _ { s with fmRetry := _, env := _, trace := _ } (hi _ rfl rfl)
          | false =>
            simp only [ht, Bool.false_eq_true, if_false]
            exact ⟨hi _ rfl rfl, hw⟩
      | rel =>
        simp only [bracketed, Bool.and_eq_true] at hb
        refine go { s with busHeld := false, trace := s.trace ++ [.rel] } .rel rfl hu hb.2 rfl (by simp [heldAfter, hb.1]) rfl fun _ => ?_
        cases ph <;> simp [portPhaseStep, eventOf] at hs <;> exact hs.symm
      | persist =>
        simp only [bracketed, Bool.and_eq_true, Bool.not_eq_true'] at hb
        refine go (record .persist s) .persist rfl hu (by simpa [hb.1] using hb.2) rfl (by simp [heldAfter, hb.1]) rfl fun _ => ?_
        cases ph <;> simp [portPhaseStep, eventOf] at hs <;> exact hs.symm
      | mbr a =>
        simp only [bracketed, Bool.and_eq_true] at hb
        exact go { s with
          meter := some s.env.meterByte, env := s.env.afterMeter
          trace := s.trace ++ [.mbr a s.env.meterByte] } (.mbr a s.env.meterByte) rfl hu (by simpa [hb.1] using hb.2) rfl (by simp [heldAfter, hb.1])
          (by cases ph <;> rfl) (by simp [hb.1])
      | mbw a b =>
        simp only [bracketed, Bool.and_eq_true] at hb
        exact go (record (.mbw a b) s) (.mbw a b) rfl hu (by simpa [hb.1] using hb.2) rfl (by simp [heldAfter, hb.1]) rfl (by simp [hb.1])
      | tpw b =>
        simp only [bracketed, Bool.and_eq_true] at hb
        exact go (record (.tpw b) s) (.tpw b) rfl hu (by simpa [hb.1] using hb.2) rfl (by simp [heldAfter, hb.1]) rfl (by simp [hb.1])
      | fma p b =>
        simp only [bracketed, Bool.and_eq_true] at hb
        exact go (record (.fma p b) s) (.fma p b) rfl hu (by simpa [hb.1] using hb.2) rfl (by simp [heldAfter, hb.1]) rfl
          (by simp [hb.1])
      | fmd p b =>
        simp only [bracketed, Bool.and_eq_true] at hb
        exact go (record (.fmd p b) s) (.fmd p b) rfl hu (by simpa [hb.1] using hb.2) rfl (by simp [heldAfter, hb.1]) rfl
          (by simp [hb.1])
      | dly n =>
        simp only [bracketed, Bool.and_eq_true] at hb
        exact go (record (.dly n) s) (.dly n) rfl hu (by simpa [hb.1] using hb.2) rfl (by simp [heldAfter, hb.1]) rfl (by simp [hb.1])

end Sys2Proof.Machine
end

