-- ==== Sys2Proof/Laws/Run.lean ====
section
/-! SUPPORT. Running the core for some steps: one step more, by what the first step answers. -/

namespace Sys2Proof.Machine

theorem coreRun_next (M : Host.Core) (k : Nat) {s t : M.State} (h : M.step s = .next t) :
    M.run (k + 1) s = M.run k t := by
  simp only [Host.Core.run, h]

theorem coreRun_fault (M : Host.Core) (k : Nat) {s : M.State} {r : M.Fault} (h : M.step s = .fault r) :
    M.run (k + 1) s = .fault r := by
  simp only [Host.Core.run, h]

theorem coreRun_refused (M : Host.Core) (k : Nat) {s : M.State} {r : M.Refusal} (h : M.step s = .refused r) :
    M.run (k + 1) s = .refused r := by
  simp only [Host.Core.run, h]

/-- The run goes on from the state its first step answers. -/
theorem run_next {k : Nat} {s t : State} (h : step s = .next t) :
    Host.Core.run Sys2Proof.core (k + 1) s = Host.Core.run Sys2Proof.core k t :=
  coreRun_next Sys2Proof.core k h

/-- A run of one step is a step. -/
theorem run_one (s : State) : Host.Core.run Sys2Proof.core 1 s = step s := by
  cases h : step s with
  | next t => exact coreRun_next Sys2Proof.core 0 h
  | fault r => exact coreRun_fault Sys2Proof.core 0 h
  | refused r => exact coreRun_refused Sys2Proof.core 0 h

/-- A run that answers a next state goes on from it by one step more. -/
theorem run_succ {k : Nat} {s t : State} (h : Host.Core.run Sys2Proof.core k s = .next t) :
    Host.Core.run Sys2Proof.core (k + 1) s = step t := by
  induction k generalizing s with
  | zero => cases h; exact run_one t
  | succ k ih =>
    cases hs : step s with
    | next u => rw [run_next hs] at h ⊢; exact ih h
    | fault r => rw [coreRun_fault Sys2Proof.core k hs] at h; cases h
    | refused r => rw [coreRun_refused Sys2Proof.core k hs] at h; cases h

end Sys2Proof.Machine
end

