-- ==== Sys2Proof/Tests/Slice0.lean ====
section
/-! SUPPORT. Tests: the well-formedness smoke, the words of spec/95_test_vectors.md section 2.1 with their decodings,
one or two single steps per instruction (expected values from sections 1 and 2 of that file), facts about reset, and a
witness that the hypotheses of each statement can be met. -/

namespace Sys2Proof.Tests

open Sys2Proof.Machine

/-! ### Helpers -/

/-- An environment whose first answers are the given ones. -/
def answers (grants busy : List Bool) (meter : List Byte) : Env := { grants, busy, meter, asked := 0 }

/-- The oracle of the test vectors (R66 to R68), for long enough: granted, not busy; the meter reads 0xA7 (PC14). -/
def friendly : Env := answers (List.replicate 40 true) (List.replicate 80 false) [0xA7]

/-- The reset state in the environment of the test vectors. -/
def live : State := { State.reset with env := friendly }

/-- The reset state, PLAYING at tempo 1 (vectors TR3): the next FRAME_RUN dispatches step 0. -/
def rolling : State := { live with playing := true, tempo := 1 }

/-- The same with one step field each replaced at step 0. -/
def rollingWith (psg fm gate accent speed : Byte) : State :=
  { rolling with pattern :=
      { gate := stepSet rolling.pattern.gate 0 gate
        accent := stepSet rolling.pattern.accent 0 accent
        speed := stepSet rolling.pattern.speed 0 speed
        psgNote := stepSet rolling.pattern.psgNote 0 psg
        fmNote := stepSet rolling.pattern.fmNote 0 fm } }

/-- The outcome is a next state that meets `f`. -/
def gives (o : Host.Outcome State Fault Refusal) (f : State → Bool) : Bool :=
  match o with
  | .next t => f t
  | .fault _ => false
  | .refused _ => false

/-- One FM register write of the compact notation `W(p rr vv)`, at the reference delay. -/
def W (p : Part) (r v : Byte) : List Event := [.fms false, .fma p r, .dly 3, .fms false, .fmd p v, .dly 3]

/-- One FM bracket of register writes: `ACQ, W(...), ..., REL`. -/
def fmBracket (ws : List (Part × Byte × Byte)) : List Event :=
  .acq :: ws.flatMap (fun w => W w.1 w.2.1 w.2.2) ++ [.rel]

/-- The command appends exactly these events, changes `cmd_err` not, and completes. -/
def traces (i : Instr) (es : List Event) : Bool :=
  gives (exec i live) fun t => t.trace == es && !t.cmdErr && t.uq.isEmpty

/-! ### WellFormed refuses each ill-formed operand -/

theorem test_wellFormed_toneSet : (Instr.toneSet 3 100).wellFormed = false := by decide
theorem test_wellFormed_setInstr :
    (Instr.setInstr 15 0 0).wellFormed = false ∧ (Instr.setInstr 4 24 0).wellFormed = false
    ∧ (Instr.setInstr 5 1 0).wellFormed = false := by decide
theorem test_wellFormed_fm_operator :
    (Instr.fmDetmul 6 0 0 0).wellFormed = false ∧ (Instr.fmLevel 7 0 0).wellFormed = false
    ∧ (Instr.fmAttack 6 0 0).wellFormed = false ∧ (Instr.fmRelsus 7 0 0 0).wellFormed = false
    ∧ (Instr.fmDecam 6 0 0 0).wellFormed = false := by decide
theorem test_wellFormed_fm_channel :
    (Instr.fmFbalg 6 0 0).wellFormed = false ∧ (Instr.fmPanamsfms 7 0 0 0).wellFormed = false
    ∧ (Instr.fmPitch 6 0 0).wellFormed = false ∧ (Instr.fmKeyon 6).wellFormed = false
    ∧ (Instr.fmKeyoff 7).wellFormed = false := by decide

/-! ### Decoding: the words of vectors EN1, EN2 and EN3 -/

theorem test_decode_store :
    decode 0x0000000000 = .ok .nop ∧ decode 0x010000000B = .ok (.setTempo 11)
    ∧ decode 0x0200030009 = .ok (.setGate 3 9) ∧ decode 0x0300000001 = .ok (.setAccent 0 1)
    ∧ decode 0x04000F0040 = .ok (.setSpeed 15 64) ∧ decode 0x0500010048 = .ok (.setPsgnote 1 72)
    ∧ decode 0x06000200FF = .ok (.setFmnote 2 0xFF) ∧ decode 0x070004127F = .ok (.setInstr 4 18 127) := by decide
theorem test_decode_transport_and_mappers :
    decode 0x0E00000090 = .ok (.frameIn 144) ∧ decode 0x0F00000000 = .ok .frameRun
    ∧ decode 0x400000000D = .ok (.mapDiv 13) ∧ decode 0x4100000045 = .ok (.mapFnum 69) := by decide
theorem test_decode_pcm :
    decode 0x1000000000 = .ok .pcmPlay ∧ decode 0x1100000000 = .ok .pcmStop
    ∧ decode 0x1208000800 = .ok (.pcmRegion 2048 2048) ∧ decode 0x1300000001 = .ok (.pcmAccent 1)
    ∧ decode 0x1400000040 = .ok (.pcmSpeed 64) ∧ decode 0x1500018000 = .ok (.pcmBank 98304)
    ∧ decode 0x1600000000 = .ok .pcmMeter := by decide
theorem test_decode_tone :
    decode 0x20000001AB = .ok (.toneSet 0 427) ∧ decode 0x210003000F = .ok (.toneEnv 3 15)
    ∧ decode 0x2200000007 = .ok (.toneNoise 1 3) := by decide
theorem test_decode_fm_operator :
    decode 0x300000000D = .ok (.fmLfo 1 5) ∧ decode 0x3100010031 = .ok (.fmDetmul 0 1 3 1)
    ∧ decode 0x320402007F = .ok (.fmLevel 4 2 127) ∧ decode 0x330000001F = .ok (.fmAttack 0 0 31)
    ∧ decode 0x340203002F = .ok (.fmRelsus 2 3 15 2) ∧ decode 0x350300008A = .ok (.fmDecam 3 0 10 1) := by decide
theorem test_decode_fm_channel :
    decode 0x3601000034 = .ok (.fmFbalg 1 6 4) ∧ decode 0x37050000C0 = .ok (.fmPanamsfms 5 3 0 0)
    ∧ decode 0x380000243B = .ok (.fmPitch 0 4 1083) ∧ decode 0x3904000000 = .ok (.fmKeyon 4)
    ∧ decode 0x3A03000000 = .ok (.fmKeyoff 3) ∧ decode 0x3B00000000 = .ok .fmLatch
    ∧ decode 0x3C00000000 = .ok .fmVoiceLoad := by decide
theorem test_decode_unused_bits :
    decode 0x0FFFFFFFFF = .ok .frameRun ∧ decode 0x21FFFC03FF = .ok (.toneEnv 0 15)
    ∧ decode 0x02FFF3FF09 = .ok (.setGate 3 9) ∧ decode 0x39FCFFFFFF = .ok (.fmKeyon 4)
    ∧ decode 0x13000000FF = .ok (.pcmAccent 1) ∧ decode 0x07FF05FF1F = .ok (.setInstr 5 0 31) := by decide
theorem test_decode_refused :
    decode 0x0800000000 = .error (.reservedOpcode 0x08) ∧ decode 0x0D00000000 = .error (.reservedOpcode 0x0D)
    ∧ decode 0x1700000000 = .error (.reservedOpcode 0x17) ∧ decode 0x2300000000 = .error (.reservedOpcode 0x23)
    ∧ decode 0x3D00000000 = .error (.reservedOpcode 0x3D) ∧ decode 0x4200000000 = .error (.reservedOpcode 0x42)
    ∧ decode 0xFFFFFFFFFF = .error (.reservedOpcode 0xFF) ∧ decode 0x2000030064 = .error (.reservedChannel 3)
    ∧ decode 0x3906000000 = .error (.reservedChannel 6) ∧ decode 0x3207000000 = .error (.reservedChannel 7)
    ∧ decode 0x07000F0000 = .error (.reservedField 15) ∧ decode 0x0700041800 = .error (.reservedSlot 24) := by
  decide

/-! ### Single steps: the store commands (vectors ST1 to ST25) -/

theorem test_nop : gives (exec .nop live) (fun t => t == live) = true := by decide
theorem test_setTempo :
    gives (exec (.setTempo 0) live) (fun t => t.tempo == 1 && t.trace == [.persist]) = true
    ∧ gives (exec (.setTempo 255) live) (fun t => t.tempo == 255) = true := by decide
theorem test_setGate :
    gives (exec (.setGate 3 200) live) (fun t => stepGet t.pattern.gate 3 == 9 && stepGet t.pattern.gate 2 == 0)
      = true := by decide
theorem test_setAccent :
    gives (exec (.setAccent 0 7) live) (fun t => stepGet t.pattern.accent 0 == 1 && t.trace == [.persist]) = true := by
  decide
theorem test_setSpeed :
    gives (exec (.setSpeed 15 0) live) (fun t => stepGet t.pattern.speed 15 == 1) = true
    ∧ gives (exec (.setSpeed 4 255) live) (fun t => stepGet t.pattern.speed 4 == 255) = true := by decide
theorem test_setPsgnote :
    gives (exec (.setPsgnote 1 100) live) (fun t => stepGet t.pattern.psgNote 1 == 72) = true := by decide
theorem test_setFmnote :
    gives (exec (.setFmnote 2 0x80) live) (fun t => stepGet t.pattern.fmNote 2 == 0xFF) = true
    ∧ gives (exec (.setFmnote 2 0x7F) live) (fun t => stepGet t.pattern.fmNote 2 == 127) = true := by decide
theorem test_setInstr_level :
    gives (exec (.setInstr 4 18 127) live)
      (fun t => instrRead .level 18 t.instr == 127 && instrRead .level 17 t.instr == 0) = true
    ∧ gives (exec (.setInstr 4 23 255) live) (fun t => instrRead .level 23 t.instr == 127) = true := by decide
theorem test_setInstr_scalar :
    gives (exec (.setInstr 5 0 200) live) (fun t => t.instr.attack == 31) = true
    ∧ gives (exec (.setInstr 0 0 9) live) (fun t => t.instr.lfoEnable == 1) = true
    ∧ gives (exec (.setInstr 14 0 8) live) (fun t => t.instr.fms == 7) = true
    ∧ gives (exec (.setInstr 3 7 0) live) (fun t => t.instr.multiplier == 0) = true := by decide

/-! ### Single steps: mappers (MD1, MF1, EN3), PCM (PC1 to PC14), tone (TN1 to TN13) -/

theorem test_mapDiv :
    gives (exec (.mapDiv 13) live) (fun t => t.mapDiv == some 427) = true
    ∧ gives (exec (.mapDiv 72) live) (fun t => t.mapDiv == some 14) = true := by decide
theorem test_mapDiv_refused :
    gives (exec (.mapDiv 0) live) (fun t => t.cmdErr && t.mapDiv == none) = true
    ∧ gives (exec (.mapDiv 73) live) (fun t => t.cmdErr) = true := by decide
theorem test_mapFnum :
    gives (exec (.mapFnum 0x8000) live) (fun t => t.mapBlock == some 0 && t.mapFnum == some 644) = true
    ∧ gives (exec (.mapFnum 69) live) (fun t => t.mapBlock == some 4 && t.mapFnum == some 1083) = true := by decide
theorem test_mapFnum_above :
    gives (exec (.mapFnum 200) live) (fun t => t.mapBlock == some 7 && t.mapFnum == some 965) = true := by decide
theorem test_pcmPlay : traces .pcmPlay [.acq, .mbw 0x1FF0 1, .rel] = true := by decide
theorem test_pcmStop : traces .pcmStop [.acq, .mbw 0x1FF1 1, .mbw 0x1FF0 0, .rel] = true := by decide
theorem test_pcmRegion :
    traces (.pcmRegion 0x1234 0xABCD)
      [.acq, .mbw 0x1FF2 0x34, .mbw 0x1FF3 0x12, .mbw 0x1FF4 0xCD, .mbw 0x1FF5 0xAB, .rel] = true := by decide
theorem test_pcmAccent :
    traces (.pcmAccent 0) [.acq, .mbw 0x1FF6 0, .rel] = true
    ∧ traces (.pcmAccent 1) [.acq, .mbw 0x1FF6 1, .rel] = true := by decide
theorem test_pcmSpeed :
    traces (.pcmSpeed 0) [.acq, .mbw 0x1FF7 1, .rel] = true
    ∧ traces (.pcmSpeed 64) [.acq, .mbw 0x1FF7 64, .rel] = true := by decide
theorem test_pcmBank :
    traces (.pcmBank 0x18000) [.acq, .mbw 0x1FF8 0, .mbw 0x1FF9 0x80, .mbw 0x1FFA 1, .rel] = true := by decide
theorem test_pcmMeter :
    gives (exec .pcmMeter live) (fun t => t.meter == some 0xA7 && t.trace == [.acq, .mbr 0x1FFB 0xA7, .rel])
      = true := by decide
theorem test_toneSet :
    traces (.toneSet 2 0x3FF) [.acq, .tpw 0xCF, .tpw 0x3F, .rel] = true
    ∧ traces (.toneSet 0 16) [.acq, .tpw 0x80, .tpw 0x01, .rel] = true := by decide
theorem test_toneSet_refused : gives (exec (.toneSet 3 100) live) (fun t => t == { live with cmdErr := true }) = true := by
  decide
theorem test_toneEnv :
    traces (.toneEnv 3 15) [.acq, .tpw 0xFF, .rel] = true ∧ traces (.toneEnv 2 9) [.acq, .tpw 0xD9, .rel] = true := by
  decide
theorem test_toneNoise : traces (.toneNoise 1 3) [.acq, .tpw 0xE7, .rel] = true := by decide

/-! ### Single steps: FM (FM1 to FM31, FV1, FV2) -/

theorem test_fmLfo : traces (.fmLfo 1 5) (fmBracket [(.A, 0x22, 0x0D)]) = true := by decide
theorem test_fmDetmul : traces (.fmDetmul 5 3 7 15) (fmBracket [(.B, 0x3E, 0x7F)]) = true := by decide
theorem test_fmLevel : traces (.fmLevel 4 2 127) (fmBracket [(.B, 0x45, 0x7F)]) = true := by decide
theorem test_fmAttack : traces (.fmAttack 3 2 0) (fmBracket [(.B, 0x54, 0x00)]) = true := by decide
theorem test_fmRelsus : traces (.fmRelsus 2 3 15 2) (fmBracket [(.A, 0x8E, 0x2F)]) = true := by decide
theorem test_fmDecam : traces (.fmDecam 3 0 10 1) (fmBracket [(.B, 0x60, 0x8A)]) = true := by decide
theorem test_fmFbalg : traces (.fmFbalg 1 6 4) (fmBracket [(.A, 0xB1, 0x34)]) = true := by decide
theorem test_fmPanamsfms : traces (.fmPanamsfms 0 2 3 7) (fmBracket [(.A, 0xB4, 0xB7)]) = true := by decide
theorem test_fmPitch :
    traces (.fmPitch 5 7 2047) (fmBracket [(.B, 0xA6, 0x3F), (.B, 0xA2, 0xFF)]) = true := by decide
theorem test_fmKeyon :
    traces (.fmKeyon 2) (fmBracket [(.A, 0x28, 0xF2)]) = true
    ∧ traces (.fmKeyon 3) (fmBracket [(.A, 0x28, 0xF4)]) = true := by decide
theorem test_fmKeyoff : traces (.fmKeyoff 5) (fmBracket [(.A, 0x28, 0x06)]) = true := by decide
theorem test_fmLatch : traces .fmLatch [.acq, .fms false, .fma .A 0x2A, .dly 3, .rel] = true := by decide
/-- The counts of R184 and of vector FV1: 134 brackets, 1069 events. -/
theorem test_fmVoiceLoad_counts :
    (fmVoiceLoadOps Params.reference Instrument.reference).length = 1069
    ∧ ((fmVoiceLoadOps Params.reference Instrument.reference).filter (· == .acq)).length = 134 := by decide +kernel
/-- The write at position 44 of 133 of vector FV2: the level of channel 4, operator 2. -/
theorem test_fmVoiceLoad_level :
    fmVoiceLoadOps Params.reference (instrWrite .level 18 127 Instrument.reference) |>.contains (.fmd .B 0x7F) := by
  decide +kernel

/-! ### Single steps: transport (TR1 to TR3, S7), holds and faults (HF1 to HF6) -/

theorem test_frameIn_chord :
    gives (exec (.frameIn 0x90) live)
      (fun t => t.playing && t.chordLatch && t.prevButtons == 0x90 && t.press == 0x90 && t.trace.isEmpty) = true := by
  decide
theorem test_frameIn_held :
    gives (exec (.frameIn 0x91) { live with playing := true, chordLatch := true, prevButtons := 0x90 })
      (fun t => t.playing && t.chordLatch && t.press == 0x01) = true := by decide
theorem test_frameRun_gate :
    gives (exec .frameRun { live with playing := true, frameCounter := 10 })
      (fun t => t.frameCounter == 11 && t.stepPosition == 0 && t.trace.isEmpty) = true
    ∧ gives (exec .frameRun { rolling with stepPosition := 15 })
      (fun t => t.frameCounter == 2 && t.stepPosition == 0 && t.trace.length == 7) = true := by decide
/-- Row 12 of TR3. -/
def fullDispatch : List Event :=
  List.flatten
    [[.acq, .tpw 0x8B, .tpw 0x1A, .rel], [.acq, .tpw 0x90, .rel],
     fmBracket [(.A, 0xA4, 0x24), (.A, 0xA0, 0x3B)], fmBracket [(.A, 0x28, 0xF0)],
     [.acq, .fms false, .fma .A 0x2A, .dly 3, .rel], [.acq, .mbw 0x1FF1 1, .mbw 0x1FF0 0, .rel],
     [.acq, .mbw 0x1FF2 0, .mbw 0x1FF3 8, .mbw 0x1FF4 0, .mbw 0x1FF5 8, .rel], [.acq, .mbw 0x1FF6 1, .rel],
     [.acq, .mbw 0x1FF7 0x40, .rel], [.acq, .mbw 0x1FF0 1, .rel]]

theorem test_frameRun_dispatch :
    gives (exec .frameRun (rollingWith 13 69 2 1 64)) (fun t => t.trace == fullDispatch) = true := by
  decide
/-- HF1: denied attempts leave no event, and the command waits. -/
theorem test_hold_waits :
    gives (exec .pcmPlay { live with env := answers [false, false, true] [] [] })
      (fun t => t.trace.isEmpty && !t.halted && t.busRetry == 1 && t.uq.length == 3) = true := by decide
/-- HF5: the bus is released by fault entry. -/
theorem test_fault_fm :
    gives (exec (.fmKeyon 0)
        { live with params := { Params.reference with fmTimeout := some 1 }, env := answers [true] [true] [] })
      (fun t => t.trace == [.acq, .fms true, .rel] && t.halted && t.faultCode == 2 && !t.busHeld) = true := by decide
/-- HF6, all step fields 0: the tone bracket completes, the PCM_STOP bracket faults at its ACQ. -/
theorem test_fault_in_dispatch :
    gives (exec .frameRun
        { rolling with
          params := { Params.reference with busTimeout := some 1 }, env := answers [true, false] [] []
          pattern := { rolling.pattern with speed := Vector.replicate 16 0 }, stepPosition := 5, frameCounter := 7 })
      (fun t => t.trace == [.acq, .tpw 0x9F, .rel] && t.stepPosition == 5 && t.frameCounter == 8 && !t.playing
        && t.halted && t.faultCode == 1) = true := by decide

/-! ### Reset -/

theorem test_reset_legal : Params.reference.legal = true ∧ BootImage.reference.legal Params.reference = true := by
  decide
theorem test_reset_first_step :
    gives (step (State.reset.withFetchWord 40 0x010000000B)) (fun t => t.tempo == 11 && t.port.isEmpty) = true
    ∧ decodeTableWord 40 0x010000000B = some (.setTempo 11) := by decide

/-! ### Witnesses: the hypotheses of each statement can be met -/

/-- The word of a SET_INSTR has an operand byte at each place; every boundary of the encoding is well formed. -/
theorem witness_DecodeOfEncodeGivesTheCommand :
    (Instr.setInstr 4 23 0xFF).wellFormed = true ∧ (Instr.setInstr 14 0 0xFF).wellFormed = true
    ∧ (Instr.toneSet 2 0x3FF).wellFormed = true ∧ (Instr.fmPitch 5 7 2047).wellFormed = true := by decide
theorem witness_DecodedCommandsAreWellFormed : decode 0x070004177F = .ok (.setInstr 4 23 0x7F) := by decide
theorem witness_UnusedOperandBitsAreIgnored :
    opcodeField 0x3807003FFF = opcodeField 0x38FFFCFFFF
    ∧ 0x3807003FFF &&& usedBits (opcodeField 0x3807003FFF) = 0x38FFFCFFFF &&& usedBits (opcodeField 0x3807003FFF) := by
  decide
/-- Each reserved range at its two ends; the state accepts the word. -/
theorem witness_ReservedOpcodesAreRefused :
    (∀ op ∈ ([0x08, 0x0D, 0x17, 0x1F, 0x23, 0x2F, 0x3D, 0x3F, 0x42, 0xFF] : List Byte),
      decode (opWord op) = .error (.reservedOpcode op))
    ∧ (presentWord (opWord 0x08) State.reset).idle = true
    ∧ (presentWord (opWord 0x08) State.reset).port = opWord 0x08 :: [] := by decide
/-- Each row of R107 at its ends: the words, the operands, and a halted block for its last row. -/
theorem witness_ReservedFieldValuesAreRefused :
    ((0x2000030064 : CmdWord).extractLsb' 32 8 = 0x20#8 ∧ (0x2000030064 : CmdWord).extractLsb' 16 2 = 3#2)
    ∧ (0x31 ≤ ((0x3106000000 : CmdWord).extractLsb' 32 8).toNat ∧ 6 ≤ ((0x3106000000 : CmdWord).extractLsb' 24 3).toNat)
    ∧ (((0x3A07000000 : CmdWord).extractLsb' 32 8).toNat ≤ 0x3A ∧ 6 ≤ ((0x3A07000000 : CmdWord).extractLsb' 24 3).toNat)
    ∧ ((0x07000F0000 : CmdWord).extractLsb' 32 8 = 0x07#8 ∧ 15 ≤ ((0x07000F0000 : CmdWord).extractLsb' 16 8).toNat)
    ∧ ((0x0700041800 : CmdWord).extractLsb' 16 8 = 4#8 ∧ 24 ≤ ((0x0700041800 : CmdWord).extractLsb' 8 5).toNat)
    ∧ State.reset.idle = true ∧ 6 ≤ (6#3).toNat ∧ 15 ≤ (15#8).toNat ∧ 24 ≤ (24#5).toNat
    ∧ (0#8).toNat = 0 ∧ (73#8).toNat > State.reset.params.psgNoteMax.toNat
    ∧ (Instr.fmVoiceLoad).isAdapter = true
    ∧ ({ State.reset with halted := true, faultCode := 1 } : State).idle = true := by decide
theorem witness_RejectedWordSetsCmdErrAlone :
    (presentWord 0xFFFFFFFFFF State.reset).idle = true
    ∧ (presentWord 0xFFFFFFFFFF State.reset).port = 0xFFFFFFFFFF :: []
    ∧ decode 0xFFFFFFFFFF = .error (.reservedOpcode 0xFF) := by decide
theorem witness_StepRunsTheDecodedCommand :
    (presentWord 0x1100000000 State.reset).uq = [] ∧ (presentWord 0x1100000000 State.reset).port = 0x1100000000 :: []
    ∧ decode 0x1100000000 = .ok .pcmStop := by decide
theorem witness_StepWaitsForACommand : State.reset.uq = [] ∧ State.reset.port = [] := by decide
/-- For the store commands and the mappers: an idle state, and a word of each opcode with its operand at an end. -/
theorem witness_NopChangesNothing : State.reset.idle = true ∧ (0x00FFFFFFFF : CmdWord).extractLsb' 32 8 = 0x00#8 := by
  decide
theorem witness_SetTempoStoresTheClampedTempo :
    State.reset.idle = true ∧ (0x0100000000 : CmdWord).extractLsb' 32 8 = 0x01#8 ∧ (0#8).toNat = 0 := by decide
theorem witness_StepFieldSettersStoreTheClampedValue :
    State.reset.idle = true ∧ (0x02000F00FF : CmdWord).extractLsb' 32 8 = 0x02#8
    ∧ (0x0400000000 : CmdWord).extractLsb' 32 8 = 0x04#8 ∧ (0x0500000049 : CmdWord).extractLsb' 32 8 = 0x05#8 := by
  decide
theorem witness_SetAccentStoresABoolean :
    State.reset.idle = true ∧ (0x0300000002 : CmdWord).extractLsb' 32 8 = 0x03#8 := by decide
theorem witness_SetFmnoteStoresTheClampedSignedValue :
    State.reset.idle = true ∧ (0x06000F0080 : CmdWord).extractLsb' 32 8 = 0x06#8 ∧ (0x80#8).toInt < -1 := by decide
theorem witness_SetInstrStoresTheClampedValue :
    (0x07000E00FF : CmdWord).extractLsb' 32 8 = 0x07#8 ∧ ((0x07000E00FF : CmdWord).extractLsb' 16 8).toNat < 15
    ∧ (0x07000417FF : CmdWord).extractLsb' 16 8 = 4#8 ∧ ((0x07000417FF : CmdWord).extractLsb' 8 5).toNat < 24
    ∧ State.reset.idle = true
    ∧ [InstrField.lfoEnable, .lfoSpeed, .detune, .multiplier, .level, .attack, .release, .sustain, .decay,
        .amEnable, .feedback, .algorithm, .pan, .ams, .fms][(4#8).toNat]? = some .level
    ∧ (23#5).toNat < 24 ∧ 15 ≤ (15#8).toNat ∧ 24 ≤ (24#5).toNat := by decide
theorem witness_MapDivHalvesTheBaseDividerPerOctave :
    State.reset.idle = true ∧ (0x4000000000 : CmdWord).extractLsb' 32 8 = 0x40#8
    ∧ (73#8).toNat > State.reset.params.psgNoteMax.toNat
    ∧ 1 ≤ (1#8).toNat ∧ (72#8).toNat ≤ State.reset.params.psgNoteMax.toNat := by decide
theorem witness_ToneMapperIsNonIncreasingInOctave :
    1 ≤ (1#8).toNat ∧ (13#8).toNat = (1#8).toNat + 12 ∧ (72#8).toNat = (60#8).toNat + 12
    ∧ (72#8).toNat ≤ Params.reference.psgNoteMax.toNat := by decide
theorem witness_MapFnumGivesBlockAndFnum :
    State.reset.idle = true ∧ (0x4100008000 : CmdWord).extractLsb' 32 8 = 0x41#8 := by decide
theorem witness_FmPitchMapperIsMonotone :
    Params.reference.fmNoteMin ≤ 0 ∧ 0 ≤ 127 ∧ 127 ≤ Params.reference.fmNoteMax := by decide
/-- For the adapter commands: the state of the test vectors is ready for each list of questions. -/
theorem witness_PcmPlayAndStopWriteTheFlags :
    live.Ready [.bus] ∧ (0x1000000000 : CmdWord).extractLsb' 32 8 = 0x10#8
    ∧ (0x1100000000 : CmdWord).extractLsb' 32 8 = 0x11#8 := by unfold State.Ready; decide
theorem witness_PcmRegionWritesFourBytes :
    live.Ready [.bus] ∧ (0x12FFFF0000 : CmdWord).extractLsb' 32 8 = 0x12#8 := by unfold State.Ready; decide
theorem witness_PcmAccentAndSpeedWriteOneByte :
    live.Ready [.bus] ∧ (0x1300000001 : CmdWord).extractLsb' 32 8 = 0x13#8
    ∧ (0x1400000000 : CmdWord).extractLsb' 32 8 = 0x14#8 := by unfold State.Ready; decide
theorem witness_PcmBankWritesThreeBytes :
    live.Ready [.bus] ∧ (0x1500FFFFFF : CmdWord).extractLsb' 32 8 = 0x15#8 := by unfold State.Ready; decide
theorem witness_PcmMeterReadsTheLevelMeter :
    live.Ready [.bus, .meter] ∧ (0x1600000000 : CmdWord).extractLsb' 32 8 = 0x16#8 := by unfold State.Ready; decide
theorem witness_ToneSetWritesLatchThenData :
    (0x20000203FF : CmdWord).extractLsb' 32 8 = 0x20#8 ∧ (0x20000203FF : CmdWord).extractLsb' 16 2 ≠ 3#2
    ∧ live.idle = true ∧ (2#2).toNat ≤ 2 ∧ live.Ready [.bus] := by unfold State.Ready; decide
theorem witness_ToneEnvAndNoiseWriteOneByte :
    live.Ready [.bus] ∧ (0x210003000F : CmdWord).extractLsb' 32 8 = 0x21#8
    ∧ (0x2200000007 : CmdWord).extractLsb' 32 8 = 0x22#8 := by unfold State.Ready; decide
theorem witness_FmLfoWritesTheLfoRegister :
    live.Ready [.bus, .fm, .fm] ∧ (0x300000000F : CmdWord).extractLsb' 32 8 = 0x30#8 := by unfold State.Ready; decide
theorem witness_FmOperatorSettersWriteTheirRegister :
    (∀ op ∈ ([0x31, 0x32, 0x33, 0x34, 0x35] : List Byte),
      (opWord op ||| place 24 5#3).extractLsb' 32 8 = op ∧ ((opWord op ||| place 24 5#3).extractLsb' 24 3).toNat < 6)
    ∧ 5 < (6#3).toNat ∧ live.idle = true ∧ (5#3).toNat < 6 ∧ live.Ready [.bus, .fm, .fm] := by
  unfold State.Ready; decide
theorem witness_FmChannelSettersWriteTheirRegister :
    (∀ op ∈ ([0x36, 0x37] : List Byte),
      (opWord op ||| place 24 5#3).extractLsb' 32 8 = op ∧ ((opWord op ||| place 24 5#3).extractLsb' 24 3).toNat < 6)
    ∧ 5 < (6#3).toNat ∧ live.idle = true ∧ (5#3).toNat < 6 ∧ live.Ready [.bus, .fm, .fm] := by
  unfold State.Ready; decide
theorem witness_FmPitchWritesHighThenLow :
    ((0x3805003FFF : CmdWord).extractLsb' 32 8 = 0x38#8 ∧ ((0x3805003FFF : CmdWord).extractLsb' 24 3).toNat < 6)
    ∧ 5 < (6#3).toNat ∧ live.idle = true ∧ (5#3).toNat < 6 ∧ live.Ready [.bus, .fm, .fm, .fm, .fm] := by
  unfold State.Ready; decide
theorem witness_FmKeyCommandsWriteTheKeyRegister :
    (∀ op ∈ ([0x39, 0x3A] : List Byte),
      (opWord op ||| place 24 5#3).extractLsb' 32 8 = op ∧ ((opWord op ||| place 24 5#3).extractLsb' 24 3).toNat < 6)
    ∧ 5 < (6#3).toNat ∧ live.idle = true ∧ (5#3).toNat < 6 ∧ live.Ready [.bus, .fm, .fm] := by
  unfold State.Ready; decide
/-- With the reference sequence and with an empty one (R183). -/
theorem witness_FmLatchRunsTheLatchSequence :
    (0x3B00000000 : CmdWord).extractLsb' 32 8 = 0x3B#8
    ∧ live.Ready (.bus :: live.params.fmLatchSeq.map fun _ => .fm)
    ∧ ({ live with params := { Params.reference with fmLatchSeq := [] } } : State).Ready [.bus] := by
  unfold State.Ready; decide
/-- A voice list of one channel: 24 brackets. -/
def oneVoice : State := { live with params := { Params.reference with fmVoiceChannels := [5] } }
theorem witness_FmVoiceLoadReplaysTheInstrument :
    (0x3C00000000 : CmdWord).extractLsb' 32 8 = 0x3C#8
    ∧ oneVoice.Ready (asksOf (fmVoiceLoadOps oneVoice.params oneVoice.instr)) := by
  unfold State.Ready; decide +kernel
/-- A chord that stops the transport, with an action to take; and a frame that toggles nothing. -/
def stopping : State :=
  { live with playing := true, params := { Params.reference with onStopActions := [.pcmStop, .toneEnv 0 15] } }
theorem witness_FrameInEdgesChordAndToggle :
    (0x0E00000090 : CmdWord).extractLsb' 32 8 = 0x0E#8 ∧ live.idle = true ∧ stopping.idle = true
    ∧ (((0x90#8).getLsbD 7 && (0x90#8).getLsbD 4 && !stopping.chordLatch && !stopping.halted) && stopping.playing) = true
    ∧ stopping.params.onStopActions.all (fun i => i.isAdapter && i.wellFormed) = true
    ∧ stopping.env.favours (asksOf (onStopOps stopping.params stopping.instr)) = true := by decide
theorem witness_HeldChordTogglesOnce :
    ({ live with chordLatch := true } : State).idle = true
    ∧ (∀ b ∈ ([0x90, 0x91, 0xFF] : List Byte),
        b.getLsbD live.params.chordA.val = true ∧ b.getLsbD live.params.chordB.val = true)
    ∧ ((0x80#8).getLsbD live.params.chordA.val && (0x80#8).getLsbD live.params.chordB.val) = false := by decide
/-- Stopped in a frame that would be gated; playing in one that is not. -/
theorem witness_FrameRunWithoutDispatchCountsOnly :
    (0x0F00000000 : CmdWord).extractLsb' 32 8 = 0x0F#8
    ∧ (({ rolling with playing := false } : State).idle = true ∧ ({ rolling with playing := false } : State).playing = false)
    ∧ ({ live with playing := true, frameCounter := 10 } : State).idle = true
    ∧ 1 ≤ live.tempo.toNat ∧ 10 % live.tempo.toNat ≠ 0 := by decide
theorem witness_FrameRunDispatchesTheCurrentStep :
    (rollingWith 72 127 9 1 255).playing = true ∧ 1 ≤ (rollingWith 72 127 9 1 255).tempo.toNat
    ∧ (rollingWith 72 127 9 1 255).frameCounter % (rollingWith 72 127 9 1 255).tempo.toNat = 0
    ∧ stepDispatchable (rollingWith 72 127 9 1 255).params (rollingWith 72 127 9 1 255).pattern
        (rollingWith 72 127 9 1 255).stepPosition = true
    ∧ (rollingWith 72 127 9 1 255).Ready (asksOf (stepDispatchOps (rollingWith 72 127 9 1 255).params
        (rollingWith 72 127 9 1 255).pattern (rollingWith 72 127 9 1 255).stepPosition)) := by
  unfold State.Ready; decide +kernel
/-- The fault clause: a tempo of 0; a gated step whose accent is no bit. -/
theorem witness_FrameRunDispatchesTheCurrentStep_stop :
    PatternStore.reference.legal Params.reference = true
    ∧ ({ rolling with tempo := 0 } : State).tempo = 0
    ∧ (rollingWith 0 0 1 2 1).frameCounter % (rollingWith 0 0 1 2 1).tempo.toNat = 0
    ∧ stepDispatchable Params.reference (rollingWith 0 0 1 2 1).pattern (rollingWith 0 0 1 2 1).stepPosition = false := by
  decide
/-- R213's minimum dispatch: all five fields 0, the speed too. -/
def emptyStep : State := rollingWith 0 0 0 0 0
theorem witness_EveryDispatchSendsEnvelopeAndStop :
    emptyStep.playing = true ∧ 1 ≤ emptyStep.tempo.toNat ∧ emptyStep.frameCounter % emptyStep.tempo.toNat = 0
    ∧ stepDispatchable emptyStep.params emptyStep.pattern emptyStep.stepPosition = true
    ∧ emptyStep.Ready (asksOf (stepDispatchOps emptyStep.params emptyStep.pattern emptyStep.stepPosition))
    ∧ stepGet emptyStep.pattern.psgNote emptyStep.stepPosition = 0
    ∧ stepGet emptyStep.pattern.fmNote emptyStep.stepPosition = 0
    ∧ stepGet emptyStep.pattern.gate emptyStep.stepPosition = 0 := by unfold State.Ready; decide +kernel
theorem test_minimum_dispatch :
    gives (exec .frameRun emptyStep) (fun t =>
      t.trace == [.acq, .tpw 0x9F, .rel, .acq, .mbw 0x1FF1 1, .mbw 0x1FF0 0, .rel]) = true := by decide
/-- The ten frames of scenario S6. -/
theorem witness_UngatedFramesProduceNoEvent :
    ({ live with playing := true } : State).idle = true ∧ 1 ≤ live.tempo.toNat
    ∧ ∀ j, j < 10 → (live.frameCounter + j) % live.tempo.toNat ≠ 0 := by decide
/-- Two gated frames. -/
theorem witness_StepAdvancesOncePerGatedFrame :
    rolling.idle = true ∧ rolling.playing = true
    ∧ gives (execAll (List.replicate 2 .frameRun) rolling) (fun t => t.uq.isEmpty && !t.halted) = true := by decide
/-- The three clauses: granted; denied below the timeout, at its last value; denied at it. -/
theorem witness_AcquireWaitsUntilGranted :
    live.env.grant = true ∧ (answers [false] [] []).grant = false
    ∧ (∀ n, (some 2 : Option Nat) = some n → (if true then 0 else live.busRetry) + 1 < n)
    ∧ (∃ n, (some 1 : Option Nat) = some n ∧ n ≤ (if true then 0 else live.busRetry) + 1) := by
  exact ⟨by decide, by decide, fun n h => by cases h; decide, ⟨1, rfl, by decide⟩⟩
theorem witness_PollWaitsUntilNotBusy :
    live.env.busyAnswer = false ∧ (answers [] [true] []).busyAnswer = true
    ∧ (∀ n, (some 2 : Option Nat) = some n → (if true then 0 else live.fmRetry) + 1 < n)
    ∧ (∃ n, (some 1 : Option Nat) = some n ∧ n ≤ (if true then 0 else live.fmRetry) + 1) := by
  exact ⟨by decide, by decide, fun n h => by cases h; decide, ⟨1, rfl, by decide⟩⟩
/-- A denied bus, with a timeout of 2 and of 1. -/
def denied (limit : Option Nat) : State :=
  { live with params := { Params.reference with busTimeout := limit }, env := answers [false] [] [] }
/-- The same with the transport playing at tempo 1, and with an action to take when it stops. -/
def deniedTransport (limit : Option Nat) : State :=
  { denied limit with
    playing := true, tempo := 1
    params := { Params.reference with busTimeout := limit, onStopActions := [.pcmStop, .toneEnv 0 15] } }
theorem witness_AdapterCommandsWaitForTheBus :
    (Instr.fmPitch 5 7 2047).isAdapter = true ∧ (Instr.fmPitch 5 7 2047).wellFormed = true
    ∧ (denied (some 2)).idle = true ∧ (denied (some 2)).halted = false ∧ (denied (some 2)).env.grant = false
    ∧ (∀ n, (denied (some 2)).params.busTimeout = some n → 2 ≤ n) ∧ (denied (some 1)).params.busTimeout = some 1 := by
  exact ⟨by decide, by decide, by decide, by decide, by decide, fun n h => by cases h; decide, by decide⟩
/-- The clauses on FRAME_RUN and FRAME_IN, in one state with a timeout of 2; and the timeout of 1. -/
theorem witness_AdapterCommandsWaitForTheBus_transport :
    let s := deniedTransport (some 2)
    (s.idle = true ∧ s.halted = false ∧ s.env.grant = false ∧ (∀ n, s.params.busTimeout = some n → 2 ≤ n))
    ∧ (s.playing = true ∧ 1 ≤ s.tempo.toNat ∧ s.frameCounter % s.tempo.toNat = 0
      ∧ stepDispatchable s.params s.pattern s.stepPosition = true)
    ∧ (s.chordLatch = false ∧ (0x90#8).getLsbD s.params.chordA.val = true ∧ (0x90#8).getLsbD s.params.chordB.val = true
      ∧ s.params.onStopActions ≠ [] ∧ s.params.onStopActions.all (fun i => i.isAdapter && i.wellFormed) = true)
    ∧ (deniedTransport (some 1)).params.busTimeout = some 1 := by
  exact ⟨⟨by decide, by decide, by decide, fun n h => by cases h; decide⟩, by decide, by decide, by decide⟩
/-- PCM_PLAY waiting at its ACQ; two denials, then the grant (HF1). -/
def waiting : State :=
  { live with uq := .acq :: [.mbw 0x1FF0 1, .rel], busRetry := 1, env := answers [false, false, true] [] [] }
/-- The last bracket of a dispatch waiting at its ACQ, its updates still to come; a timeout of `limit`. -/
def waitingDispatch (limit : Option Nat) : State :=
  { waiting with
    playing := true, after := [.advanceStep, .tickFrame]
    params := { Params.reference with busTimeout := limit } }
/-- What follows the first poll of FM_KEYON 0 (HF2). -/
def keyonRest : List MicroOp := [.fma .A 0x28, .dly 3, .fms, .fmd .A 0xF0, .dly 3, .rel]
/-- FM_KEYON 0 waiting at its first FMS after one busy answer, under a timeout; one more, then ready (HF2). -/
def polling (limit : Option Nat) (busy : List Bool) : State :=
  { live with
    uq := .fms :: keyonRest, busHeld := true, fmRetry := 1, trace := [.acq, .fms true], env := answers [] busy []
    params := { Params.reference with fmTimeout := limit } }
/-- Both clauses; each timeout is the smallest that the denials, or the busy answers, do not reach. -/
theorem witness_WaitingCommandCompletesAfterTheGrant :
    (let s := waitingDispatch (some 4)
     s.uq = .acq :: [.mbw 0x1FF0 1, .rel] ∧ s.busHeld = false
      ∧ bracketed false (.acq :: [.mbw 0x1FF0 1, .rel]) = true
      ∧ (∀ n, s.params.busTimeout = some n → s.busRetry + 2 < n)
      ∧ s.env.grants = List.replicate 2 false ++ true :: []
      ∧ ({ s.env with grants := [], asked := s.env.asked + 2 + 1 } : Env).favours (asksOf [.mbw 0x1FF0 1, .rel]) = true)
    ∧ (let s := polling (some 3) [true, false, false]
       s.uq = .fms :: keyonRest ∧ s.busHeld = true ∧ bracketed true (.fms :: keyonRest) = true
        ∧ (∀ n, s.params.fmTimeout = some n → s.fmRetry + 1 < n)
        ∧ s.env.busy = List.replicate 1 true ++ false :: [false]
        ∧ ({ s.env with busy := [false], asked := s.env.asked + 1 + 1 } : Env).favours (asksOf keyonRest) = true) := by
  exact ⟨⟨by decide, by decide, by decide, fun n h => by cases h; decide, by decide, by decide⟩,
    by decide, by decide, by decide, fun n h => by cases h; decide, by decide, by decide⟩
/-- The accepting clauses, in one state; a dispatch that waits at an ACQ, a command that waits at an FMS, and two lists
of updates. -/
theorem witness_ExecutorRunsTheMicroSequence :
    (let s := deniedTransport (some 2)
     s.idle = true ∧ s.halted = false ∧ s.playing = true ∧ 1 ≤ s.tempo.toNat ∧ s.frameCounter % s.tempo.toNat = 0
      ∧ stepDispatchable s.params s.pattern s.stepPosition = true
      ∧ s.chordLatch = false ∧ (0x90#8).getLsbD s.params.chordA.val = true ∧ (0x90#8).getLsbD s.params.chordB.val = true)
    ∧ ((Instr.fmKeyon 0).isAdapter = true ∧ (Instr.fmKeyon 0).wellFormed = true)
    ∧ (Inv (waitingDispatch none) ∧ (waitingDispatch none).uq ≠ [])
    ∧ (Inv (polling (some 2) [true]) ∧ (polling (some 2) [true]).uq ≠ [])
    ∧ live.after = [] ∧ (waitingDispatch none).after = [.advanceStep, .tickFrame] := by
  unfold Machine.Inv; decide
/-- FM_KEYON 0 with the bus granted and the first poll busy, under FM_TIMEOUT 2: it waits at the poll (HF5). -/
theorem test_first_busy_answer_waits :
    gives (exec (.fmKeyon 0) { polling (some 2) [true] with uq := [], busHeld := false, trace := [], env := answers [true] [true] [] })
      (fun t => t.uq == .fms :: keyonRest && t.busHeld && t.fmRetry == 1 && t.trace == [.acq, .fms true]) = true := by decide
/-- The timeouts of 3 denials and of 2 busy answers, reached in two steps and in one (HF4, HF5). -/
theorem witness_WaitingHoldFaultsAtItsTimeout :
    (let s := waitingDispatch (some 3)
     s.uq = .acq :: [.mbw 0x1FF0 1, .rel] ∧ s.busHeld = false
      ∧ bracketed false (.acq :: [.mbw 0x1FF0 1, .rel]) = true
      ∧ s.params.busTimeout = some 3 ∧ s.busRetry + (1 + 1) = 3
      ∧ s.env.grants = List.replicate (1 + 1) false ++ [true])
    ∧ (let s := polling (some 2) [true]
       s.uq = .fms :: keyonRest ∧ s.busHeld = true ∧ bracketed true (.fms :: keyonRest) = true
        ∧ s.params.fmTimeout = some 2 ∧ s.fmRetry + (0 + 1) = 2
        ∧ s.env.busy = List.replicate (0 + 1) true ++ []) := by decide
/-- HF5's second poll: the fault, with the bus released. -/
theorem test_second_busy_answer_faults :
    gives (step (polling (some 2) [true])) (fun t =>
      t.halted && t.faultCode == 2 && !t.busHeld && t.trace == [.acq, .fms true, .fms true, .rel]) = true := by decide
theorem witness_FaultEntryHaltsAndReleasesTheBus :
    State.reset.after = [] ∧ ({ live with after := [.advanceStep, .tickFrame] } : State).after = [.advanceStep, .tickFrame]
    := by decide
theorem witness_FaultedDispatchKeepsTheStep :
    ({ denied (some 1) with playing := true, tempo := 1 } : State).idle = true ∧ (denied (some 1)).halted = false
    ∧ (denied (some 1)).frameCounter % 1 = 0
    ∧ stepDispatchable (denied (some 1)).params (denied (some 1)).pattern (denied (some 1)).stepPosition = true
    ∧ (denied (some 1)).params.busTimeout = some 1 ∧ (denied (some 1)).env.grant = false := by decide
/-- The bus is granted and the first poll reads busy, under FM_TIMEOUT = 1. -/
def busyChip : State :=
  { live with params := { Params.reference with fmTimeout := some 1 }, env := answers [true] [true] [] }
theorem witness_FmTimeoutReleasesTheBus :
    (∀ i ∈ ([.fmLatch, .fmVoiceLoad, .fmPitch 5 7 2047] : List Instr), i.isFm = true ∧ i.wellFormed = true)
    ∧ busyChip.params.fmLatchSeq ≠ [] ∧ busyChip.idle = true ∧ busyChip.halted = false ∧ busyChip.env.grant = true
    ∧ busyChip.env.afterGrant.busyAnswer = true ∧ busyChip.params.fmTimeout = some 1 := by decide
/-- The fault is reached: the rule's own codes and events (R252, R254). -/
theorem test_fm_latch_times_out :
    gives (exec .fmLatch busyChip) (fun t => t.halted && t.faultCode == 2 && !t.busHeld) = true := by decide
/-- The invariant holds at reset, and in a state that waits at a hold. -/
theorem witness_EveryStepKeepsTheInvariant : Inv State.reset ∧ Inv waiting := by unfold Machine.Inv; decide
theorem witness_InfiniteTimeoutsNeverHalt :
    Inv State.reset ∧ State.reset.params.busTimeout = none ∧ State.reset.params.fmTimeout = none
    ∧ State.reset.halted = false := by unfold Machine.Inv; decide
/-- A halted block at a SET_TEMPO (HF4). -/
def haltedBlock : State := { live with halted := true, faultCode := 1, port := [0x0100000014] }
theorem witness_HaltedBlockTouchesNoDevice :
    Inv haltedBlock ∧ haltedBlock.halted = true ∧ gives (step haltedBlock) (fun t => t.tempo == 20) = true := by
  unfold Machine.Inv; decide
theorem witness_ResetMeetsTheInvariants :
    Params.reference.legal = true ∧ BootImage.reference.legal Params.reference = true := by decide
theorem witness_EveryStepKeepsTheTraceProtocol :
    Inv waiting ∧ TraceInv waiting ∧ gives (step waiting) (fun t => t.busRetry == 2) = true := by
  unfold Machine.Inv TraceInv; decide
theorem witness_RegistersHaveTheirOnlyWriters :
    gives (step haltedBlock) (fun _ => true) = true ∧ gives (exec .pcmPlay live) (fun _ => true) = true
    ∧ waiting.uq ≠ [] ∧ gives (step waiting) (fun t => t.busRetry == 2) = true := by decide
/-- The clauses on a waiting FRAME_RUN: it goes on waiting, completes, faults. -/
theorem witness_RegistersHaveTheirOnlyWriters_waiting :
    gives (step (waitingDispatch none)) (fun t => !t.uq.isEmpty) = true
    ∧ gives (step { waitingDispatch none with env := answers [true] [] [] }) (fun t => t.uq.isEmpty && !t.halted) = true
    ∧ (waitingDispatch (some 2)).halted = false
    ∧ gives (step (waitingDispatch (some 2))) (fun t => t.halted) = true := by decide
/-- The clauses on the fault registers and `cmd_err` at their boundaries: a fault, and a refusal. -/
theorem test_fault_and_refusal_are_reached :
    gives (exec .pcmPlay (denied (some 1))) (fun t => t.halted && t.faultCode == 1) = true
    ∧ gives (exec (.toneSet 3 0) live) (fun t => t.cmdErr) = true := by decide
/-- The fault clause too: a tempo of 0, which no reachable state has. -/
theorem witness_FrameRunReadsOnlyTheSequencerState :
    gives (exec .frameRun rolling) (fun t => t.stepPosition == 1) = true
    ∧ (∃ r, exec .frameRun { rolling with tempo := 0 } = .fault r) := ⟨by decide, .storeIllegal, rfl⟩
theorem witness_ResetWritesEveryElement :
    Params.reference.legal = true ∧ 1 ≤ BootImage.reference.tempo.toNat
    ∧ ∀ k : BitVec 4, (stepGet BootImage.reference.pattern.gate k).toNat ≤ Params.reference.kit.length
      ∧ (stepGet BootImage.reference.pattern.accent k).toNat ≤ 1
      ∧ 1 ≤ (stepGet BootImage.reference.pattern.speed k).toNat
      ∧ (stepGet BootImage.reference.pattern.psgNote k).toNat ≤ Params.reference.psgNoteMax.toNat
      ∧ -1 ≤ (stepGet BootImage.reference.pattern.fmNote k).toInt
      ∧ (stepGet BootImage.reference.pattern.fmNote k).toInt ≤ Params.reference.fmNoteStoreMax := by decide
/-- With and without a value in a result register. -/
theorem witness_HostReadsEveryElement :
    State.reset.uq = [] ∧ State.reset.mapDiv = none ∧ State.reset.mapBlock = none ∧ State.reset.mapFnum = none
    ∧ State.reset.meter = none ∧ ({ State.reset with mapDiv := some 427 } : State).mapDiv = some 427
    ∧ ({ State.reset with mapBlock := some 4 } : State).mapBlock = some 4
    ∧ ({ State.reset with mapFnum := some 1083 } : State).mapFnum = some 1083
    ∧ ({ State.reset with meter := some 0xA7 } : State).meter = some 0xA7 := by decide
theorem witness_DevicesSeeBracketsAndRegisterWrites :
    heldAfter false [] = some false ∧ heldAfter false [.persist, .acq, .tpw 0x9F, .rel] = some false := by decide

end Sys2Proof.Tests
end

section
/-! Which command writes which architectural register (R11, R21, R27 to R34, R37 to R39, R241): every command's updates
are cut down to the registers it owns, its micro-sequence to the meter reads it may hold, and the steps of a waiting
command to its deferred updates. -/

namespace Sys2Proof.Machine

/-! ### Meter reads -/

/-- A micro-sequence that does not read the level meter (R65). -/
def NoMeterRead (ops : List MicroOp) : Prop := ∀ a, MicroOp.mbr a ∉ ops

theorem noMeterRead_nil : NoMeterRead [] := fun _ => List.not_mem_nil

theorem NoMeterRead.append {a b : List MicroOp} (ha : NoMeterRead a) (hb : NoMeterRead b) : NoMeterRead (a ++ b) :=
  fun c hc => (List.mem_append.1 hc).elim (ha c) (hb c)

theorem NoMeterRead.flatMap {α : Type} (l : List α) {f : α → List MicroOp} (h : ∀ a, NoMeterRead (f a)) :
    NoMeterRead (l.flatMap f) := fun c hc => by
  obtain ⟨a, _, ha⟩ := List.mem_flatMap.1 hc
  exact h a c ha

theorem NoMeterRead.bracket {body : List MicroOp} (h : NoMeterRead body) : NoMeterRead (bracket body) :=
  fun c hc => h c (by simpa [Machine.bracket] using hc)

theorem noMeterRead_fmw (p : Params) (part : Part) (r v : Byte) : NoMeterRead (fmw p part r v) := by
  simp [NoMeterRead, fmw]

theorem noMeterRead_pcmPlay (p : Params) : NoMeterRead (pcmPlayOps p) := by simp [NoMeterRead, pcmPlayOps, bracket]

theorem noMeterRead_pcmStop (p : Params) : NoMeterRead (pcmStopOps p) := by simp [NoMeterRead, pcmStopOps, bracket]

theorem noMeterRead_pcmRegion (p : Params) (s l : BitVec 16) : NoMeterRead (pcmRegionOps p s l) := by
  simp [NoMeterRead, pcmRegionOps, bracket]

theorem noMeterRead_pcmAccent (p : Params) (b : BitVec 1) : NoMeterRead (pcmAccentOps p b) := by
  simp [NoMeterRead, pcmAccentOps, bracket]

theorem noMeterRead_pcmSpeed (p : Params) (v : Byte) : NoMeterRead (pcmSpeedOps p v) := by
  simp [NoMeterRead, pcmSpeedOps, bracket]

theorem noMeterRead_pcmBank (p : Params) (a : BitVec 24) : NoMeterRead (pcmBankOps p a) := by
  simp [NoMeterRead, pcmBankOps, bracket]

theorem noMeterRead_toneSet (c : BitVec 2) (d : BitVec 10) : NoMeterRead (toneSetOps c d) := by
  simp [NoMeterRead, toneSetOps, bracket]

theorem noMeterRead_toneEnv (c : BitVec 2) (l : BitVec 4) : NoMeterRead (toneEnvOps c l) := by
  simp [NoMeterRead, toneEnvOps, bracket]

theorem noMeterRead_toneNoise (t : BitVec 1) (f : BitVec 2) : NoMeterRead (toneNoiseOps t f) := by
  simp [NoMeterRead, toneNoiseOps, bracket]

theorem noMeterRead_fmLfo (p : Params) (e : BitVec 1) (s : BitVec 3) : NoMeterRead (fmLfoOps p e s) :=
  .bracket (noMeterRead_fmw _ _ _ _)

theorem noMeterRead_operatorWrite (p : Params) (t : OpRegTable) (c : Fin 6) (o : BitVec 2) (v : Byte) :
    NoMeterRead (operatorWriteOps p t c o v) := .bracket (noMeterRead_fmw _ _ _ _)

theorem noMeterRead_fmFbalg (p : Params) (c : Fin 6) (f a : BitVec 3) : NoMeterRead (fmFbalgOps p c f a) :=
  .bracket (noMeterRead_fmw _ _ _ _)

theorem noMeterRead_fmPanamsfms (p : Params) (c : Fin 6) (n a : BitVec 2) (f : BitVec 3) :
    NoMeterRead (fmPanamsfmsOps p c n a f) := .bracket (noMeterRead_fmw _ _ _ _)

theorem noMeterRead_fmPitch (p : Params) (c : Fin 6) (b : BitVec 3) (f : BitVec 11) :
    NoMeterRead (fmPitchOps p c b f) := .bracket ((noMeterRead_fmw _ _ _ _).append (noMeterRead_fmw _ _ _ _))

theorem noMeterRead_fmKeyon (p : Params) (c : Fin 6) : NoMeterRead (fmKeyonOps p c) :=
  .bracket (noMeterRead_fmw _ _ _ _)

theorem noMeterRead_fmKeyoff (p : Params) (c : Fin 6) : NoMeterRead (fmKeyoffOps p c) :=
  .bracket (noMeterRead_fmw _ _ _ _)

theorem noMeterRead_fmLatch (p : Params) : NoMeterRead (fmLatchOps p) :=
  .bracket (.flatMap _ fun e => by cases e <;> simp [NoMeterRead, latchWrite])

theorem noMeterRead_fmVoiceLoad (p : Params) (x : Instrument) : NoMeterRead (fmVoiceLoadOps p x) := by
  have op {f : Fin 6 → BitVec 2 → List MicroOp} (h : ∀ c o, NoMeterRead (f c o)) : NoMeterRead (forOperators p f) :=
    .flatMap _ fun c => .flatMap _ (h c)
  have w (t : OpRegTable) (v : Fin 6 → BitVec 2 → Byte) :=
    op fun c o => noMeterRead_operatorWrite p t c o (v c o)
  exact ((((((((noMeterRead_fmLfo p _ _).append (w _ _)).append (w _ _)).append (w _ _)).append (w _ _)).append
    (w _ _)).append (.flatMap _ fun c => noMeterRead_fmFbalg p c _ _)).append
    (.flatMap _ fun c => noMeterRead_fmPanamsfms p c _ _ _)).append (noMeterRead_fmLatch p)

/-- Of the adapter commands PCM_METER alone reads the meter (R147). -/
theorem noMeterRead_adapter (p : Params) (x : Instrument) {i : Instr} (hi : i ≠ .pcmMeter) :
    NoMeterRead (adapterOps p x i) := by
  have onCh (ch : BitVec 3) {f : Fin 6 → List MicroOp} (h : ∀ c, NoMeterRead (f c)) :
      NoMeterRead (((fmChannel? ch).map f).getD []) := by
    cases fmChannel? ch with
    | none => exact noMeterRead_nil
    | some c => exact h c
  cases i with
  | pcmMeter => exact absurd rfl hi
  | pcmPlay => exact noMeterRead_pcmPlay p
  | pcmStop => exact noMeterRead_pcmStop p
  | pcmRegion s l => exact noMeterRead_pcmRegion p s l
  | pcmAccent b => exact noMeterRead_pcmAccent p b
  | pcmSpeed v => exact noMeterRead_pcmSpeed p v
  | pcmBank a => exact noMeterRead_pcmBank p a
  | toneSet c d =>
    simp only [adapterOps]
    split
    · exact noMeterRead_nil
    · exact noMeterRead_toneSet c d
  | toneEnv c l => exact noMeterRead_toneEnv c l
  | toneNoise t f => exact noMeterRead_toneNoise t f
  | fmLfo e s => exact noMeterRead_fmLfo p e s
  | fmDetmul ch o d m => exact onCh ch fun c => noMeterRead_operatorWrite p _ c o _
  | fmLevel ch o l => exact onCh ch fun c => noMeterRead_operatorWrite p _ c o _
  | fmAttack ch o a => exact onCh ch fun c => noMeterRead_operatorWrite p _ c o _
  | fmRelsus ch o r s => exact onCh ch fun c => noMeterRead_operatorWrite p _ c o _
  | fmDecam ch o d a => exact onCh ch fun c => noMeterRead_operatorWrite p _ c o _
  | fmFbalg ch f a => exact onCh ch fun c => noMeterRead_fmFbalg p c f a
  | fmPanamsfms ch n a f => exact onCh ch fun c => noMeterRead_fmPanamsfms p c n a f
  | fmPitch ch b f => exact onCh ch fun c => noMeterRead_fmPitch p c b f
  | fmKeyon ch => exact onCh ch fun c => noMeterRead_fmKeyon p c
  | fmKeyoff ch => exact onCh ch fun c => noMeterRead_fmKeyoff p c
  | fmLatch => exact noMeterRead_fmLatch p
  | fmVoiceLoad => exact noMeterRead_fmVoiceLoad p x
  | _ => exact noMeterRead_nil

/-- No dispatch reads the meter (R205 to R208). -/
theorem noMeterRead_stepDispatch (p : Params) (st : PatternStore) (k : BitVec 4) :
    NoMeterRead (stepDispatchOps p st k) := by
  refine .append (.append ?_ ?_) ?_
  · rw [toneStepOps]
    split
    · exact noMeterRead_toneEnv _ _
    · exact (noMeterRead_toneSet _ _).append (noMeterRead_toneEnv _ _)
  · rw [fmStepOps]
    split
    · exact (noMeterRead_fmKeyoff _ _).append (noMeterRead_fmLatch _)
    · split
      · exact noMeterRead_nil
      · exact ((noMeterRead_fmPitch _ _ _ _).append (noMeterRead_fmKeyon _ _)).append (noMeterRead_fmLatch _)
  · unfold pcmStepOps
    split
    · exact noMeterRead_pcmStop _
    · exact ((((noMeterRead_pcmStop _).append (noMeterRead_pcmRegion _ _ _)).append
        (noMeterRead_pcmAccent _ _)).append (noMeterRead_pcmSpeed _ _)).append (noMeterRead_pcmPlay _)

/-! ### The registers a command writes before its micro-sequence -/

/-- `s` with the values that `u` holds in the registers command `i` owns (R21, R29 to R34, R37): SET commands own their
element's array, FRAME_IN the button registers and `playing`, the mappers their results. -/
def ownWrites (i : Instr) (u s : State) : State :=
  match i with
  | .setTempo _ => { s with tempo := u.tempo }
  | .setGate _ _ => { s with pattern := { s.pattern with gate := u.pattern.gate } }
  | .setAccent _ _ => { s with pattern := { s.pattern with accent := u.pattern.accent } }
  | .setSpeed _ _ => { s with pattern := { s.pattern with speed := u.pattern.speed } }
  | .setPsgnote _ _ => { s with pattern := { s.pattern with psgNote := u.pattern.psgNote } }
  | .setFmnote _ _ => { s with pattern := { s.pattern with fmNote := u.pattern.fmNote } }
  | .setInstr _ _ _ => { s with instr := u.instr }
  | .frameIn _ =>
    { s with press := u.press, prevButtons := u.prevButtons, chordLatch := u.chordLatch, playing := u.playing }
  | .mapDiv _ => { s with mapDiv := u.mapDiv }
  | .mapFnum _ => { s with mapBlock := u.mapBlock, mapFnum := u.mapFnum }
  | _ => s

section
variable (i : Instr) (u s : State)

theorem ownWrites_self : ownWrites i s s = s := by unfold ownWrites; split <;> rfl

@[simp] theorem ownWrites_params : (ownWrites i u s).params = s.params := by unfold ownWrites; split <;> rfl
@[simp] theorem ownWrites_stepPosition : (ownWrites i u s).stepPosition = s.stepPosition := by
  unfold ownWrites; split <;> rfl
@[simp] theorem ownWrites_frameCounter : (ownWrites i u s).frameCounter = s.frameCounter := by
  unfold ownWrites; split <;> rfl
@[simp] theorem ownWrites_meter : (ownWrites i u s).meter = s.meter := by unfold ownWrites; split <;> rfl
@[simp] theorem ownWrites_cmdErr : (ownWrites i u s).cmdErr = s.cmdErr := by unfold ownWrites; split <;> rfl
@[simp] theorem ownWrites_halted : (ownWrites i u s).halted = s.halted := by unfold ownWrites; split <;> rfl
@[simp] theorem ownWrites_faultCode : (ownWrites i u s).faultCode = s.faultCode := by unfold ownWrites; split <;> rfl
@[simp] theorem ownWrites_busHeld : (ownWrites i u s).busHeld = s.busHeld := by unfold ownWrites; split <;> rfl
@[simp] theorem ownWrites_uq : (ownWrites i u s).uq = s.uq := by unfold ownWrites; split <;> rfl
@[simp] theorem ownWrites_idle : (ownWrites i u s).idle = s.idle := by unfold ownWrites; split <;> rfl

variable {i}

theorem ownWrites_tempo (h : ∀ v, i ≠ .setTempo v) : (ownWrites i u s).tempo = s.tempo := by
  cases i with
  | setTempo v => exact absurd rfl (h v)
  | _ => rfl

theorem ownWrites_gate (h : ∀ k v, i ≠ .setGate k v) : (ownWrites i u s).pattern.gate = s.pattern.gate := by
  cases i with
  | setGate k v => exact absurd rfl (h k v)
  | _ => rfl

theorem ownWrites_accent (h : ∀ k v, i ≠ .setAccent k v) : (ownWrites i u s).pattern.accent = s.pattern.accent := by
  cases i with
  | setAccent k v => exact absurd rfl (h k v)
  | _ => rfl

theorem ownWrites_speed (h : ∀ k v, i ≠ .setSpeed k v) : (ownWrites i u s).pattern.speed = s.pattern.speed := by
  cases i with
  | setSpeed k v => exact absurd rfl (h k v)
  | _ => rfl

theorem ownWrites_psgNote (h : ∀ k v, i ≠ .setPsgnote k v) :
    (ownWrites i u s).pattern.psgNote = s.pattern.psgNote := by
  cases i with
  | setPsgnote k v => exact absurd rfl (h k v)
  | _ => rfl

theorem ownWrites_fmNote (h : ∀ k v, i ≠ .setFmnote k v) : (ownWrites i u s).pattern.fmNote = s.pattern.fmNote := by
  cases i with
  | setFmnote k v => exact absurd rfl (h k v)
  | _ => rfl

theorem ownWrites_instr (h : ∀ f x v, i ≠ .setInstr f x v) : (ownWrites i u s).instr = s.instr := by
  cases i with
  | setInstr f x v => exact absurd rfl (h f x v)
  | _ => rfl

theorem ownWrites_mapDiv (h : ∀ n, i ≠ .mapDiv n) : (ownWrites i u s).mapDiv = s.mapDiv := by
  cases i with
  | mapDiv n => exact absurd rfl (h n)
  | _ => rfl

theorem ownWrites_mapFnum (h : ∀ n, i ≠ .mapFnum n) :
    (ownWrites i u s).mapBlock = s.mapBlock ∧ (ownWrites i u s).mapFnum = s.mapFnum := by
  cases i with
  | mapFnum n => exact absurd rfl (h n)
  | _ => exact ⟨rfl, rfl⟩

theorem ownWrites_buttons (h : ∀ b, i ≠ .frameIn b) :
    (ownWrites i u s).press = s.press ∧ (ownWrites i u s).prevButtons = s.prevButtons
      ∧ (ownWrites i u s).chordLatch = s.chordLatch ∧ (ownWrites i u s).playing = s.playing := by
  cases i with
  | frameIn b => exact absurd rfl (h b)
  | _ => exact ⟨rfl, rfl, rfl, rfl⟩

end

/-! ### What each command emits and defers -/

/-- The micro-sequence `ops` and the deferred updates `ds` that command `i` may have: whole brackets; holds only in an
adapter command, FRAME_RUN and FRAME_IN; meter reads only in PCM_METER and FRAME_IN; deferred updates only in
FRAME_RUN. -/
structure Emits (i : Instr) (ops : List MicroOp) (ds : List Deferred) : Prop where
  clean : IsClean ops
  asks : i.isAdapter = true ∨ i = .frameRun ∨ (∃ b, i = .frameIn b) ∨ asksOf ops = []
  deferred : i ≠ .frameRun → ds = []
  meterReads : (∀ b, i ≠ .frameIn b) → i ≠ .pcmMeter → NoMeterRead ops

theorem emits_nothing (i : Instr) : Emits i [] [] :=
  ⟨isClean_nil, .inr (.inr (.inr rfl)), fun _ => rfl, fun _ _ => noMeterRead_nil⟩

theorem emits_persist (i : Instr) : Emits i [.persist] [] :=
  ⟨isClean_persist, .inr (.inr (.inr rfl)), fun _ => rfl, fun _ _ => by simp [NoMeterRead]⟩

theorem emits_frameRun {ops : List MicroOp} (hc : IsClean ops) (hm : NoMeterRead ops) (ds : List Deferred) :
    Emits .frameRun ops ds :=
  ⟨hc, .inr (.inl rfl), fun h => absurd rfl h, fun _ _ => hm⟩

theorem emits_frameIn {ops : List MicroOp} (hc : IsClean ops) (b : Byte) : Emits (.frameIn b) ops [] :=
  ⟨hc, .inr (.inr (.inl ⟨b, rfl⟩)), fun _ => rfl, fun h => absurd rfl (h b)⟩

theorem emits_adapter {i : Instr} (h : i.isAdapter = true) (p : Params) (x : Instrument) :
    Emits i (adapterOps p x i) [] :=
  ⟨isClean_adapter p x i, .inl h, fun _ => rfl, fun _ hm => noMeterRead_adapter p x hm⟩

/-- The three things command `i` can come to, each within what it owns. -/
def ExecOwns (i : Instr) (s : State) (o : Host.Outcome State Fault Refusal) : Prop :=
  (∃ f, o = .fault f) ∨ o = refuse s ∨ ∃ u ops ds, o = accept (ownWrites i u s) ops ds ∧ Emits i ops ds

theorem ExecOwns.ofAccept {i : Instr} {s u : State} {ops : List MicroOp} {ds : List Deferred}
    (h : u = ownWrites i u s) (he : Emits i ops ds) : ExecOwns i s (accept u ops ds) :=
  .inr (.inr ⟨u, ops, ds, by rw [← h], he⟩)

theorem ExecOwns.ofStore {i : Instr} {s u : State} (h : u = ownWrites i u s) : ExecOwns i s (acceptStore u) :=
  .ofAccept h (emits_persist i)

theorem ExecOwns.ofPure {i : Instr} {s u : State} (h : u = ownWrites i u s) : ExecOwns i s (accept u [] []) :=
  .ofAccept h (emits_nothing i)

/-- A reserved channel of an adapter command is refused (R107). -/
theorem exec_adapter_reserved {i : Instr} (ha : i.isAdapter = true) (hw : i.wellFormed = false) (s : State) :
    exec i s = refuse s := by
  have onCh {ch : BitVec 3} (h : fmChannelOk ch = false) (ops : Fin 6 → List MicroOp) :
      acceptChannel ch s ops = refuse s := by
    have h6 : 6 ≤ ch.toNat := by simpa [fmChannelOk] using h
    simp [acceptChannel, fmChannel?_reserved h6]
  cases i with
  | toneSet ch d =>
    have h3 : ch = 3 := by simpa [Instr.wellFormed] using hw
    simp [exec, execToneSet, h3]
  | fmDetmul | fmLevel | fmAttack | fmRelsus | fmDecam | fmFbalg | fmPanamsfms | fmPitch | fmKeyon | fmKeyoff =>
    exact onCh hw _
  | setInstr => cases ha
  | _ => cases hw

theorem exec_adapter_owns {i : Instr} (ha : i.isAdapter = true) (s : State) : ExecOwns i s (exec i s) := by
  cases hw : i.wellFormed with
  | false => exact .inr (.inl (exec_adapter_reserved ha hw s))
  | true =>
    rw [exec_adapter ha hw, acceptAdapter]
    split
    · exact .inr (.inl rfl)
    · exact .ofAccept (ownWrites_self i s).symm (emits_adapter ha s.params s.instr)

theorem execSetInstr_owns (field : BitVec 8) (idx : BitVec 5) (v : Byte) (s : State) :
    ExecOwns (.setInstr field idx v) s (execSetInstr field idx v s) := by
  unfold execSetInstr
  split
  · exact .inr (.inl rfl)
  · split
    · exact .inr (.inl rfl)
    · exact .ofStore rfl
  · exact .ofStore rfl

theorem execMapDiv_owns (note : Byte) (s : State) : ExecOwns (.mapDiv note) s (execMapDiv note s) := by
  unfold execMapDiv
  split
  · exact .inr (.inl rfl)
  · exact .ofPure rfl

theorem execFrameIn_owns (buttons : Byte) (s : State) : ExecOwns (.frameIn buttons) s (execFrameIn buttons s) := by
  refine .ofAccept rfl (emits_frameIn ?_ buttons)
  split
  · exact isClean_onStop _ _
  · exact isClean_nil

theorem execFrameRun_owns (s : State) : ExecOwns .frameRun s (execFrameRun s) := by
  have tick : ExecOwns .frameRun s (accept s [] [.tickFrame]) :=
    .ofAccept rfl (emits_frameRun isClean_nil noMeterRead_nil _)
  unfold execFrameRun
  split
  · split
    · exact .inl ⟨_, rfl⟩
    · split
      · split
        · exact .ofAccept rfl
            (emits_frameRun (isClean_stepDispatch _ _ _) (noMeterRead_stepDispatch _ _ _) _)
        · exact .inl ⟨_, rfl⟩
      · exact tick
  · exact tick

/-- Every command keeps to the registers, holds, meter reads and deferred updates it owns. -/
theorem exec_owns (i : Instr) (s : State) : ExecOwns i s (exec i s) := by
  cases i with
  | nop => exact .ofPure rfl
  | setTempo | setGate | setAccent | setSpeed | setPsgnote | setFmnote => exact .ofStore rfl
  | setInstr f x v => exact execSetInstr_owns f x v s
  | frameIn b => exact execFrameIn_owns b s
  | frameRun => exact execFrameRun_owns s
  | mapDiv n => exact execMapDiv_owns n s
  | mapFnum n => exact .ofPure rfl
  | _ => exact exec_adapter_owns rfl s

/-- A command that answers a next state was asked between commands, and either is refused, which sets `cmd_err` alone
(R106), or the executor begins on its micro-sequence from its own writes. -/
theorem exec_next_cases {i : Instr} {s t : State} (h : exec i s = .next t) :
    s.idle = true ∧ (t = { s with cmdErr := true }
      ∨ ∃ u ops ds, Emits i ops ds ∧ t = runQueue true ops { ownWrites i u s with after := ds }) := by
  rcases exec_owns i s with ⟨f, e⟩ | e | ⟨u, ops, ds, e, he⟩ <;> rw [e] at h
  · cases h
  · rcases refuse_cases s with ⟨hi, hr⟩ | ⟨_, hr⟩ <;> rw [hr] at h <;> cases h
    exact ⟨hi, .inl rfl⟩
  · rcases accept_cases (ownWrites i u s) ops ds with ⟨hi, ha⟩ | ⟨_, ha⟩ <;> rw [ha] at h <;> cases h
    exact ⟨ownWrites_idle i u s ▸ hi, .inr ⟨u, ops, ds, he, rfl⟩⟩

/-! ### A command's own step, register by register -/

/-- The executor writes `playing` only where it enters a fault (R254). -/
theorem runQueue_playing (fresh : Bool) (ops : List MicroOp) (s : State) (hb : bracketed s.busHeld ops = true) :
    (runQueue fresh ops s).playing = s.playing ∨ (runQueue fresh ops s).halted = true := by
  rcases runQueue_result fresh ops s hb with ⟨c, _⟩ | ⟨w, _⟩ | f
  · exact .inl c.playing
  · exact .inl w.playing
  · exact .inr f.halted

/-- With nothing deferred the executor leaves the counters (R27, R28). -/
theorem runQueue_counters {fresh : Bool} {ops : List MicroOp} {s : State} (hb : bracketed s.busHeld ops = true)
    (ha : s.after = []) :
    (runQueue fresh ops s).frameCounter = s.frameCounter ∧ (runQueue fresh ops s).stepPosition = s.stepPosition
      ∧ (runQueue fresh ops s).after = [] := by
  rcases runQueue_result fresh ops s hb with ⟨c, _⟩ | ⟨w, _⟩ | f
  · rw [c.frameCounter, c.stepPosition, finish_none ha]
    exact ⟨rfl, rfl, c.after⟩
  · exact ⟨w.frameCounter, w.stepPosition, w.after.trans ha⟩
  · exact ⟨by simp [f.frameCounter, ha], f.stepPosition, f.after⟩

section
variable {i : Instr} {s t : State}

/-- Where a command is accepted between commands, its micro-sequence keeps the bracket discipline (R86). -/
theorem Emits.bracketed {ops : List MicroOp} {ds : List Deferred} (he : Emits i ops ds) (hi : s.idle = true)
    (u : State) : Machine.bracketed ({ ownWrites i u s with after := ds } : State).busHeld ops = true := by
  obtain ⟨_, _, hb⟩ := (idle_iff s).1 hi
  simpa [hb] using he.clean.bracketed

/-- A register that neither a refusal nor the executor writes changes only by the command's own writes. -/
theorem exec_keeps_register {α : Type} (reg : State → α) (h : exec i s = .next t)
    (hr : reg { s with cmdErr := true } = reg s) (hx : ∀ a b, ExecutorFrame a b → reg b = reg a)
    (ho : ∀ u ds, reg { ownWrites i u s with after := ds } = reg s) : reg t = reg s := by
  obtain ⟨_, rfl | ⟨u, ops, ds, _, rfl⟩⟩ := exec_next_cases h
  · exact hr
  · exact (hx _ _ (runQueue_frame _ _ _)).trans (ho u ds)

theorem exec_params (h : exec i s = .next t) : t.params = s.params :=
  exec_keeps_register (·.params) h rfl (fun _ _ f => f.params) fun u _ => ownWrites_params i u s

theorem exec_keepsOrEntersFault (h : exec i s = .next t) : KeepsOrEntersFault s t := by
  obtain ⟨hi, rfl | ⟨u, ops, ds, he, rfl⟩⟩ := exec_next_cases h
  · exact .inl ⟨rfl, rfl⟩
  · have hk := runQueue_keepsOrEntersFault true ops _ (he.bracketed hi u)
    simpa [KeepsOrEntersFault] using hk

/-- Only a command with a hold can enter a fault (R252). -/
theorem exec_halted (h : exec i s = .next t) :
    t.halted = s.halted ∨ i.isAdapter = true ∨ i = .frameRun ∨ ∃ b, i = .frameIn b := by
  obtain ⟨_, rfl | ⟨u, ops, ds, he, rfl⟩⟩ := exec_next_cases h
  · exact .inl rfl
  · rcases he.asks with ha | hr | hf | hn
    · exact .inr (.inl ha)
    · exact .inr (.inr (.inl hr))
    · exact .inr (.inr (.inr hf))
    · left
      rw [runQueue_favoured ops _ (by rw [hn]; rfl)]
      obtain ⟨_, _, hh, _⟩ := finish_other (performed ops { ownWrites i u s with after := ds })
      rw [hh, performed_other]
      exact ownWrites_halted i u s

theorem exec_cmdErr (h : exec i s = .next t) : t.cmdErr = s.cmdErr ∨ t = { s with cmdErr := true } := by
  obtain ⟨_, rfl | ⟨u, ops, ds, _, rfl⟩⟩ := exec_next_cases h
  · exact .inr rfl
  · exact .inl ((runQueue_frame true ops _).cmdErr.trans (ownWrites_cmdErr i u s))

/-- The counters belong to FRAME_RUN (R27, R28). -/
theorem exec_counters (h : exec i s = .next t) (hi : i ≠ .frameRun) :
    t.frameCounter = s.frameCounter ∧ t.stepPosition = s.stepPosition ∧ t.after = [] := by
  obtain ⟨hidle, rfl | ⟨u, ops, ds, he, rfl⟩⟩ := exec_next_cases h
  · exact ⟨rfl, rfl, ((idle_iff s).1 hidle).2.1⟩
  · obtain ⟨hc, hp, ha⟩ := runQueue_counters (fresh := true) (he.bracketed hidle u) (he.deferred hi)
    exact ⟨hc.trans (ownWrites_frameCounter i u s), hp.trans (ownWrites_stepPosition i u s), ha⟩

/-- The button registers and `playing` belong to FRAME_IN (R30 to R33), but for a fault. -/
theorem exec_buttons (h : exec i s = .next t) (hi : ∀ b, i ≠ .frameIn b) :
    t.press = s.press ∧ t.prevButtons = s.prevButtons ∧ t.chordLatch = s.chordLatch
      ∧ (t.playing = s.playing ∨ t.halted = true) := by
  obtain ⟨hidle, rfl | ⟨u, ops, ds, he, rfl⟩⟩ := exec_next_cases h
  · exact ⟨rfl, rfl, rfl, .inl rfl⟩
  · have f := runQueue_frame true ops { ownWrites i u s with after := ds }
    obtain ⟨hp, hv, hc, hg⟩ := ownWrites_buttons u s hi
    exact ⟨f.press.trans hp, f.prevButtons.trans hv, f.chordLatch.trans hc,
      (runQueue_playing true ops _ (he.bracketed hidle u)).imp_left (·.trans hg)⟩

/-- `meter` belongs to PCM_METER and to FRAME_IN's stop actions (R37). -/
theorem exec_meter (h : exec i s = .next t) (hf : ∀ b, i ≠ .frameIn b) (hm : i ≠ .pcmMeter) :
    t.meter = s.meter ∧ NoMeterRead t.uq := by
  obtain ⟨hidle, ht⟩ := exec_next_cases h
  obtain ⟨hu, _, _⟩ := (idle_iff s).1 hidle
  obtain rfl | ⟨u, ops, ds, he, rfl⟩ := ht
  · exact ⟨rfl, fun a => by simp [hu]⟩
  · obtain ⟨h1, h2⟩ := runQueue_noMeterRead true ops { ownWrites i u s with after := ds } (he.meterReads hf hm)
      (by simp [hu])
    exact ⟨h1.trans (ownWrites_meter i u s), h2⟩

end

/-! ### Deferred updates at the end of a command -/

/-- Deferred updates one after another, counted. -/
theorem foldl_applyDeferred_counts (ds : List Deferred) (s : State) :
    (ds.foldl (fun t d => applyDeferred d t) s).stepPosition = s.stepPosition + BitVec.ofNat 4 (ds.count .advanceStep)
      ∧ (ds.foldl (fun t d => applyDeferred d t) s).frameCounter = s.frameCounter + ds.count .tickFrame := by
  induction ds generalizing s with
  | nil => simp
  | cons d ds ih =>
    obtain ⟨hp, hc⟩ := ih (applyDeferred d s)
    rw [List.foldl_cons, hp, hc]
    cases d with
    | advanceStep => simp [BitVec.ofNat_add, BitVec.add_assoc, BitVec.add_comm 1#4]
    | tickFrame => simp [Nat.add_assoc, Nat.add_comm 1]

theorem finish_stepPosition (s : State) :
    (finish s).stepPosition = s.stepPosition + BitVec.ofNat 4 (s.after.count .advanceStep) :=
  (foldl_applyDeferred_counts s.after s).1

theorem finish_frameCounter (s : State) : (finish s).frameCounter = s.frameCounter + s.after.count .tickFrame :=
  (foldl_applyDeferred_counts s.after s).2

/-! ### The steps of a waiting command -/

/-- What a step makes of the waiting command's deferred updates: kept while it waits on, each made when it completes
(R61), and where it faults `frame_counter`'s alone (R254). -/
structure SettlesDeferred (s t : State) : Prop where
  playing : t.playing = s.playing ∨ t.halted = true
  after : t.after = s.after ∨ t.after = []
  waits : t.uq ≠ [] → t.after = s.after ∧ t.stepPosition = s.stepPosition ∧ t.frameCounter = s.frameCounter
  completes : t.uq = [] → t.halted = false → t.after = []
    ∧ t.stepPosition.toNat = (s.stepPosition.toNat + s.after.count .advanceStep) % 16
    ∧ t.frameCounter = s.frameCounter + s.after.count .tickFrame
  faults : s.halted = false → t.halted = true → t.after = [] ∧ t.stepPosition = s.stepPosition
    ∧ t.frameCounter = s.frameCounter + if .tickFrame ∈ s.after then 1 else 0
  noAdvance : .advanceStep ∉ s.after → t.stepPosition = s.stepPosition
  noTick : .tickFrame ∉ s.after → t.frameCounter = s.frameCounter

theorem Completed.settlesDeferred {s t : State} (c : Completed { s with uq := [] } t) : SettlesDeferred s t := by
  have hp : t.stepPosition = s.stepPosition + BitVec.ofNat 4 (s.after.count .advanceStep) :=
    c.stepPosition.trans (finish_stepPosition _)
  have hc : t.frameCounter = s.frameCounter + s.after.count .tickFrame := c.frameCounter.trans (finish_frameCounter _)
  exact
    { playing := .inl c.playing
      after := .inr c.after
      waits := fun hu => absurd c.uq hu
      completes := fun _ _ => ⟨c.after, by simp [hp, BitVec.toNat_add], hc⟩
      faults := fun h0 h1 => absurd (h1.symm.trans (c.halted.trans h0)) (by decide)
      noAdvance := fun hn => by simp [hp, List.count_eq_zero.2 hn]
      noTick := fun hn => by simp [hc, List.count_eq_zero.2 hn] }

theorem Waits.settlesDeferred {s t : State} (w : Waits { s with uq := [] } t) : SettlesDeferred s t where
  playing := .inl w.playing
  after := .inl w.after
  waits _ := ⟨w.after, w.stepPosition, w.frameCounter⟩
  completes hu _ := absurd w.hold (by simp [hu, startsWithHold])
  faults h0 h1 := absurd (h1.symm.trans (w.halted.trans h0)) (by decide)
  noAdvance _ := w.stepPosition
  noTick _ := w.frameCounter

theorem Faulted.settlesDeferred {s t : State} (f : Faulted { s with uq := [] } t) : SettlesDeferred s t := by
  have hc : t.frameCounter = s.frameCounter + if .tickFrame ∈ s.after then 1 else 0 := by
    rw [f.frameCounter]
    by_cases h : Deferred.tickFrame ∈ s.after <;> simp [h]
  exact
    { playing := .inr f.halted
      after := .inr f.after
      waits := fun hu => absurd f.uq hu
      completes := fun _ h0 => absurd (h0.symm.trans f.halted) (by decide)
      faults := fun _ _ => ⟨f.after, f.stepPosition, hc⟩
      noAdvance := fun _ => f.stepPosition
      noTick := fun hn => by simp [hc, hn] }

/-- A step that goes on with a waiting command is the executor on what is left of it. -/
theorem step_waiting {s t : State} (hu : s.uq ≠ []) (h : step s = .next t) :
    bracketed s.busHeld s.uq = true ∧ t = runQueue false s.uq { s with uq := [] } := by
  rcases step_cases s with ⟨_, hs⟩ | ⟨h0, _⟩ | ⟨_, _, _, h0, _⟩ | ⟨_, _, _, h0, _⟩
  · rw [hs] at h
    rcases resume_cases s with ⟨_, hb, hr⟩ | ⟨_, hr⟩ <;> rw [hr] at h <;> cases h
    exact ⟨hb, rfl⟩
  all_goals exact absurd h0 hu

theorem step_waiting_frame {s t : State} (hu : s.uq ≠ []) (h : step s = .next t) : ExecutorFrame s t := by
  obtain ⟨_, rfl⟩ := step_waiting hu h
  have f := runQueue_frame false s.uq { s with uq := [] }
  exact ⟨f.params, f.pattern, f.tempo, f.instr, f.chordLatch, f.prevButtons, f.press, f.mapDiv, f.mapBlock, f.mapFnum,
    f.cmdErr, f.port⟩

theorem step_waiting_settlesDeferred {s t : State} (hu : s.uq ≠ []) (h : step s = .next t) : SettlesDeferred s t := by
  obtain ⟨hb, rfl⟩ := step_waiting hu h
  rcases runQueue_result false s.uq { s with uq := [] } hb with ⟨c, _⟩ | ⟨w, _⟩ | f
  · exact c.settlesDeferred
  · exact w.settlesDeferred
  · exact f.settlesDeferred

theorem step_waiting_meter {s t : State} (hu : s.uq ≠ []) (h : step s = .next t) (hm : NoMeterRead s.uq) :
    t.meter = s.meter ∧ NoMeterRead t.uq := by
  obtain ⟨_, rfl⟩ := step_waiting hu h
  exact runQueue_noMeterRead false s.uq { s with uq := [] } hm rfl

/-! ### Every step -/

/-- Every step keeps the parameters and the fault registers but for a fault, and `cmd_err` but for a refusal (R38,
R39). -/
theorem step_keeps_status {s t : State} (h : step s = .next t) :
    t.params = s.params ∧ KeepsOrEntersFault s t
      ∧ (t.cmdErr = s.cmdErr ∨ t = { s with port := s.port.tail, cmdErr := true }) := by
  rcases step_cases s with ⟨hu, _⟩ | ⟨_, _, hs⟩ | ⟨w, rest, i, _, hp, _, hs⟩ | ⟨w, rest, e, _, hp, _, hs⟩
  · have f := step_waiting_frame hu h
    obtain ⟨hb, rfl⟩ := step_waiting hu h
    exact ⟨f.params, runQueue_keepsOrEntersFault false s.uq { s with uq := [] } hb, .inl f.cmdErr⟩
  · rw [hs] at h
    cases h
    exact ⟨rfl, .inl ⟨rfl, rfl⟩, .inl rfl⟩
  · rw [hs] at h
    have hq := exec_params h
    have hk := exec_keepsOrEntersFault h
    have hc := exec_cmdErr h
    rw [hp]
    exact ⟨hq, hk, hc⟩
  · rw [hs] at h
    rcases refuse_cases { s with port := rest } with ⟨_, hr⟩ | ⟨_, hr⟩ <;> rw [hr] at h <;> cases h
    exact ⟨rfl, .inl ⟨rfl, rfl⟩, .inr (by rw [hp]; rfl)⟩

/-- Settles O54: each clause is the ownership of one register, in every step, in a command's own step, and in the steps
of a waiting command. -/
theorem registersHaveTheirOnlyWriters : Obligations.RegistersHaveTheirOnlyWriters := by
  refine ⟨fun s t h => step_keeps_status h, fun i s t h => ?_, fun s t hu h => ?_⟩
  · exact ⟨exec_keepsOrEntersFault h, exec_halted h, exec_cmdErr h, exec_counters h, exec_buttons h, exec_meter h,
      fun hi => exec_keeps_register (·.tempo) h rfl (fun _ _ f => f.tempo) fun u _ => ownWrites_tempo u s hi,
      fun hi => exec_keeps_register (·.pattern.gate) h rfl (fun _ _ f => congrArg _ f.pattern)
        fun u _ => ownWrites_gate u s hi,
      fun hi => exec_keeps_register (·.pattern.accent) h rfl (fun _ _ f => congrArg _ f.pattern)
        fun u _ => ownWrites_accent u s hi,
      fun hi => exec_keeps_register (·.pattern.speed) h rfl (fun _ _ f => congrArg _ f.pattern)
        fun u _ => ownWrites_speed u s hi,
      fun hi => exec_keeps_register (·.pattern.psgNote) h rfl (fun _ _ f => congrArg _ f.pattern)
        fun u _ => ownWrites_psgNote u s hi,
      fun hi => exec_keeps_register (·.pattern.fmNote) h rfl (fun _ _ f => congrArg _ f.pattern)
        fun u _ => ownWrites_fmNote u s hi,
      fun hi => exec_keeps_register (·.instr) h rfl (fun _ _ f => f.instr) fun u _ => ownWrites_instr u s hi,
      fun hi => exec_keeps_register (·.mapDiv) h rfl (fun _ _ f => f.mapDiv) fun u _ => ownWrites_mapDiv u s hi,
      fun hi => ⟨
        exec_keeps_register (·.mapBlock) h rfl (fun _ _ f => f.mapBlock) fun u _ => (ownWrites_mapFnum u s hi).1,
        exec_keeps_register (·.mapFnum) h rfl (fun _ _ f => f.mapFnum) fun u _ => (ownWrites_mapFnum u s hi).2⟩⟩
  · have f := step_waiting_frame hu h
    have d := step_waiting_settlesDeferred hu h
    exact ⟨f.pattern, f.instr, f.tempo, f.press, f.prevButtons, f.chordLatch, f.mapDiv, f.mapBlock, f.mapFnum, f.cmdErr,
      f.port, d.playing, d.after, d.waits, d.completes, d.faults, d.noAdvance, d.noTick, step_waiting_meter hu h⟩

end Sys2Proof.Machine
end

section
/-! The invariant of R45 along a step (R40, R41, R45, R86): what the executor leaves in `uq` is again in order, a command
on an idle block with a legal store always answers, and so every step from a state that meets `Inv` answers one that meets
it. A halted block's step is read off the same facts (R255, R267). -/

namespace Sys2Proof.Machine

/-! ### The two boolean parts of the invariant -/

/-- The executor's part, between commands and during one (R40, R41, R86). -/
theorem queueOk_iff (s : State) :
    queueOk s = true ↔
      (s.uq = [] → s.after = [] ∧ s.busHeld = false)
        ∧ (s.uq ≠ [] → startsWithHold s.uq = true ∧ bracketed s.busHeld s.uq = true
          ∧ opPhaseAfter .quiet s.uq = some .quiet) := by
  by_cases hu : s.uq = [] <;> simp [queueOk, hu, and_assoc]

/-- The fault registers' part, halted and not (R39, R214). -/
theorem faultStateOk_iff (s : State) :
    faultStateOk s = true ↔
      (s.halted = true → s.playing = false ∧ s.uq = [] ∧ (s.faultCode = 1 ∨ s.faultCode = 2))
        ∧ (s.halted = false → s.faultCode = 0) := by
  cases hh : s.halted <;> simp [faultStateOk, hh, and_assoc]

/-- Between commands the invariant makes the block idle (R40, R41). -/
theorem Inv.idle {s : State} (h : Inv s) (hu : s.uq = []) : s.idle = true := by
  obtain ⟨_, _, _, hq, _⟩ := h
  obtain ⟨ha, hb⟩ := ((queueOk_iff s).1 hq).1 hu
  exact (idle_iff s).2 ⟨hu, ha, hb⟩

/-- A halted block that meets the invariant has no command in execution and does not play (R214, R254). -/
theorem Inv.quiet_of_halted {s : State} (h : Inv s) (hh : s.halted = true) : s.uq = [] ∧ s.playing = false := by
  obtain ⟨_, _, _, _, hf⟩ := h
  obtain ⟨hp, hu, _⟩ := ((faultStateOk_iff s).1 hf).1 hh
  exact ⟨hu, hp⟩

/-- During a command the queue is in order, beginning with the hold it waits at, and the block is not halted (R86, R87,
R254). -/
theorem Inv.waiting {s : State} (h : Inv s) (hu : s.uq ≠ []) :
    startsWithHold s.uq = true ∧ bracketed s.busHeld s.uq = true ∧ opPhaseAfter .quiet s.uq = some .quiet
      ∧ s.halted = false := by
  obtain ⟨_, _, _, hq, hf⟩ := id h
  obtain ⟨h1, h2, h3⟩ := ((queueOk_iff s).1 hq).2 hu
  exact ⟨h1, h2, h3, Bool.eq_false_iff.2 fun hh => hu (h.quiet_of_halted hh).1⟩

/-! ### What the executor leaves in `uq` -/

/-- What an attempt does to `uq`: only a hold waits, and only a fault empties the queue (R61, R254). -/
theorem attempt_uq_cases (fresh : Bool) (m : MicroOp) (s : State) :
    (∃ t, attempt fresh m s = .done t ∧ t.uq = s.uq)
      ∨ (∃ t, attempt fresh m s = .waiting t ∧ (m = .acq ∨ m = .fms))
      ∨ ∃ t, attempt fresh m s = .faulted t ∧ t.uq = [] := by
  have stop (b : Bool) (f : FaultCause) (t : State) (hm : m = .acq ∨ m = .fms)
      (h : attempt fresh m s = if b then .faulted (raiseFault f t) else .waiting t) :
      (∃ t, attempt fresh m s = .waiting t ∧ (m = .acq ∨ m = .fms))
        ∨ ∃ t, attempt fresh m s = .faulted t ∧ t.uq = [] := by
    cases b with
    | false => exact .inl ⟨t, h, hm⟩
    | true => exact .inr ⟨_, h, by rw [raiseFault_spec]⟩
  cases m with
  | acq =>
    cases hg : s.env.grant with
    | true => exact .inl ⟨_, attemptAcq_granted fresh hg, rfl⟩
    | false => exact .inr (stop _ _ _ (.inl rfl) (attemptAcq_denied fresh hg))
  | fms =>
    cases hg : s.env.busyAnswer with
    | false => exact .inl ⟨_, attemptFms_ready fresh hg, rfl⟩
    | true => exact .inr (stop _ _ _ (.inr rfl) (attemptFms_busy fresh hg))
  | _ => exact .inl ⟨_, rfl, rfl⟩

/-- A hold may stand wherever no delay is owed, so a queue that begins with one can be taken up from the quiet phase
(R73). -/
theorem opPhaseAfter_quiet_of_hold {ph q : PortPhase} {m : MicroOp} {rest : List MicroOp} (hm : m = .acq ∨ m = .fms)
    (h : opPhaseAfter ph (m :: rest) = some q) : opPhaseAfter .quiet (m :: rest) = some q := by
  obtain rfl | rfl := hm <;> cases ph with
  | written => cases h
  | _ => exact h

/-- What the executor leaves in `uq` keeps the port-write protocol when it goes on (R73). -/
theorem runQueue_uq_phase {fresh : Bool} {ops : List MicroOp} {s : State} {ph : PortPhase} (hu : s.uq = [])
    (hp : opPhaseAfter ph ops = some .quiet) : opPhaseAfter .quiet (runQueue fresh ops s).uq = some .quiet := by
  induction ops generalizing fresh s ph with
  | nil =>
    obtain ⟨_, _, _, _, _, h6, _⟩ := finish_other s
    rw [runQueue_nil, h6, hu]
    rfl
  | cons m rest ih =>
    rw [runQueue_cons]
    rcases attempt_uq_cases fresh m s with ⟨t, ht, htu⟩ | ⟨t, ht, hm⟩ | ⟨t, ht, htu⟩ <;> rw [ht]
    · obtain ⟨ph', _, hr⟩ := Option.bind_eq_some_iff.1 hp
      exact ih (htu.trans hu) hr
    · exact opPhaseAfter_quiet_of_hold hm hp
    · simp only [htu]
      rfl

/-- A micro-sequence that asks nothing of the environment never waits (R61). -/
theorem runQueue_uq_of_noAsks {fresh : Bool} {ops : List MicroOp} {s : State} (hu : s.uq = []) (ha : asksOf ops = []) :
    (runQueue fresh ops s).uq = [] := by
  induction ops generalizing fresh s with
  | nil =>
    obtain ⟨_, _, _, _, _, h6, _⟩ := finish_other s
    exact h6.trans hu
  | cons m rest ih =>
    rw [runQueue_cons]
    rcases attempt_uq_cases fresh m s with ⟨t, ht, htu⟩ | ⟨t, ht, hm⟩ | ⟨t, ht, htu⟩ <;> rw [ht]
    · refine ih (htu.trans hu) ?_
      cases m <;> simp_all [asksOf]
    · obtain rfl | rfl := hm <;> cases ha
    · exact htu

/-- The executor keeps the fault registers consistent, on a halted block as long as it cannot wait (R39, R254). -/
theorem runQueue_faultStateOk {fresh : Bool} {ops : List MicroOp} {s : State} (hu : s.uq = [])
    (hb : bracketed s.busHeld ops = true) (hf : faultStateOk s = true) (hh : s.halted = true → asksOf ops = []) :
    faultStateOk (runQueue fresh ops s) = true := by
  obtain ⟨h1, h0⟩ := (faultStateOk_iff s).1 hf
  rw [faultStateOk_iff]
  have keeps {t : State} (htq : s.halted = true → t.uq = []) (hth : t.halted = s.halted)
      (htc : t.faultCode = s.faultCode) (htp : t.playing = s.playing) :
      (t.halted = true → t.playing = false ∧ t.uq = [] ∧ (t.faultCode = 1 ∨ t.faultCode = 2))
        ∧ (t.halted = false → t.faultCode = 0) := by
    rw [hth, htc, htp]
    exact ⟨fun h => ⟨(h1 h).1, htq h, (h1 h).2.2⟩, h0⟩
  rcases runQueue_result fresh ops s hb with ⟨c, _⟩ | ⟨w, _⟩ | f
  · exact keeps (fun _ => c.uq.trans hu) c.halted c.faultCode c.playing
  · exact keeps (fun h => runQueue_uq_of_noAsks hu (hh h)) w.halted w.faultCode w.playing
  · refine ⟨fun _ => ⟨f.playing, f.uq, ?_⟩, fun h => absurd (h.symm.trans f.halted) (by decide)⟩
    cases hs : s.halted with
    | false => exact f.faultCode hs
    | true => rw [f.firstCode hs]; exact (h1 hs).2.2

/-- The executor leaves its queue in order (R40, R41, R86). -/
theorem runQueue_queueOk {fresh : Bool} {ops : List MicroOp} {s : State} (hu : s.uq = [])
    (hb : bracketed s.busHeld ops = true) (hp : opPhaseAfter .quiet ops = some .quiet) :
    queueOk (runQueue fresh ops s) = true := by
  rw [queueOk_iff]
  rcases runQueue_result fresh ops s hb with ⟨c, hbus⟩ | ⟨w, hbr⟩ | f
  · exact ⟨fun _ => ⟨c.after, hbus⟩, fun h => absurd (c.uq.trans hu) h⟩
  · exact ⟨fun h => absurd w.hold (by simp [h, startsWithHold]), fun _ => ⟨w.hold, hbr, runQueue_uq_phase hu hp⟩⟩
  · exact ⟨fun _ => ⟨f.after, f.busHeld⟩, fun h => absurd f.uq h⟩

/-- The executor keeps the invariant's four parts that speak of the stores and the queue, from whatever the command has
written before its micro-sequence. -/
theorem runQueue_inv {fresh : Bool} {ops : List MicroOp} {s : State} (hl : s.params.legal = true)
    (hs : s.pattern.legal s.params = true) (ht : 1 ≤ s.tempo.toNat) (hf : faultStateOk s = true) (hu : s.uq = [])
    (hb : bracketed s.busHeld ops = true) (hp : opPhaseAfter .quiet ops = some .quiet)
    (hh : s.halted = true → asksOf ops = []) : Inv (runQueue fresh ops s) := by
  have f := runQueue_frame fresh ops s
  refine ⟨?_, ?_, ?_, runQueue_queueOk hu hb hp, runQueue_faultStateOk hu hb hf hh⟩
  · rwa [f.params]
  · rwa [f.pattern, f.params]
  · rwa [f.tempo]

/-! ### Every command answers on an idle block with a legal store -/

/-- A command's own writes leave an idle block idle, so it is accepted. -/
theorem accept_answers {s u : State} {ops : List MicroOp} {ds : List Deferred} (hi : s.idle = true)
    (hu : u.idle = s.idle) : ∃ t, accept u ops ds = .next t := ⟨_, accept_idle (hu.trans hi) ops ds⟩

theorem refuse_answers {s : State} (hi : s.idle = true) : ∃ t, refuse s = .next t := ⟨_, refuse_idle hi⟩

theorem exec_adapter_answers {i : Instr} {s : State} (ha : i.isAdapter = true) (hi : s.idle = true) :
    ∃ t, exec i s = .next t := by
  cases hw : i.wellFormed with
  | false => rw [exec_adapter_reserved ha hw]; exact refuse_answers hi
  | true =>
    rw [exec_adapter ha hw, acceptAdapter]
    split
    · exact refuse_answers hi
    · exact accept_answers hi rfl

/-- FRAME_RUN answers wherever the tempo is at least 1 and the store legal (R45, R203). -/
theorem execFrameRun_answers {s : State} (hi : s.idle = true) (hs : s.pattern.legal s.params = true)
    (ht : 1 ≤ s.tempo.toNat) : ∃ t, execFrameRun s = .next t := by
  have ht0 : s.tempo ≠ 0 := fun h => by simp [h] at ht
  have hd := stepDispatchable_of_legal ((patternLegal_iff _ _).1 hs s.stepPosition)
  rw [execFrameRun, if_neg ht0, if_pos hd]
  split
  · split <;> exact accept_answers hi rfl
  · exact accept_answers hi rfl

theorem execSetInstr_answers (field : BitVec 8) (idx : BitVec 5) (v : Byte) {s : State} (hi : s.idle = true) :
    ∃ t, execSetInstr field idx v s = .next t := by
  unfold execSetInstr
  split
  · exact refuse_answers hi
  · split
    · exact refuse_answers hi
    · exact accept_answers hi rfl
  · exact accept_answers hi rfl

theorem execMapDiv_answers (note : Byte) {s : State} (hi : s.idle = true) : ∃ t, execMapDiv note s = .next t := by
  unfold execMapDiv
  split
  · exact refuse_answers hi
  · exact accept_answers hi rfl

/-- No command raises a fault of the model on an idle block with a legal store and a tempo of at least 1 (log entry 9). -/
theorem exec_answers (i : Instr) {s : State} (hi : s.idle = true) (hs : s.pattern.legal s.params = true)
    (ht : 1 ≤ s.tempo.toNat) : ∃ t, exec i s = .next t := by
  cases i with
  | nop => exact accept_answers hi rfl
  | setTempo | setGate | setAccent | setSpeed | setPsgnote | setFmnote | mapFnum => exact accept_answers hi rfl
  | setInstr f x v => exact execSetInstr_answers f x v hi
  | frameIn b => exact accept_answers hi rfl
  | frameRun => exact execFrameRun_answers hi hs ht
  | mapDiv n => exact execMapDiv_answers n hi
  | _ => exact exec_adapter_answers rfl hi

/-! ### The invariant along a step -/

/-- A command that answers a next state was asked between commands, and either is refused (R106) or the executor begins
on its micro-sequence, after updates that keep the stores legal. -/
theorem exec_next_expands {i : Instr} {s t : State} (h : exec i s = .next t) :
    s.idle = true ∧ (t = { s with cmdErr := true }
      ∨ ∃ u ops ds, Expands s u ops ds ∧ t = runQueue true ops { u with after := ds }) := by
  refine ⟨(exec_next_cases h).1, ?_⟩
  rcases exec_shape i s with ⟨f, e⟩ | e | ⟨u, ops, ds, e, x⟩ <;> rw [e] at h
  · cases h
  · rcases refuse_cases s with ⟨_, hr⟩ | ⟨_, hr⟩ <;> rw [hr] at h <;> cases h
    exact .inl rfl
  · rcases accept_cases u ops ds with ⟨_, ha⟩ | ⟨_, ha⟩ <;> rw [ha] at h <;> cases h
    exact .inr ⟨u, ops, ds, x, rfl⟩

/-- The invariant does not speak of `cmd_err` and of the command port. -/
theorem Inv.with_port {s : State} (h : Inv s) (ws : List CmdWord) : Inv { s with port := ws } := h

theorem Inv.with_cmdErr {s : State} (h : Inv s) (b : Bool) : Inv { s with cmdErr := b } := h

/-- A command's updates before its micro-sequence keep the fault registers consistent (R39, R214). -/
theorem Expansion.faultStateOk {s u : State} (x : Expansion s u) (h : faultStateOk s = true) :
    Machine.faultStateOk u = true := by
  rw [faultStateOk_iff] at h ⊢
  rw [x.halted, x.faultCode, x.uq]
  exact ⟨fun hh => by rw [x.playing hh]; exact h.1 hh, h.2⟩

/-- What a halted block can execute asks nothing of the environment (R267). -/
theorem Expands.noAsks {s u : State} {ops : List MicroOp} {ds : List Deferred} (x : Expands s u ops ds)
    (hh : s.halted = true) (hp : s.playing = false) : asksOf ops = [] := by
  obtain rfl | rfl := x.quiet hh hp <;> rfl

theorem exec_inv {i : Instr} {s t : State} (hi : Inv s) (h : exec i s = .next t) : Inv t := by
  obtain ⟨hidle, rfl | ⟨u, ops, ds, x, rfl⟩⟩ := exec_next_expands h
  · exact hi.with_cmdErr true
  · have e := x.updates
    obtain ⟨hu, _, hb⟩ := (idle_iff s).1 hidle
    obtain ⟨hl, hs, ht, _, hf⟩ := id hi
    refine runQueue_inv (s := { u with after := ds }) ?_ ?_ (e.tempo ht) (e.faultStateOk hf) (e.uq.trans hu) ?_
      x.clean.phase fun hh => ?_
    · rwa [e.params]
    · rw [e.params]; exact e.pattern hl hs
    · rw [e.busHeld, hb]; exact x.clean.bracketed
    · have hh' : s.halted = true := e.halted.symm.trans hh
      exact x.noAsks hh' (hi.quiet_of_halted hh').2

/-- While a command is in execution a step is one further attempt of its hold (R61, R87). -/
theorem step_eq_runQueue {s : State} (h : Inv s) (hu : s.uq ≠ []) :
    step s = .next (runQueue false s.uq { s with uq := [] }) := by
  obtain ⟨hw, hb, _⟩ := h.waiting hu
  rcases step_cases s with ⟨_, e⟩ | ⟨h0, _⟩ | ⟨_, _, _, h0, _⟩ | ⟨_, _, _, h0, _⟩
  · rw [e, resume, hw, hb]
    rfl
  all_goals exact absurd h0 hu

theorem resumed_inv {s : State} (h : Inv s) (hu : s.uq ≠ []) : Inv (runQueue false s.uq { s with uq := [] }) := by
  obtain ⟨hl, hs, ht, _, hf⟩ := id h
  obtain ⟨_, hb, hp, hh⟩ := h.waiting hu
  have hf' : faultStateOk { s with uq := [] } = true :=
    (faultStateOk_iff _).2 ⟨fun h1 => absurd (h1.symm.trans hh) (by decide), ((faultStateOk_iff s).1 hf).2⟩
  exact runQueue_inv hl hs ht hf' rfl hb hp fun h1 => absurd (h1.symm.trans hh) (by decide)

/-- Settles O52: a waiting command goes on in the executor, a word is run or refused on an idle block, and each of these
answers and keeps the invariant. -/
theorem everyStepKeepsTheInvariant : Obligations.EveryStepKeepsTheInvariant := by
  intro s h
  rcases step_cases s with ⟨hu, _⟩ | ⟨_, _, e⟩ | ⟨w, rest, i, hu, _, _, e⟩ | ⟨w, rest, _, hu, _, _, e⟩
  · exact ⟨_, step_eq_runQueue h hu, resumed_inv h hu⟩
  · exact ⟨s, e, h⟩
  · have h' := h.with_port rest
    obtain ⟨_, hs, ht, _, _⟩ := id h'
    obtain ⟨t, ht⟩ := exec_answers i (h'.idle hu) hs ht
    exact ⟨t, e.trans ht, exec_inv h' ht⟩
  · have h' := h.with_port rest
    exact ⟨_, e.trans (refuse_idle (h'.idle hu)), h'.with_cmdErr true⟩

/-! ### A halted block -/

/-- What a command does on a halted block that does not play: nothing at a device, whatever it writes in the store
(R231, R255, R267). -/
theorem exec_quiet_of_halted {i : Instr} {s t : State} (hh : s.halted = true) (hp : s.playing = false)
    (h : exec i s = .next t) :
    t.halted = true ∧ t.faultCode = s.faultCode ∧ t.playing = false ∧ t.stepPosition = s.stepPosition
      ∧ (t.trace = s.trace ∨ t.trace = s.trace ++ [.persist]) := by
  obtain ⟨_, rfl | ⟨u, ops, ds, x, rfl⟩⟩ := exec_next_expands h
  · exact ⟨hh, rfl, hp, rfl, .inl rfl⟩
  · have e := x.updates
    have hds : ds.count .advanceStep = 0 := by
      obtain rfl | rfl | ⟨hs, _⟩ := x.deferred
      · rfl
      · rfl
      · exact absurd (hs.symm.trans hp) (by decide)
    have hev : eventsOf u.env ops = [] ∨ eventsOf u.env ops = [.persist] := by
      obtain rfl | rfl := x.quiet hh hp
      · exact .inl rfl
      · exact .inr rfl
    rw [runQueue_favoured ops _ (by rw [x.noAsks hh hp]; rfl)]
    obtain ⟨fp, _, fh, fc, _, _, _, _, _, ft, _⟩ := finish_other (performed ops { u with after := ds })
    rw [fp, fh, fc, ft, finish_stepPosition, performed_trace, performed_other]
    simpa [hds, e.halted, hh, e.faultCode, e.playing hh, hp, e.stepPosition, e.trace] using hev

/-- Settles O50: a halted block has no command in execution, so its step takes no word, refuses one, or runs one of those
that touch no device. -/
theorem haltedBlockTouchesNoDevice : Obligations.HaltedBlockTouchesNoDevice := by
  intro s t hi hh h
  obtain ⟨hu, hp⟩ := hi.quiet_of_halted hh
  rcases step_cases s with ⟨hn, _⟩ | ⟨_, _, e⟩ | ⟨w, rest, i, _, _, _, e⟩ | ⟨w, rest, _, _, _, _, e⟩
  · exact absurd hu hn
  · rw [e] at h
    cases h
    exact ⟨hh, rfl, hp, rfl, .inl rfl⟩
  · exact exec_quiet_of_halted (s := { s with port := rest }) hh hp (e.symm.trans h)
  · rw [e, refuse_idle ((hi.with_port rest).idle hu)] at h
    cases h
    exact ⟨hh, rfl, hp, rfl, .inl rfl⟩

end Sys2Proof.Machine
end

section
/-! FRAME_RUNs one after another (R28, R203, R204, R209): a frame that completes advances the step exactly when the gate is
true, and a sequence that completes without a fault is made of frames that do. -/

namespace Sys2Proof.Machine

/-- Commands that all answer, the last of them complete, were asked between commands (R41, R79). -/
theorem execAll_uq_nil {is : List Instr} {s t : State} (h : execAll is s = .next t) (hu : t.uq = []) : s.uq = [] := by
  cases is with
  | nil => cases h; exact hu
  | cons i rest =>
    cases he : exec i s with
    | next u =>
      obtain ⟨hi, _⟩ := exec_next_cases he
      exact ((idle_iff s).1 hi).1
    | fault f => simp [execAll, he] at h
    | refused r => simp [execAll, he] at h

/-- No command ends a halt (R255). -/
theorem exec_stays_halted {i : Instr} {s t : State} (h : exec i s = .next t) (hh : s.halted = true) :
    t.halted = true := by
  rcases exec_keepsOrEntersFault h with ⟨e, _⟩ | ⟨_, e, _⟩
  · exact e.trans hh
  · exact e

theorem execAll_stays_halted {is : List Instr} {s t : State} (h : execAll is s = .next t) (hh : s.halted = true) :
    t.halted = true := by
  induction is generalizing s with
  | nil => cases h; exact hh
  | cons i rest ih =>
    cases he : exec i s with
    | next u =>
      simp only [execAll, he] at h
      exact ih h (exec_stays_halted he hh)
    | fault f => simp [execAll, he] at h
    | refused r => simp [execAll, he] at h

/-- The updates a playing FRAME_RUN defers (R203, R209): the step's where the gate is true, and the counter's. -/
def frameUpdates (s : State) : List Deferred :=
  if s.frameCounter % s.tempo.toNat = 0 then [.advanceStep, .tickFrame] else [.tickFrame]

theorem frameUpdates_count_tickFrame (s : State) : (frameUpdates s).count .tickFrame = 1 := by
  unfold frameUpdates
  split <;> rfl

theorem frameUpdates_count_advanceStep (s : State) :
    (frameUpdates s).count .advanceStep = if s.frameCounter % s.tempo.toNat = 0 then 1 else 0 := by
  unfold frameUpdates
  split <;> rfl

/-- What a playing FRAME_RUN that answers has the executor do (R204): whole brackets, the current step's dispatch or none,
and then its updates. -/
theorem execFrameRun_playing {s t : State} (hp : s.playing = true) (h : exec .frameRun s = .next t) :
    ∃ ops, IsClean ops ∧ t = runQueue true ops { s with after := frameUpdates s } := by
  have hi := (exec_next_cases h).1
  simp only [exec, execFrameRun, hp, if_true, tempoGate, decide_eq_true_eq] at h
  split at h
  · cases h
  · split at h
    · next hg =>
      split at h
      · rw [accept_idle hi] at h
        cases h
        exact ⟨_, isClean_stepDispatch _ _ _, by rw [frameUpdates, if_pos hg]⟩
      · cases h
    · next hg =>
      rw [accept_idle hi] at h
      cases h
      exact ⟨[], isClean_nil, by rw [frameUpdates, if_neg hg]⟩

/-- A playing FRAME_RUN that completes without a fault: one step further where the gate is true, and one frame counted
(R203, R204, R209). -/
theorem frameRun_completed {s u : State} (hp : s.playing = true) (h : exec .frameRun s = .next u) (hu : u.uq = [])
    (hh : u.halted = false) :
    u.idle = true ∧ u.playing = true ∧ u.tempo = s.tempo ∧ u.frameCounter = s.frameCounter + 1
      ∧ u.stepPosition.toNat
          = (s.stepPosition.toNat + if s.frameCounter % s.tempo.toNat = 0 then 1 else 0) % 16 := by
  obtain ⟨_, _, hb⟩ := (idle_iff s).1 (exec_next_cases h).1
  obtain ⟨ops, hc, rfl⟩ := execFrameRun_playing hp h
  have hr := runQueue_result true ops { s with after := frameUpdates s } (by rw [hb]; exact hc.bracketed)
  rcases hr with ⟨c, hbus⟩ | ⟨w, _⟩ | f
  · refine ⟨(idle_iff _).2 ⟨hu, c.after, hbus⟩, c.playing.trans hp, (runQueue_frame _ _ _).tempo, ?_, ?_⟩
    · rw [c.frameCounter, finish_frameCounter, frameUpdates_count_tickFrame]
    · simp [c.stepPosition, finish_stepPosition, frameUpdates_count_advanceStep, BitVec.toNat_add]
  · exact absurd w.hold (by simp [hu, startsWithHold])
  · exact absurd (hh.symm.trans f.halted) (by decide)

/-- Settles O40, by induction on the number of frames: each but the last is complete and not halted, since the next one is
accepted and a halt would last. -/
theorem stepAdvancesOncePerGatedFrame : Obligations.StepAdvancesOncePerGatedFrame := by
  intro n
  induction n with
  | zero =>
    intro s t _ hp h _ _
    cases h
    have := s.stepPosition.isLt
    exact ⟨by rw [gatedFrames]; omega, rfl, hp⟩
  | succ n ih =>
    intro s t _ hp h hu hh
    rw [List.replicate_succ, execAll] at h
    cases he : exec .frameRun s with
    | next u =>
      rw [he] at h
      have hhu : u.halted = false := Bool.eq_false_iff.2 fun h1 => by simp [execAll_stays_halted h h1] at hh
      obtain ⟨hui, hup, hut, huc, hus⟩ := frameRun_completed hp he (execAll_uq_nil h hu) hhu
      obtain ⟨h1, h2, h3⟩ := ih u t hui hup h hu hh
      rw [hut, huc] at h1
      refine ⟨?_, by omega, h3⟩
      rw [h1, hus, gatedFrames]
      omega
    | fault f => rw [he] at h; cases h
    | refused r => rw [he] at h; cases h

end Sys2Proof.Machine
end

section
/-! The devices' views of a trace (R44, R71, R80): an `ACQ` opens a new commit, and a further stretch of trace is read with
the address latches that the stretch before it left. -/

namespace Sys2Proof.Machine

/-- A bracket's writes begin with its ACQ, so what stands before it has no part in them (R80). -/
theorem mailboxCommits_append_acq (opened : List (CoAddr × Byte)) (t rest : List Event) :
    mailboxCommits opened (t ++ .acq :: rest) = mailboxCommits opened t ++ mailboxCommits [] rest := by
  induction t generalizing opened with
  | nil => rfl
  | cons e t ih => cases e <;> simp [mailboxCommits, ih]

/-- The writes of one bracket are committed together, in order, at its REL (R80). -/
theorem mailboxCommits_writes (opened writes : List (CoAddr × Byte)) :
    mailboxCommits opened (writes.map (fun x => .mbw x.1 x.2) ++ [.rel]) = [opened ++ writes] := by
  induction writes generalizing opened with
  | nil => simp [mailboxCommits]
  | cons x writes ih => simp [mailboxCommits, ih]

/-- The two address latches after a trace (R71). -/
def latchesAfter (latchA latchB : Option Byte) (t : List Event) : Option Byte × Option Byte :=
  match t with
  | [] => (latchA, latchB)
  | .fma .A r :: rest => latchesAfter (some r) latchB rest
  | .fma .B r :: rest => latchesAfter latchA (some r) rest
  | _ :: rest => latchesAfter latchA latchB rest

/-- The register writes of a longer trace: its second part is read with the latches the first part left (R71). -/
theorem fmRegisterWrites_append (la lb : Option Byte) (t rest : List Event) :
    fmRegisterWrites la lb (t ++ rest)
      = fmRegisterWrites la lb t
        ++ fmRegisterWrites (latchesAfter la lb t).1 (latchesAfter la lb t).2 rest := by
  induction t generalizing la lb with
  | nil => rfl
  | cons e t ih =>
    cases e with
    | fma p r => cases p <;> exact ih _ _
    | fmd p v => cases p <;> exact congrArg (List.cons _) (ih _ _)
    | _ => exact ih _ _

/-- One FM register write in its bracket reaches the register it names, whatever the latches held (R73). -/
theorem fmRegisterWrites_fmw (la lb : Option Byte) (p : Params) (part : Part) (r v : Byte) :
    fmRegisterWrites la lb (.acq :: fmwEvents p part r v ++ [.rel]) = [(part, some r, v)] := by
  cases part <;> rfl

/-- Settles O58: a bracket's commit and a register write do not depend on the trace before them. -/
theorem devicesSeeBracketsAndRegisterWrites : Obligations.DevicesSeeBracketsAndRegisterWrites := by
  refine fun t _ => ⟨fun writes => ?_, fun p part r v la lb => ?_⟩
  · rw [List.append_assoc, List.cons_append, mailboxCommits_append_acq, mailboxCommits_writes, List.nil_append]
  · rw [List.append_assoc, fmRegisterWrites_append, fmRegisterWrites_fmw]

end Sys2Proof.Machine
end

section
/-! Waiting for a command, the reset state, and the host's reads (R41, R46, R270 to R274). -/

namespace Sys2Proof.Machine

/-- Settles O9: of the four things a step can do, only waiting needs neither a queue nor a word. -/
theorem stepWaitsForACommand : Obligations.StepWaitsForACommand := by
  intro s hu hp
  rcases step_cases s with ⟨hn, _⟩ | ⟨_, _, e⟩ | ⟨w, rest, i, _, hw, _, _⟩ | ⟨w, rest, _, _, hw, _, _⟩
  · exact absurd hu hn
  · exact e
  all_goals exact absurd (hp.symm.trans hw) (by simp)

/-- A reset with legal parameters and a legal boot image meets the state invariant (R45, R271): its stores are the image's,
and its queue and fault registers are empty. -/
theorem boot_inv {p : Params} {b : BootImage} (hp : p.legal = true) (hb : b.legal p = true) : Inv (State.boot p b) := by
  obtain ⟨ht, hs⟩ := Bool.and_eq_true_iff.1 hb
  exact ⟨hp, hs, of_decide_eq_true ht, rfl, rfl⟩

/-- The empty trace keeps the protocols (R73, R86). -/
theorem boot_traceInv (p : Params) (b : BootImage) : TraceInv (State.boot p b) := ⟨rfl, rfl⟩

theorem reference_legal : Params.reference.legal = true ∧ BootImage.reference.legal Params.reference = true := by
  decide

/-- Settles O51: the reference reset is the reset with legal parameters and a legal image of its own. -/
theorem resetMeetsTheInvariants : Obligations.ResetMeetsTheInvariants :=
  ⟨⟨boot_inv reference_legal.1 reference_legal.2, boot_traceInv _ _⟩,
    fun p b hp hb => ⟨boot_inv hp hb, boot_traceInv p b⟩⟩

@[simp] theorem resultValue_some {n : Nat} (v : BitVec n) : resultValue (some v) = .ok v.toNat := rfl

@[simp] theorem resultValue_none {n : Nat} : resultValue (none : Option (BitVec n)) = .error .emptyResult := rfl

section
variable {s : State}

/-- Between commands a result register is read as it stands, with or without a value (R37, R46). -/
theorem hostRead_results (hu : s.uq = []) :
    hostRead .mapDiv s = resultValue s.mapDiv ∧ hostRead .mapBlock s = resultValue s.mapBlock
      ∧ hostRead .mapFnum s = resultValue s.mapFnum ∧ hostRead .meter s = resultValue s.meter := by
  simp [hostRead, hu]

/-- Between commands the five fields of a step are read, `fm_note` as a signed byte (R21 to R26, R46). -/
theorem hostRead_step (hu : s.uq = []) (k : BitVec 4) :
    hostRead (.gate k) s = .ok ((stepGet s.pattern.gate k).toNat : Int)
      ∧ hostRead (.accent k) s = .ok ((stepGet s.pattern.accent k).toNat : Int)
      ∧ hostRead (.speed k) s = .ok ((stepGet s.pattern.speed k).toNat : Int)
      ∧ hostRead (.psgNote k) s = .ok ((stepGet s.pattern.psgNote k).toNat : Int)
      ∧ hostRead (.fmNote k) s = .ok (stepGet s.pattern.fmNote k).toInt := by
  simp [hostRead, hu]

end

/-- Settles O57: with the queue empty the read goes to the element; a result register is read by whether it holds a
value. -/
theorem hostReadsEveryElement : Obligations.HostReadsEveryElement := by
  intro s hu
  obtain ⟨hd, hb, hf, hm⟩ := hostRead_results hu
  refine ⟨hostRead_step hu, ?_⟩
  rw [hd, hb, hf, hm]
  simp +contextual [hostRead, hu, bitValue]

end Sys2Proof.Machine
end

section
/-! The executor on whole commands (R61, R122, R184, R201, R203, R205): the micro-sequence of a composite command is those
of the commands it stands for, the accepting step runs it from its head, and its end makes the deferred updates. -/

namespace Sys2Proof.Machine

/-! ### The composites' micro-sequences -/

/-- A channel of the document is no reserved value of the operand (R107). -/
theorem fmChannel?_ofNat (c : Fin 6) : fmChannel? (BitVec.ofNat 3 c.val) = some c := by revert c; decide

/-- A tone channel the sequencer drives is not the reserved channel 3 (R107, R206). -/
theorem psgChannelBits_ne_three (p : Params) : psgChannelBits p ≠ 3 := by
  unfold psgChannelBits
  generalize p.psgChannel = c
  revert c
  decide

/-- The micro-sequences of one command for each voice channel and operator (R184). -/
theorem flatMap_forOperators (p : Params) (f : Fin 6 × BitVec 3 → BitVec 2 → Instr) (g : Instr → List MicroOp) :
    ((p.fmVoiceChannels.map fun c => (c, BitVec.ofNat 3 c.val)).flatMap fun c =>
        ([0, 1, 2, 3] : List (BitVec 2)).map fun o => f c o).flatMap g
      = forOperators p fun c o => g (f (c, BitVec.ofNat 3 c.val) o) := by
  simp [forOperators, operators, List.flatMap_assoc, List.flatMap_map]

/-- The micro-sequences of one command for each voice channel (R184). -/
theorem flatMap_forChannels (p : Params) (f : Fin 6 × BitVec 3 → Instr) (g : Instr → List MicroOp) :
    ((p.fmVoiceChannels.map fun c => (c, BitVec.ofNat 3 c.val)).map f).flatMap g
      = forChannels p fun c => g (f (c, BitVec.ofNat 3 c.val)) := by
  simp [forChannels, List.flatMap_map]

/-- FM_VOICE_LOAD is its list of commands (R184); the mask of R185 changes nothing. -/
theorem fmVoiceLoadOps_eq (p : Params) (x : Instrument) :
    fmVoiceLoadOps p x = (voiceCommands p x).flatMap (adapterOps p x) := by
  simp only [fmVoiceLoadOps, instrMasked_eq, voiceCommands, List.flatMap_append, flatMap_forOperators,
    flatMap_forChannels, List.flatMap_cons, List.flatMap_nil, List.append_nil, adapterOps, fmChannel?_ofNat,
    Option.map_some, Option.getD_some]
  rfl

/-- TONE_STEP is its list of commands (R206). -/
theorem toneStepOps_eq (p : Params) (x : Instrument) (n : Byte) :
    toneStepOps p n = (toneStepCommands p n).flatMap (adapterOps p x) := by
  have h3 : BitVec.ofNat 2 p.psgChannel.val ≠ 3 := psgChannelBits_ne_three p
  unfold toneStepOps toneStepCommands
  split <;> simp only [List.flatMap_cons, List.flatMap_nil, List.append_nil, adapterOps, psgChannelBits, if_neg h3]

/-- FM_STEP is its list of commands (R207). -/
theorem fmStepOps_eq (p : Params) (x : Instrument) (n : Int) :
    fmStepOps p n = (fmStepCommands p n).flatMap (adapterOps p x) := by
  unfold fmStepOps fmStepCommands
  split
  · simp [adapterOps, fmChannel?_ofNat]
  · split
    · rfl
    · simp [adapterOps, fmChannel?_ofNat]

/-- A gate within the kit selects an entry, unless it is 0 (R208). -/
theorem kitEntry?_eq {p : Params} {g : Byte} (h : g.toNat ≤ p.kitN) :
    kitEntry? p g = if g = 0 then none else some (p.kit.getD (g.toNat - 1) (0, 0)) := by
  unfold kitEntry?
  by_cases h0 : g = 0
  · simp [h0]
  · have hn : g.toNat ≠ 0 := fun h => h0 (BitVec.eq_of_toNat_eq h)
    have hlt : g.toNat - 1 < p.kit.length := by unfold Params.kitN at h; omega
    rw [if_neg hn, if_neg h0]
    simp [hlt]

/-- PCM_STEP is its list of commands (R208). -/
theorem pcmStepOps_eq {p : Params} (x : Instrument) {g : Byte} (a v : Byte) (h : g.toNat ≤ p.kitN) :
    pcmStepOps p (kitEntry? p g) a v = (pcmStepCommands p g a v).flatMap (adapterOps p x) := by
  have ha : a.extractLsb' 0 1 = a.setWidth 1 := (BitVec.setWidth_eq_extractLsb' (by decide)).symm
  rw [kitEntry?_eq h]
  unfold pcmStepCommands
  split
  · simp [pcmStepOps, adapterOps]
  · simp [pcmStepOps, adapterOps, ha]

/-- STEP_DISPATCH is its list of commands (R205). -/
theorem stepDispatchOps_eq {p : Params} (x : Instrument) {st : PatternStore} {k : BitVec 4}
    (h : stepDispatchable p st k = true) :
    stepDispatchOps p st k = (dispatchCommands p st k).flatMap (adapterOps p x) := by
  obtain ⟨_, _, hg, _⟩ := (stepDispatchable_iff p st k).1 h
  rw [stepDispatchOps, dispatchCommands, List.flatMap_append, List.flatMap_append, toneStepOps_eq p x, fmStepOps_eq p x,
    pcmStepOps_eq x _ _ hg]

/-! ### The accepting step -/

/-- An adapter command on an idle block that is not halted starts the executor on its micro-sequence. -/
theorem exec_adapter_runs {i : Instr} {s : State} (ha : i.isAdapter = true) (hw : i.wellFormed = true)
    (hi : s.idle = true) (hh : s.halted = false) :
    exec i s = .next (runQueue true (adapterOps s.params s.instr i) s) := by
  rw [exec_adapter ha hw]
  rcases acceptAdapter_cases s (adapterOps s.params s.instr i) with ⟨_, _, e⟩ | ⟨_, h, _⟩ | ⟨h, _⟩
  · exact e
  · exact absurd (h.symm.trans hh) (by decide)
  · exact absurd (h.symm.trans hi) (by decide)

/-- A FRAME_RUN that dispatches starts the executor on the dispatch, with its two updates deferred (R203, R204). -/
theorem exec_frameRun_runs {s : State} (hi : s.idle = true) (hp : s.playing = true) (ht : 1 ≤ s.tempo.toNat)
    (hg : s.frameCounter % s.tempo.toNat = 0) (hd : stepDispatchable s.params s.pattern s.stepPosition = true) :
    exec .frameRun s =
      .next (runQueue true (stepDispatchOps s.params s.pattern s.stepPosition)
        { s with after := [.advanceStep, .tickFrame] }) := by
  have ht0 : s.tempo ≠ 0 := fun h => by simp [h] at ht
  rw [exec, execFrameRun, if_pos hp, if_neg ht0, if_pos (by simpa [tempoGate] using hg), if_pos hd, accept_idle hi]

/-- A FRAME_IN whose chord stops the transport starts the executor on the stop actions, its registers written (R201). -/
theorem exec_frameIn_stops {b : Byte} {s : State} (hi : s.idle = true) (hp : s.playing = true)
    (hl : s.chordLatch = false) (hh : s.halted = false) (ha : b.getLsbD s.params.chordA.val = true)
    (hb : b.getLsbD s.params.chordB.val = true) :
    exec (.frameIn b) s =
      .next (runQueue true (onStopOps s.params s.instr) { s with
        press := b &&& ~~~s.prevButtons, prevButtons := b, chordLatch := true, playing := false }) := by
  have hc : chordDown s.params b = true := by simp [chordDown, ha, hb]
  have ht : togglesPlaying true s.chordLatch s.halted = true := by simp [togglesPlaying, hl, hh]
  have hn : chordLatchNext true s.chordLatch = true := by simp [chordLatchNext, hl]
  obtain ⟨hu, hnone, hbus⟩ := (idle_iff s).1 hi
  simp only [exec, execFrameIn, hc, ht, hn, hp, pressEdges, Bool.not_true, Bool.and_self, if_true]
  rw [hnone]
  refine accept_idle ?_ _ _
  exact (idle_iff _).2 ⟨hu, rfl, hbus⟩

/-! ### The end of a command -/

/-- The deferred updates, made one after another, write the two counters alone, each once for each of its updates. -/
theorem foldl_applyDeferred_eq (ds : List Deferred) (s : State) :
    ds.foldl (fun t d => applyDeferred d t) s = { s with
      stepPosition := s.stepPosition + BitVec.ofNat 4 (ds.count .advanceStep)
      frameCounter := s.frameCounter + ds.count .tickFrame } := by
  obtain ⟨hp, hc⟩ := foldl_applyDeferred_counts ds s
  rw [← hp, ← hc]
  clear hp hc
  induction ds generalizing s with
  | nil => rfl
  | cons d ds ih => rw [List.foldl_cons, ih]; cases d <;> rfl

/-- The end of a micro-sequence (R61, R203, R209): the step advances modulo 16. -/
theorem finish_eq (s : State) :
    finish s = { s with
      after := []
      stepPosition := BitVec.ofNat 4 ((s.stepPosition.toNat + s.after.count .advanceStep) % 16)
      frameCounter := s.frameCounter + s.after.count .tickFrame } := by
  have hp : s.stepPosition + BitVec.ofNat 4 (s.after.count .advanceStep)
      = BitVec.ofNat 4 ((s.stepPosition.toNat + s.after.count .advanceStep) % 16) := by
    apply BitVec.eq_of_toNat_eq
    simp [BitVec.toNat_add]
  rw [finish, foldl_applyDeferred_eq, hp]

/-- The hold at the head of the queue of a waiting command, with the bus free at an ACQ and held at an FMS (R62, R70,
R86). -/
theorem Inv.waits_at {s : State} (h : Inv s) (hu : s.uq ≠ []) :
    ∃ rest, (s.uq = .acq :: rest ∧ s.busHeld = false) ∨ (s.uq = .fms :: rest ∧ s.busHeld = true) := by
  obtain ⟨hw, hb, _⟩ := h.waiting hu
  cases hq : s.uq with
  | nil => exact absurd hq hu
  | cons m rest =>
    rw [hq] at hw hb
    cases m with
    | acq =>
      simp only [bracketed, Bool.and_eq_true, Bool.not_eq_true'] at hb
      exact ⟨rest, .inl ⟨rfl, hb.1⟩⟩
    | fms =>
      simp only [bracketed, Bool.and_eq_true] at hb
      exact ⟨rest, .inr ⟨rfl, hb.1⟩⟩
    | _ => cases hw

/-- Settles O59: the accepting steps, the composites, the resuming step and the end of a micro-sequence, each by its own
lemma. -/
theorem executorRunsTheMicroSequence : Obligations.ExecutorRunsTheMicroSequence :=
  ⟨fun _ hi => ⟨fun _ ha hw hh => exec_adapter_runs ha hw hi hh, fun hp ht hg hd => exec_frameRun_runs hi hp ht hg hd,
      fun _ hp hl hh ha hb => exec_frameIn_stops hi hp hl hh ha hb⟩,
    fun p x => ⟨fmVoiceLoadOps_eq p x, rfl, fun _ _ hd => stepDispatchOps_eq x hd⟩,
    fun _ h hu => ⟨h.waits_at hu, step_eq_runQueue h hu⟩,
    fun _ s => finish_eq s⟩

end Sys2Proof.Machine
end

section
/-! The trace protocol along a step (R73, R86, R286): a waiting command and an accepted one run the executor from a state in
protocol, and a refusal or a wait for a word records nothing. -/

namespace Sys2Proof.Machine

/-- The trace invariant is the protocol with nothing owed. -/
theorem traceInv_iff (s : State) : TraceInv s ↔ InProtocol .quiet s :=
  ⟨fun ⟨h, p⟩ => ⟨h, p⟩, fun h => ⟨h.held, h.phase⟩⟩

/-- The executor keeps the trace invariant on a micro-sequence that keeps the bracket discipline and the port-write
protocol. -/
theorem runQueue_traceInv {fresh : Bool} {ops : List MicroOp} {s : State} (hu : s.uq = [])
    (hb : bracketed s.busHeld ops = true) (hp : opPhaseAfter .quiet ops = some .quiet) (h : TraceInv s) :
    TraceInv (runQueue fresh ops s) :=
  (traceInv_iff _).2 (runQueue_protocol fresh ops s .quiet hu hb hp ((traceInv_iff s).1 h) fun _ => rfl).1

/-- A command that answers keeps the trace invariant: its micro-sequence is made of whole brackets. -/
theorem exec_traceInv {i : Instr} {s t : State} (h : TraceInv s) (he : exec i s = .next t) : TraceInv t := by
  obtain ⟨hi, rfl | ⟨u, ops, ds, x, rfl⟩⟩ := exec_next_expands he
  · exact h
  · obtain ⟨hu, _, hb⟩ := (idle_iff s).1 hi
    have e := x.updates
    have hbus : u.busHeld = false := e.busHeld.trans hb
    refine runQueue_traceInv (s := { u with after := ds }) (e.uq.trans hu) ?_ x.clean.phase ?_
    · rw [hbus]; exact x.clean.bracketed
    · unfold TraceInv at h ⊢
      rwa [e.trace, e.busHeld]

/-- Settles O53, by what a step can do. -/
theorem everyStepKeepsTheTraceProtocol : Obligations.EveryStepKeepsTheTraceProtocol := by
  intro s t hi h hs
  rcases step_cases s with ⟨hu, _⟩ | ⟨_, _, e⟩ | ⟨w, rest, i, _, _, _, e⟩ | ⟨w, rest, _, _, _, _, e⟩
  · obtain ⟨_, hb, hp, _⟩ := hi.waiting hu
    obtain ⟨_, rfl⟩ := step_waiting hu hs
    exact runQueue_traceInv rfl hb hp h
  · rw [e] at hs
    cases hs
    exact h
  · exact exec_traceInv (s := { s with port := rest }) h (e.symm.trans hs)
  · rw [e] at hs
    rcases refuse_cases { s with port := rest } with ⟨_, hr⟩ | ⟨_, hr⟩ <;> rw [hr] at hs <;> cases hs
    exact h

end Sys2Proof.Machine
end

section
/-! One micro-operation at the head of a micro-sequence (R62 to R72): what the executor makes of an ACQ that is granted,
denied or timed out, of an FMS that reads ready, busy or for the last time, and of every other micro-operation; and the word
a step takes from the command port. -/

namespace Sys2Proof.Machine

/-! ### Timeouts -/

/-- A timeout is not reached: it is infinite or still ahead (R253). -/
theorem timedOut_eq_false_iff {limit : Option Nat} {r : Nat} :
    timedOut limit r = false ↔ ∀ n, limit = some n → r < n := by
  cases limit <;> simp [timedOut]

/-- A timeout is reached (R253). -/
theorem timedOut_eq_true_iff {limit : Option Nat} {r : Nat} :
    timedOut limit r = true ↔ ∃ n, limit = some n ∧ n ≤ r := by
  cases limit <;> simp [timedOut]

/-! ### The two holds -/

section
variable (fresh : Bool) (rest : List MicroOp) {s : State}

theorem runQueue_acq_granted (hg : s.env.grant = true) :
    runQueue fresh (.acq :: rest) s = runQueue true rest { s with
      busRetry := if fresh then 0 else s.busRetry, busHeld := true, trace := s.trace ++ [.acq]
      env := s.env.afterGrant } := by
  rw [runQueue_cons, attempt, attemptAcq_granted fresh hg]

theorem runQueue_acq_waits (hg : s.env.grant = false)
    (ht : ∀ n, s.params.busTimeout = some n → (if fresh then 0 else s.busRetry) + 1 < n) :
    runQueue fresh (.acq :: rest) s = { s with
      busRetry := (if fresh then 0 else s.busRetry) + 1, uq := .acq :: rest, env := s.env.afterGrant } := by
  simp only [runQueue_cons, attempt, attemptAcq_denied fresh hg, timedOut_eq_false_iff.2 ht, Bool.false_eq_true, if_false]

theorem runQueue_acq_faults (hg : s.env.grant = false)
    (ht : ∃ n, s.params.busTimeout = some n ∧ n ≤ (if fresh then 0 else s.busRetry) + 1) :
    runQueue fresh (.acq :: rest) s = raiseFault .busContention { s with
      busRetry := (if fresh then 0 else s.busRetry) + 1, env := s.env.afterGrant } := by
  simp only [runQueue_cons, attempt, attemptAcq_denied fresh hg, timedOut_eq_true_iff.2 ht, if_true]

theorem runQueue_fms_ready (hb : s.env.busyAnswer = false) :
    runQueue fresh (.fms :: rest) s = runQueue true rest { s with
      fmRetry := if fresh then 0 else s.fmRetry, trace := s.trace ++ [.fms false], env := s.env.afterBusy } := by
  rw [runQueue_cons, attempt, attemptFms_ready fresh hb]

theorem runQueue_fms_waits (hb : s.env.busyAnswer = true)
    (ht : ∀ n, s.params.fmTimeout = some n → (if fresh then 0 else s.fmRetry) + 1 < n) :
    runQueue fresh (.fms :: rest) s = { s with
      fmRetry := (if fresh then 0 else s.fmRetry) + 1, trace := s.trace ++ [.fms true], uq := .fms :: rest
      env := s.env.afterBusy } := by
  simp only [runQueue_cons, attempt, attemptFms_busy fresh hb, timedOut_eq_false_iff.2 ht, Bool.false_eq_true, if_false]

theorem runQueue_fms_faults (hb : s.env.busyAnswer = true)
    (ht : ∃ n, s.params.fmTimeout = some n ∧ n ≤ (if fresh then 0 else s.fmRetry) + 1) :
    runQueue fresh (.fms :: rest) s = raiseFault .fmBusyTimeout { s with
      fmRetry := (if fresh then 0 else s.fmRetry) + 1, trace := s.trace ++ [.fms true], env := s.env.afterBusy } := by
  simp only [runQueue_cons, attempt, attemptFms_busy fresh hb, timedOut_eq_true_iff.2 ht, if_true]

end

/-- Settles O41: an attempt is granted, denied below the timeout, or denied at it. -/
theorem acquireWaitsUntilGranted : Obligations.AcquireWaitsUntilGranted :=
  fun fresh rest s => ⟨s.env.afterGrant, runQueue_acq_granted fresh rest, runQueue_acq_waits fresh rest,
    runQueue_acq_faults fresh rest⟩

/-- Settles O42: a read finds the chip ready, busy below the timeout, or busy at it. -/
theorem pollWaitsUntilNotBusy : Obligations.PollWaitsUntilNotBusy :=
  fun fresh rest s => ⟨s.env.afterBusy, runQueue_fms_ready fresh rest, runQueue_fms_waits fresh rest,
    runQueue_fms_faults fresh rest⟩

/-! ### The other micro-operations -/

/-- A micro-operation whose attempt is performed leaves the executor at the next one (R61). -/
theorem runQueue_of_done {fresh : Bool} {m : MicroOp} {s t : State} (rest : List MicroOp)
    (h : attempt fresh m s = .done t) : runQueue fresh (m :: rest) s = runQueue true rest t := by
  rw [runQueue_cons, h]

/-- Settles O43: the attempt of each of these micro-operations is performed, with its event. -/
theorem otherMicroOperationsNeverWait : Obligations.OtherMicroOperationsNeverWait :=
  fun _ rest s => ⟨runQueue_of_done rest rfl, fun _ _ => runQueue_of_done rest rfl,
    fun _ => ⟨s.env.afterMeter, runQueue_of_done rest rfl⟩, fun _ => runQueue_of_done rest rfl,
    fun _ _ => runQueue_of_done rest rfl, fun _ _ => runQueue_of_done rest rfl, fun _ => runQueue_of_done rest rfl,
    runQueue_of_done rest rfl⟩

/-! ### The word at the command port -/

/-- Settles O8: of the four things a step can do, only running the decoded word fits an empty `uq` and a word that
decodes. -/
theorem stepRunsTheDecodedCommand : Obligations.StepRunsTheDecodedCommand := by
  intro s w rest i hu hp hd
  rcases step_cases s with ⟨hn, _⟩ | ⟨_, h0, _⟩ | ⟨w', rest', i', _, hp', hd', e⟩ | ⟨w', rest', d, _, hp', hd', _⟩
  · exact absurd hu hn
  · rw [hp] at h0; cases h0
  · rw [hp] at hp'; cases hp'
    rw [hd] at hd'; cases hd'
    exact e
  · rw [hp] at hp'; cases hp'
    rw [hd] at hd'; cases hd'

end Sys2Proof.Machine
end

section
/-! Commands that meet an unfavourable answer at their first attempt (R61, R62, R70, R87, R201, R203, R253, R254): every
micro-sequence that needs the bus begins with an ACQ, and an FM command's goes on with an FMS, so a denied command waits with
its whole micro-sequence, or faults there. -/

namespace Sys2Proof.Machine

/-! ### What a micro-sequence begins with -/

theorem acq_begins_bracket (body : List MicroOp) : [.acq] <+: bracket body := ⟨_, rfl⟩

/-- A bracket that begins with an FM register write polls first (R73). -/
theorem poll_begins_fmw (p : Params) (part : Part) (r v : Byte) : [.acq, .fms] <+: bracket (fmw p part r v) := ⟨_, rfl⟩

/-- An FM command's micro-sequence on a channel that is no reserved value begins as its brackets do (R107). -/
theorem begins_onChannel {front : List MicroOp} {ch : BitVec 3} {f : Fin 6 → List MicroOp} (h : fmChannelOk ch = true)
    (hf : ∀ c, front <+: f c) : front <+: ((fmChannel? ch).map f).getD [] := by
  have h6 : ch.toNat < 6 := by simpa [fmChannelOk] using h
  rw [fmChannel?_ok h6]
  exact hf _

/-- Every adapter command acquires the bus first (R81). -/
theorem acq_begins_adapter (p : Params) (x : Instrument) {i : Instr} (ha : i.isAdapter = true)
    (hw : i.wellFormed = true) : [.acq] <+: adapterOps p x i := by
  cases i with
  | nop | setTempo | setGate | setAccent | setSpeed | setPsgnote | setFmnote | setInstr | frameIn | frameRun | mapDiv
  | mapFnum => cases ha
  | toneSet ch d =>
    rw [adapterOps, if_neg (bne_iff_ne.1 hw)]
    exact acq_begins_bracket _
  | fmDetmul | fmLevel | fmAttack | fmRelsus | fmDecam | fmFbalg | fmPanamsfms | fmPitch | fmKeyon | fmKeyoff =>
    exact begins_onChannel hw fun _ => acq_begins_bracket _
  | fmVoiceLoad => exact ⟨_, rfl⟩
  | _ => exact acq_begins_bracket _

/-- FM_LATCH polls after its ACQ unless FM_LATCH_SEQ is empty (R183). -/
theorem poll_begins_fmLatch {p : Params} (h : p.fmLatchSeq ≠ []) : [.acq, .fms] <+: fmLatchOps p := by
  obtain ⟨e, seq, hs⟩ := List.exists_cons_of_ne_nil h
  rw [fmLatchOps, hs]
  exact ⟨_, rfl⟩

/-- Every FM command but an empty FM_LATCH acquires the bus and then polls (R73, R183). -/
theorem poll_begins_fm (p : Params) (x : Instrument) {i : Instr} (hf : i.isFm = true) (hw : i.wellFormed = true)
    (hl : i = .fmLatch → p.fmLatchSeq ≠ []) : [.acq, .fms] <+: adapterOps p x i := by
  cases i with
  | fmLfo => exact poll_begins_fmw _ _ _ _
  | fmDetmul | fmLevel | fmAttack | fmRelsus | fmDecam | fmFbalg | fmPanamsfms | fmKeyon | fmKeyoff =>
    exact begins_onChannel hw fun _ => poll_begins_fmw _ _ _ _
  | fmPitch => exact begins_onChannel hw fun _ => ⟨_, rfl⟩
  | fmLatch => exact poll_begins_fmLatch (hl rfl)
  | fmVoiceLoad => exact ⟨_, rfl⟩
  | _ => cases hf

theorem isAdapter_of_isFm {i : Instr} (h : i.isFm = true) : i.isAdapter = true := by
  cases i <;> simp_all [Instr.isFm, Instr.isAdapter]

/-- A dispatch begins with TONE_STEP, which acquires the bus (R205, R206). -/
theorem acq_begins_stepDispatch (p : Params) (st : PatternStore) (k : BitVec 4) :
    [.acq] <+: stepDispatchOps p st k := by
  have tone : [.acq] <+: toneStepOps p (stepGet st.psgNote k) := by
    rw [toneStepOps]
    split
    · exact acq_begins_bracket _
    · exact ⟨_, rfl⟩
  rw [stepDispatchOps, List.append_assoc]
  exact tone.trans ⟨_, rfl⟩

/-- The stop actions, where there are any, begin with the first one's ACQ (R201). -/
theorem acq_begins_onStop {p : Params} (x : Instrument) (h : p.onStopActions ≠ [])
    (ha : p.onStopActions.all (fun i => i.isAdapter && i.wellFormed) = true) : [.acq] <+: onStopOps p x := by
  obtain ⟨i, is, hs⟩ := List.exists_cons_of_ne_nil h
  simp only [hs, List.all_cons, Bool.and_eq_true] at ha
  obtain ⟨⟨hi, hw⟩, _⟩ := ha
  rw [onStopOps, hs, List.flatMap_cons]
  exact (acq_begins_adapter p x hi hw).trans ⟨_, rfl⟩

/-! ### The first attempt denied -/

/-- Fault entry (R254), its update of `frame_counter` written as a sum. -/
theorem raiseFault_eq (f : FaultCause) (s : State) :
    raiseFault f s = { s with
      uq := []
      after := []
      halted := true
      playing := false
      faultCode := if s.halted then s.faultCode else faultCodeOf f
      frameCounter := s.frameCounter + if .tickFrame ∈ s.after then 1 else 0
      busHeld := false
      trace := if s.busHeld then s.trace ++ [.rel] else s.trace } := by
  rw [raiseFault_spec]
  by_cases h : Deferred.tickFrame ∈ s.after <;> simp [h]

/-- A micro-sequence denied the bus at its first attempt waits whole (R62, R87), or under BUS_TIMEOUT 1 faults there, with
the bus free and nothing recorded (R253, R254). -/
theorem runQueue_denied {ops : List MicroOp} {s : State} (ho : [.acq] <+: ops) (hg : s.env.grant = false)
    (hb : s.busHeld = false) (hh : s.halted = false) :
    ((∀ n, s.params.busTimeout = some n → 2 ≤ n) →
      runQueue true ops s = { s with uq := ops, busRetry := 1, env := s.env.afterGrant })
    ∧ (s.params.busTimeout = some 1 →
      runQueue true ops s = { s with
        uq := [], after := [], busRetry := 1, halted := true, faultCode := 1, playing := false
        frameCounter := s.frameCounter + if .tickFrame ∈ s.after then 1 else 0
        env := s.env.afterGrant }) := by
  obtain ⟨rest, rfl⟩ := ho
  refine ⟨runQueue_acq_waits true rest hg, fun ht => ?_⟩
  refine (runQueue_acq_faults true rest hg ⟨1, ht, Nat.le_refl 1⟩).trans ?_
  rw [raiseFault_eq]
  simp [hb, hh, faultCodeOf]

/-- Settles O44: each of the three kinds of command starts the executor on a micro-sequence that begins with an ACQ. -/
theorem adapterCommandsWaitForTheBus : Obligations.AdapterCommandsWaitForTheBus := by
  intro s hi hh hg
  obtain ⟨hu, ha, hb⟩ := (idle_iff s).1 hi
  refine ⟨s.env.afterGrant, fun i had hw => ?_, fun hp ht hf hd => ?_, fun b hp hl hca hcb hne hall => ?_⟩
  · rw [exec_adapter_runs had hw hi hh]
    obtain ⟨waits, faults⟩ := runQueue_denied (acq_begins_adapter s.params s.instr had hw) hg hb hh
    exact ⟨fun h => congrArg _ (waits h), fun h => by rw [faults h]; simp [ha, hu]⟩
  · rw [exec_frameRun_runs hi hp ht hf hd]
    obtain ⟨waits, faults⟩ := runQueue_denied (s := { s with after := [.advanceStep, .tickFrame] })
      (acq_begins_stepDispatch s.params s.pattern s.stepPosition) hg hb hh
    exact ⟨fun h => congrArg _ (waits h), fun h => by rw [faults h]; simp [ha, hu]⟩
  · rw [exec_frameIn_stops hi hp hl hh hca hcb]
    obtain ⟨waits, faults⟩ := runQueue_denied (s := { s with
      press := b &&& ~~~s.prevButtons, prevButtons := b, chordLatch := true, playing := false })
      (acq_begins_onStop s.instr hne hall) hg hb hh
    exact ⟨fun h => congrArg _ (waits h), fun h => by rw [faults h]; simp [ha, hu]⟩

/-! ### The first poll busy -/

/-- A micro-sequence that is granted the bus and reads busy at its first poll under FM_TIMEOUT 1 faults there, and the bus
is released (R70, R253, R254). -/
theorem runQueue_busy_faults {ops : List MicroOp} {s : State} (ho : [.acq, .fms] <+: ops) (hg : s.env.grant = true)
    (hb : s.env.afterGrant.busyAnswer = true) (ht : s.params.fmTimeout = some 1) (hh : s.halted = false) :
    runQueue true ops s = { s with
      uq := [], after := [], halted := true, faultCode := 2, playing := false
      frameCounter := s.frameCounter + if .tickFrame ∈ s.after then 1 else 0
      busHeld := false, trace := s.trace ++ [.acq, .fms true, .rel], busRetry := 0, fmRetry := 1
      env := s.env.afterGrant.afterBusy } := by
  obtain ⟨rest, rfl⟩ := ho
  refine (runQueue_acq_granted true (.fms :: rest) hg).trans ((runQueue_fms_faults true rest ?_ ?_).trans ?_)
  · exact hb
  · exact ⟨1, ht, Nat.le_refl 1⟩
  · rw [raiseFault_eq]
    simp [hh, faultCodeOf]

/-- Settles O48: an FM command's micro-sequence begins with an ACQ and an FMS. -/
theorem fmTimeoutReleasesTheBus : Obligations.FmTimeoutReleasesTheBus := by
  intro i s hf hw hl hi hh hg hb ht
  obtain ⟨hu, ha, hbus⟩ := (idle_iff s).1 hi
  refine ⟨s.env.afterGrant.afterBusy, ?_⟩
  rw [exec_adapter_runs (isAdapter_of_isFm hf) hw hi hh,
    runQueue_busy_faults (poll_begins_fm s.params s.instr hf hw hl) hg hb ht hh]
  simp [ha, hu, hbus]

end Sys2Proof.Machine
end

section
/-! A command that waits (R61, R62, R66, R67, R70, R87, R209, R253, R254): each further step is one more attempt of its hold,
so a run of denials or of busy answers counts them one by one; the answer that lifts the hold lets the command complete, and
the one that reaches the timeout is the fault. -/

namespace Sys2Proof.Machine

/-- The block waits at an ACQ, with the bus free; `rest` follows (R62, R86). -/
structure WaitsAtAcq (rest : List MicroOp) (s : State) : Prop where
  uq : s.uq = .acq :: rest
  free : s.busHeld = false
  bracketed : bracketed true rest = true

/-- The block waits at an FMS, with the bus held; `rest` follows (R70, R86). -/
structure WaitsAtFms (rest : List MicroOp) (s : State) : Prop where
  uq : s.uq = .fms :: rest
  held : s.busHeld = true
  bracketed : bracketed true rest = true

/-- A queue that begins with its hold and keeps the bracket discipline goes on in the executor (R61). -/
theorem step_resumes {s : State} (hw : startsWithHold s.uq = true) (hb : bracketed s.busHeld s.uq = true) :
    step s = .next (runQueue false s.uq { s with uq := [] }) := by
  have hne : s.uq ≠ [] := fun h => by simp [h, startsWithHold] at hw
  rcases step_cases s with ⟨_, e⟩ | ⟨h0, _⟩ | ⟨_, _, _, h0, _⟩ | ⟨_, _, _, h0, _⟩
  · rw [e, resume, hw, hb]
    rfl
  all_goals exact absurd h0 hne

section
variable {rest : List MicroOp} {s : State}

/-! ### One further attempt -/

theorem WaitsAtAcq.step (w : WaitsAtAcq rest s) :
    step s = .next (runQueue false (.acq :: rest) { s with uq := [] }) := by
  rw [step_resumes (by rw [w.uq]; rfl) (by simp [w.uq, w.free, w.bracketed, Machine.bracketed]), w.uq]

theorem WaitsAtAcq.step_granted (w : WaitsAtAcq rest s) (hg : s.env.grant = true) :
    Machine.step s = .next (runQueue true rest { s with
      uq := [], busHeld := true, trace := s.trace ++ [.acq], env := s.env.afterGrant }) :=
  w.step.trans (congrArg _ (runQueue_acq_granted false rest hg))

theorem WaitsAtAcq.step_denied (w : WaitsAtAcq rest s) (hg : s.env.grant = false)
    (ht : ∀ n, s.params.busTimeout = some n → s.busRetry + 1 < n) :
    Machine.step s = .next { s with busRetry := s.busRetry + 1, env := s.env.afterGrant } := by
  rw [w.uq]
  exact w.step.trans (congrArg _ (runQueue_acq_waits false rest hg ht))

theorem WaitsAtAcq.step_faults (w : WaitsAtAcq rest s) (hg : s.env.grant = false)
    (ht : s.params.busTimeout = some (s.busRetry + 1)) :
    Machine.step s =
      .next (raiseFault .busContention { s with uq := [], busRetry := s.busRetry + 1, env := s.env.afterGrant }) :=
  w.step.trans (congrArg _ (runQueue_acq_faults false rest hg ⟨_, ht, Nat.le_refl _⟩))

theorem WaitsAtFms.step (w : WaitsAtFms rest s) :
    step s = .next (runQueue false (.fms :: rest) { s with uq := [] }) := by
  rw [step_resumes (by rw [w.uq]; rfl) (by simp [w.uq, w.held, w.bracketed, Machine.bracketed]), w.uq]

theorem WaitsAtFms.step_ready (w : WaitsAtFms rest s) (hb : s.env.busyAnswer = false) :
    Machine.step s = .next (runQueue true rest { s with
      uq := [], trace := s.trace ++ [.fms false], env := s.env.afterBusy }) :=
  w.step.trans (congrArg _ (runQueue_fms_ready false rest hb))

theorem WaitsAtFms.step_busy (w : WaitsAtFms rest s) (hb : s.env.busyAnswer = true)
    (ht : ∀ n, s.params.fmTimeout = some n → s.fmRetry + 1 < n) :
    Machine.step s = .next { s with
      fmRetry := s.fmRetry + 1, trace := s.trace ++ [.fms true], env := s.env.afterBusy } := by
  rw [w.uq]
  exact w.step.trans (congrArg _ (runQueue_fms_waits false rest hb ht))

theorem WaitsAtFms.step_faults (w : WaitsAtFms rest s) (hb : s.env.busyAnswer = true)
    (ht : s.params.fmTimeout = some (s.fmRetry + 1)) :
    Machine.step s = .next (raiseFault .fmBusyTimeout { s with
      uq := [], fmRetry := s.fmRetry + 1, trace := s.trace ++ [.fms true], env := s.env.afterBusy }) :=
  w.step.trans (congrArg _ (runQueue_fms_faults false rest hb ⟨_, ht, Nat.le_refl _⟩))

/-! ### Many unfavourable answers -/

/-- The state after `j` denials of the ACQ the block waits at (R62, R66). -/
def afterDenials (j : Nat) (s : State) : State :=
  { s with busRetry := s.busRetry + j
           env := { s.env with grants := s.env.grants.drop j, asked := s.env.asked + j } }

/-- The state after `j` busy answers to the FMS the block waits at (R67, R70). -/
def afterBusyReads (j : Nat) (s : State) : State :=
  { s with fmRetry := s.fmRetry + j
           trace := s.trace ++ List.replicate j (.fms true)
           env := { s.env with busy := s.env.busy.drop j, asked := s.env.asked + j } }

theorem WaitsAtAcq.afterDenials (w : WaitsAtAcq rest s) (j : Nat) : WaitsAtAcq rest (afterDenials j s) :=
  ⟨w.uq, w.free, w.bracketed⟩

theorem WaitsAtFms.afterBusyReads (w : WaitsAtFms rest s) (j : Nat) : WaitsAtFms rest (afterBusyReads j s) :=
  ⟨w.uq, w.held, w.bracketed⟩

theorem afterDenials_succ (j : Nat) (s : State) :
    afterDenials (j + 1) s = { afterDenials j s with
      busRetry := (afterDenials j s).busRetry + 1, env := (afterDenials j s).env.afterGrant } := by
  simp [afterDenials, Env.afterGrant, Nat.add_assoc]

theorem afterBusyReads_succ (j : Nat) (s : State) :
    afterBusyReads (j + 1) s = { afterBusyReads j s with
      fmRetry := (afterBusyReads j s).fmRetry + 1, trace := (afterBusyReads j s).trace ++ [.fms true]
      env := (afterBusyReads j s).env.afterBusy } := by
  simp [afterBusyReads, Env.afterBusy, Nat.add_assoc, List.replicate_succ']

/-- The answer to the attempt after `j` denials is the script's element `j` (log entry 2). -/
theorem afterDenials_grant {j : Nat} {b : Bool} (h : s.env.grants[j]? = some b) : (afterDenials j s).env.grant = b := by
  simp [afterDenials, Env.grant, List.headD_eq_head?_getD, h]

theorem afterBusyReads_busyAnswer {j : Nat} {b : Bool} (h : s.env.busy[j]? = some b) :
    (afterBusyReads j s).env.busyAnswer = b := by
  simp [afterBusyReads, Env.busyAnswer, List.headD_eq_head?_getD, h]

/-- A run through states each of which steps to the next one. -/
theorem run_of_steps {f : Nat → State} {k : Nat} (h : ∀ j, j < k → Machine.step (f j) = .next (f (j + 1))) {j : Nat}
    (hj : j ≤ k) : Host.Core.run Sys2Proof.core j (f 0) = .next (f j) := by
  induction j with
  | zero => rfl
  | succ j ih => exact (run_succ (ih (by omega))).trans (h j hj)

/-- While it is denied below the timeout, the block waits at its ACQ and counts (R62, R87). -/
theorem WaitsAtAcq.run_denied (w : WaitsAtAcq rest s) {k : Nat} (hg : ∀ j, j < k → s.env.grants[j]? = some false)
    (ht : ∀ n, s.params.busTimeout = some n → s.busRetry + k < n) {j : Nat} (hj : j ≤ k) :
    Host.Core.run Sys2Proof.core j s = .next (Machine.afterDenials j s) := by
  refine run_of_steps (f := fun j => Machine.afterDenials j s) (fun j hj => ?_) hj
  simp only [afterDenials_succ]
  refine (w.afterDenials j).step_denied (afterDenials_grant (hg j hj)) fun n hn => ?_
  have := ht n hn
  simp only [Machine.afterDenials]
  omega

/-- While the chip is busy below the timeout, the block waits at its FMS, counts and records (R70, R87). -/
theorem WaitsAtFms.run_busy (w : WaitsAtFms rest s) {k : Nat} (hb : ∀ j, j < k → s.env.busy[j]? = some true)
    (ht : ∀ n, s.params.fmTimeout = some n → s.fmRetry + k < n) {j : Nat} (hj : j ≤ k) :
    Host.Core.run Sys2Proof.core j s = .next (Machine.afterBusyReads j s) := by
  have h0 : Machine.afterBusyReads 0 s = s := by simp [Machine.afterBusyReads]
  have h := run_of_steps (f := fun j => Machine.afterBusyReads j s) (k := k) (fun j hj => ?_) hj
  · rwa [h0] at h
  simp only [afterBusyReads_succ]
  refine (w.afterBusyReads j).step_busy (afterBusyReads_busyAnswer (hb j hj)) fun n hn => ?_
  have := ht n hn
  simp only [Machine.afterBusyReads]
  omega

/-- The first `k` answers of a script that begins with `k` equal ones. -/
theorem getElem?_replicate_append {b : Bool} {k j : Nat} (later : List Bool) (hj : j < k) :
    (List.replicate k b ++ later)[j]? = some b := by
  rw [List.getElem?_append_left (by simpa using hj), List.getElem?_replicate, if_pos hj]

/-- The answer after them. -/
theorem getElem?_replicate_append_cons {b c : Bool} (k : Nat) (later : List Bool) :
    (List.replicate k b ++ c :: later)[k]? = some c := by
  rw [List.getElem?_append_right (by simp)]
  simp

/-! ### The answer that lifts the hold -/

/-- From a state `x` in which the hold is lifted the command completes where its other holds are lifted at once (R61, R203,
R209): `s` is the state before the hold, and `es` are the events since. -/
theorem completes_of_lifted {x u : State} {es : List Event} (hx : step x = .next (runQueue true rest u))
    (hu : u = { s with
      uq := [], busHeld := true, trace := s.trace ++ es, busRetry := u.busRetry, fmRetry := u.fmRetry, env := u.env })
    (hb : bracketed true rest = true) (hf : u.env.favours (asksOf rest) = true)
    (hm : ∀ a, .mbr a ∈ rest → .mbr a ∈ s.uq) :
    ∃ t, step x = .next t ∧ CompletesWith (es ++ eventsOf u.env rest) s t := by
  refine ⟨_, hx.trans (congrArg _ (runQueue_favoured rest u hf)), ?_, fun h => ?_⟩
  · have hbus : (performed rest u).busHeld = false := performed_busHeld rest u (by rw [hu]; exact hb)
    have htr : (performed rest u).trace = s.trace ++ (es ++ eventsOf u.env rest) := by
      rw [performed_trace, ← List.append_assoc]
      congr 1
      rw [hu]
    rw [finish_eq, performed_other, hbus, htr]
    generalize performed rest u = v
    rw [hu]
  · obtain ⟨_, hfin, _⟩ := finish_other (performed rest u)
    rw [hfin, performed_meter rest u fun a ha => h a (hm a ha), hu]

end

/-- Settles O45: the run of unfavourable answers, and then the step of the answer that lifts the hold. -/
theorem waitingCommandCompletesAfterTheGrant : Obligations.WaitingCommandCompletesAfterTheGrant := by
  intro k s rest
  constructor
  · intro gs granted hu hf hb ht hg hfav
    have w : WaitsAtAcq rest s := ⟨hu, hf, hb⟩
    have hrun {j : Nat} (hj : j ≤ k) := w.run_denied (fun j hj => by rw [hg]; exact getElem?_replicate_append _ hj) ht hj
    have henv : (afterDenials k s).env.afterGrant = granted := by simp [granted, afterDenials, Env.afterGrant, hg]
    have hstep := (w.afterDenials k).step_granted
      (afterDenials_grant (by rw [hg]; exact getElem?_replicate_append_cons k gs))
    rw [henv] at hstep
    obtain ⟨t, hnext, hc⟩ := completes_of_lifted (s := s) (es := [.acq]) hstep rfl w.bracketed hfav
      fun a ha => by rw [hu]; exact List.mem_cons_of_mem _ ha
    exact ⟨fun j hj => hrun hj, t, (run_succ (hrun (Nat.le_refl k))).trans hnext, hc⟩
  · intro bs ready hu hh hb ht hbs hfav
    have w : WaitsAtFms rest s := ⟨hu, hh, hb⟩
    have hrun {j : Nat} (hj : j ≤ k) := w.run_busy (fun j hj => by rw [hbs]; exact getElem?_replicate_append _ hj) ht hj
    have henv : (afterBusyReads k s).env.afterBusy = ready := by simp [ready, afterBusyReads, Env.afterBusy, hbs]
    have hstep := (w.afterBusyReads k).step_ready
      (afterBusyReads_busyAnswer (by rw [hbs]; exact getElem?_replicate_append_cons k bs))
    rw [henv] at hstep
    obtain ⟨t, hnext, hc⟩ := completes_of_lifted (s := s) (es := List.replicate k (.fms true) ++ [.fms false]) hstep
      (by simp [afterBusyReads, hh]) w.bracketed hfav fun a ha => by rw [hu]; exact List.mem_cons_of_mem _ ha
    rw [List.append_assoc] at hc
    exact ⟨fun j hj => hrun hj, t, (run_succ (hrun (Nat.le_refl k))).trans hnext, hc⟩

/-! ### The answer that reaches the timeout -/

/-- Settles O60: the run of the unfavourable answers below the timeout, and then the step of the one that reaches it. -/
theorem waitingHoldFaultsAtItsTimeout : Obligations.WaitingHoldFaultsAtItsTimeout := by
  intro k n s rest later fault
  constructor
  · rintro hu hf hb ht rfl hg
    have w : WaitsAtAcq rest s := ⟨hu, hf, hb⟩
    have hdenied {j : Nat} (hj : j < k + 1) : s.env.grants[j]? = some false := by
      rw [hg]; exact getElem?_replicate_append _ hj
    have hrun {j : Nat} (hj : j ≤ k) := w.run_denied (fun j hj => hdenied (by omega))
      (fun m hm => by rw [ht] at hm; cases hm; omega) hj
    have hstep := (w.afterDenials k).step_faults (afterDenials_grant (hdenied (Nat.lt_succ_self k))) ht
    refine ⟨fun j hj => ⟨_, hrun hj⟩, (afterDenials k s).env.afterGrant,
      (run_succ (hrun (Nat.le_refl k))).trans (hstep.trans (congrArg _ ?_))⟩
    rw [raiseFault_eq]
    simp [fault, afterDenials, hf, faultCodeOf, Nat.add_assoc]
  · rintro hu hh hb ht rfl hbs
    have w : WaitsAtFms rest s := ⟨hu, hh, hb⟩
    have hbusy {j : Nat} (hj : j < k + 1) : s.env.busy[j]? = some true := by
      rw [hbs]; exact getElem?_replicate_append _ hj
    have hrun {j : Nat} (hj : j ≤ k) := w.run_busy (fun j hj => hbusy (by omega))
      (fun m hm => by rw [ht] at hm; cases hm; omega) hj
    have hstep := (w.afterBusyReads k).step_faults (afterBusyReads_busyAnswer (hbusy (Nat.lt_succ_self k))) ht
    refine ⟨fun j hj => ⟨_, hrun hj⟩, (afterBusyReads k s).env.afterBusy,
      (run_succ (hrun (Nat.le_refl k))).trans (hstep.trans (congrArg _ ?_))⟩
    rw [raiseFault_eq]
    simp [fault, afterBusyReads, hh, faultCodeOf, Nat.add_assoc, List.replicate_succ']

end Sys2Proof.Machine
end

section
/-! The decoder in the steps of R120: the opcode's row of R102, the operands of that row read from the word (R101, R103), and
the check for reserved values (R107). Round trip, unused bits and refusals then follow row by row. -/

namespace Sys2Proof

open Laws

/-! ### The rows of the opcode table -/

/-- The opcode values in no row of R102 (R105). -/
@[reducible] def ReservedOpcode (op : Nat) : Prop :=
  (0x08 ≤ op ∧ op ≤ 0x0D) ∨ (0x17 ≤ op ∧ op ≤ 0x1F) ∨ (0x23 ≤ op ∧ op ≤ 0x2F) ∨ (0x3D ≤ op ∧ op ≤ 0x3F)
    ∨ (0x42 ≤ op ∧ op ≤ 0xFF)

/-- One command of each row of R102. -/
def tableRows : List Instr :=
  [.nop, .setTempo 0, .setGate 0 0, .setAccent 0 0, .setSpeed 0 0, .setPsgnote 0 0, .setFmnote 0 0, .setInstr 0 0 0,
    .frameIn 0, .frameRun, .pcmPlay, .pcmStop, .pcmRegion 0 0, .pcmAccent 0, .pcmSpeed 0, .pcmBank 0, .pcmMeter,
    .toneSet 0 0, .toneEnv 0 0, .toneNoise 0 0, .fmLfo 0 0, .fmDetmul 0 0 0 0, .fmLevel 0 0 0, .fmAttack 0 0 0,
    .fmRelsus 0 0 0 0, .fmDecam 0 0 0 0, .fmFbalg 0 0 0, .fmPanamsfms 0 0 0 0, .fmPitch 0 0 0, .fmKeyon 0, .fmKeyoff 0,
    .fmLatch, .fmVoiceLoad, .mapDiv 0, .mapFnum 0]

/-- Every opcode value is reserved or that of a row. -/
theorem reserved_or_row (op : Byte) : ReservedOpcode op.toNat ∨ ∃ i ∈ tableRows, op = tableOpcode i := by
  revert op
  decide

/-! ### The decoder, row by row -/

/-- The command of `i`'s row with its operands read from `w` (R101, R103); the index of a scalar SET_INSTR is read as 0
(log entry 7). -/
def readOperands (w : CmdWord) : Instr → Instr
  | .nop => .nop
  | .setTempo _ => .setTempo (bits 0 8 w)
  | .setGate _ _ => .setGate (bits 16 4 w) (bits 0 8 w)
  | .setAccent _ _ => .setAccent (bits 16 4 w) (bits 0 8 w)
  | .setSpeed _ _ => .setSpeed (bits 16 4 w) (bits 0 8 w)
  | .setPsgnote _ _ => .setPsgnote (bits 16 4 w) (bits 0 8 w)
  | .setFmnote _ _ => .setFmnote (bits 16 4 w) (bits 0 8 w)
  | .setInstr _ _ _ => .setInstr (bits 16 8 w) (if bits 16 8 w = 4 then bits 8 5 w else 0) (bits 0 8 w)
  | .frameIn _ => .frameIn (bits 0 8 w)
  | .frameRun => .frameRun
  | .pcmPlay => .pcmPlay
  | .pcmStop => .pcmStop
  | .pcmRegion _ _ => .pcmRegion (bits 16 16 w) (bits 0 16 w)
  | .pcmAccent _ => .pcmAccent (bits 0 1 w)
  | .pcmSpeed _ => .pcmSpeed (bits 0 8 w)
  | .pcmBank _ => .pcmBank (bits 0 24 w)
  | .pcmMeter => .pcmMeter
  | .toneSet _ _ => .toneSet (bits 16 2 w) (bits 0 10 w)
  | .toneEnv _ _ => .toneEnv (bits 16 2 w) (bits 0 4 w)
  | .toneNoise _ _ => .toneNoise (bits 2 1 w) (bits 0 2 w)
  | .fmLfo _ _ => .fmLfo (bits 3 1 w) (bits 0 3 w)
  | .fmDetmul _ _ _ _ => .fmDetmul (bits 24 3 w) (bits 16 2 w) (bits 4 3 w) (bits 0 4 w)
  | .fmLevel _ _ _ => .fmLevel (bits 24 3 w) (bits 16 2 w) (bits 0 7 w)
  | .fmAttack _ _ _ => .fmAttack (bits 24 3 w) (bits 16 2 w) (bits 0 5 w)
  | .fmRelsus _ _ _ _ => .fmRelsus (bits 24 3 w) (bits 16 2 w) (bits 0 4 w) (bits 4 4 w)
  | .fmDecam _ _ _ _ => .fmDecam (bits 24 3 w) (bits 16 2 w) (bits 0 5 w) (bits 7 1 w)
  | .fmFbalg _ _ _ => .fmFbalg (bits 24 3 w) (bits 3 3 w) (bits 0 3 w)
  | .fmPanamsfms _ _ _ _ => .fmPanamsfms (bits 24 3 w) (bits 6 2 w) (bits 4 2 w) (bits 0 3 w)
  | .fmPitch _ _ _ => .fmPitch (bits 24 3 w) (bits 11 3 w) (bits 0 11 w)
  | .fmKeyon _ => .fmKeyon (bits 24 3 w)
  | .fmKeyoff _ => .fmKeyoff (bits 24 3 w)
  | .fmLatch => .fmLatch
  | .fmVoiceLoad => .fmVoiceLoad
  | .mapDiv _ => .mapDiv (bits 0 8 w)
  | .mapFnum _ => .mapFnum (bits 0 16 w)

/-- Why a command with a reserved operand is rejected (R107): a SET_INSTR for its field or its slot, an FM command or a
TONE_SET for its channel. No other row has reserved values, so the last line is never asked. -/
def reservedOperand : Instr → DecodeError
  | .setInstr field idx _ => if field.toNat ≥ 15 then .reservedField field else .reservedSlot idx
  | .toneSet ch _ => .reservedChannel ch.toNat
  | .fmDetmul ch _ _ _ | .fmLevel ch _ _ | .fmAttack ch _ _ | .fmRelsus ch _ _ _ | .fmDecam ch _ _ _ | .fmFbalg ch _ _
  | .fmPanamsfms ch _ _ _ | .fmPitch ch _ _ | .fmKeyon ch | .fmKeyoff ch => .reservedChannel ch.toNat
  | _ => .reservedChannel 0

/-- Step (4) of R120: a command is handed on when it holds no reserved value (R107). -/
def checkOperands (i : Instr) : Except DecodeError Instr :=
  if i.wellFormed then .ok i else .error (reservedOperand i)

theorem checkOperands_ok {i : Instr} (h : i.wellFormed = true) : checkOperands i = .ok i := if_pos h

theorem checkOperands_reserved {i : Instr} (h : i.wellFormed = false) :
    checkOperands i = .error (reservedOperand i) := if_neg (by simp [h])

theorem wellFormed_of_checkOperands {i j : Instr} (h : checkOperands i = .ok j) : j.wellFormed = true := by
  unfold checkOperands at h
  split at h
  next hw => cases h; exact hw
  next => cases h

theorem reservedOperand_ne_reservedOpcode (i : Instr) (op : Byte) : reservedOperand i ≠ .reservedOpcode op := by
  unfold reservedOperand
  split
  · split <;> exact fun h => nomatch h
  all_goals exact fun h => nomatch h

/-- The check never blames the opcode. -/
theorem checkOperands_ne_reservedOpcode (i : Instr) (op : Byte) : checkOperands i ≠ .error (.reservedOpcode op) := by
  unfold checkOperands
  split
  · exact fun h => nomatch h
  · exact fun h => reservedOperand_ne_reservedOpcode i op (Except.error.inj h)

/-- SET_INSTR's own reading of its operands is such a check (R107; log entry 7). -/
theorem decodeSetInstr_eq (field : BitVec 8) (idx : BitVec 5) (v : Byte) :
    decodeSetInstr field idx v = checkOperands (.setInstr field (if field = 4 then idx else 0) v) := by
  simp only [decodeSetInstr, checkOperands, Instr.wellFormed, setInstrOk, reservedOperand]
  by_cases hf : field.toNat ≥ 15
  · simp [hf]
  · by_cases h4 : field = 4
    · subst h4
      by_cases hi : idx.toNat ≥ 24 <;> simp [hi, Nat.lt_of_not_le]
    · simp only [hf, h4, if_false, Nat.lt_of_not_le hf]
      rfl

/-- So is TONE_SET's own rejection of channel 3 (R107). -/
theorem decodeToneSet_eq (ch : BitVec 2) (divider : BitVec 10) :
    (if ch = 3 then .error (.reservedChannel 3) else .ok (.toneSet ch divider)) = checkOperands (.toneSet ch divider) := by
  by_cases h : ch = 3
  · subst h; rfl
  · rw [if_neg h, checkOperands_ok (i := .toneSet ch divider) (bne_iff_ne.2 h)]

/-- A word of `i`'s row decodes to the command its operands give, checked (R120). In the FM rows the decoder's channel test
is the check, and the rows without reserved values pass it. -/
theorem decode_of_row (i : Instr) {w : CmdWord} (h : opcodeField w = tableOpcode i) :
    decode w = checkOperands (readOperands w i) := by
  rw [decode, h]
  cases i with
  | setInstr => exact decodeSetInstr_eq _ _ _
  | toneSet => exact decodeToneSet_eq _ _
  | _ => rfl

/-- The same for a word whose opcode is in no row (R105). -/
theorem decode_of_reservedOpcode {w : CmdWord} (h : ReservedOpcode (opcodeField w).toNat) :
    decode w = .error (.reservedOpcode (opcodeField w)) := by
  unfold ReservedOpcode at h
  unfold decode
  split
  case h_36 => rfl
  all_goals omega

/-- Everything the decoder can meet: a reserved opcode, or a row of the table. -/
theorem decode_cases (w : CmdWord) :
    (ReservedOpcode (opcodeField w).toNat ∧ decode w = .error (.reservedOpcode (opcodeField w)))
      ∨ ∃ i, opcodeField w = tableOpcode i ∧ decode w = checkOperands (readOperands w i) :=
  (reserved_or_row (opcodeField w)).imp (fun h => ⟨h, decode_of_reservedOpcode h⟩)
    fun ⟨i, _, h⟩ => ⟨i, h, decode_of_row i h⟩

/-- R105, both ways: no row blames the opcode. -/
theorem decode_eq_reservedOpcode_iff (w : CmdWord) :
    ReservedOpcode (opcodeField w).toNat ↔ decode w = .error (.reservedOpcode (opcodeField w)) := by
  refine ⟨decode_of_reservedOpcode, fun h => ?_⟩
  rcases decode_cases w with ⟨hr, _⟩ | ⟨i, _, e⟩
  · exact hr
  · exact absurd (e.symm.trans h) (checkOperands_ne_reservedOpcode _ _)

/-- Settles O2: the check of R107 is the last step of every row. -/
theorem decodedCommandsAreWellFormed : Obligations.DecodedCommandsAreWellFormed := by
  intro w j h
  rcases decode_cases w with ⟨_, e⟩ | ⟨i, _, e⟩ <;> rw [e] at h
  · cases h
  · exact wellFormed_of_checkOperands h

/-! ### The encoder, row by row -/

/-- The encoder writes the row's opcode (R102). -/
theorem opcodeField_encode : ∀ i, opcodeField (encode i) = tableOpcode i
  | .nop => EncodeOpcode.nop | .setTempo _ => EncodeOpcode.setTempo _ | .setGate _ _ => EncodeOpcode.setGate _ _
  | .setAccent _ _ => EncodeOpcode.setAccent _ _ | .setSpeed _ _ => EncodeOpcode.setSpeed _ _
  | .setPsgnote _ _ => EncodeOpcode.setPsgnote _ _ | .setFmnote _ _ => EncodeOpcode.setFmnote _ _
  | .setInstr _ _ _ => EncodeOpcode.setInstr _ _ _ | .frameIn _ => EncodeOpcode.frameIn _
  | .frameRun => EncodeOpcode.frameRun | .pcmPlay => EncodeOpcode.pcmPlay | .pcmStop => EncodeOpcode.pcmStop
  | .pcmRegion _ _ => EncodeOpcode.pcmRegion _ _ | .pcmAccent _ => EncodeOpcode.pcmAccent _
  | .pcmSpeed _ => EncodeOpcode.pcmSpeed _ | .pcmBank _ => EncodeOpcode.pcmBank _ | .pcmMeter => EncodeOpcode.pcmMeter
  | .toneSet _ _ => EncodeOpcode.toneSet _ _ | .toneEnv _ _ => EncodeOpcode.toneEnv _ _
  | .toneNoise _ _ => EncodeOpcode.toneNoise _ _ | .fmLfo _ _ => EncodeOpcode.fmLfo _ _
  | .fmDetmul _ _ _ _ => EncodeOpcode.fmDetmul _ _ _ _ | .fmLevel _ _ _ => EncodeOpcode.fmLevel _ _ _
  | .fmAttack _ _ _ => EncodeOpcode.fmAttack _ _ _ | .fmRelsus _ _ _ _ => EncodeOpcode.fmRelsus _ _ _ _
  | .fmDecam _ _ _ _ => EncodeOpcode.fmDecam _ _ _ _ | .fmFbalg _ _ _ => EncodeOpcode.fmFbalg _ _ _
  | .fmPanamsfms _ _ _ _ => EncodeOpcode.fmPanamsfms _ _ _ _ | .fmPitch _ _ _ => EncodeOpcode.fmPitch _ _ _
  | .fmKeyon _ => EncodeOpcode.fmKeyon _ | .fmKeyoff _ => EncodeOpcode.fmKeyoff _ | .fmLatch => EncodeOpcode.fmLatch
  | .fmVoiceLoad => EncodeOpcode.fmVoiceLoad | .mapDiv _ => EncodeOpcode.mapDiv _
  | .mapFnum _ => EncodeOpcode.mapFnum _

/-- The index of a well-formed SET_INSTR is what the decoder reads from its word (R121, log entry 7). -/
theorem readIndex_of_setInstrOk {field : BitVec 8} {idx : BitVec 5} (h : setInstrOk field idx = true) :
    (if field = 4 then idx else 0) = idx := by
  simp only [setInstrOk, Bool.and_eq_true] at h
  split <;> simp_all

/-- Every row reads its operands from where the encoder placed them, and nothing of what stands beside them (R101, R103). -/
theorem readOperands_encode {i : Instr} (h : i.wellFormed = true) : readOperands (encode i) i = i := by
  cases i <;> simp (disch := omega) only [encode, readOperands, bits_or, bits_opWord, bits_place_same,
    bits_place_disjoint, BitVec.zero_or, BitVec.or_zero, BitVec.ofNat_eq_ofNat]
  case setInstr field idx v => exact congrArg (Instr.setInstr field · v) (readIndex_of_setInstrOk h)

/-- Settles O1: the encoder writes the opcode of the row and every operand where the row reads it. -/
theorem decodeOfEncodeGivesTheCommand : Obligations.DecodeOfEncodeGivesTheCommand := by
  intro i h
  rw [decode_of_row i (opcodeField_encode i), readOperands_encode h, checkOperands_ok h]

theorem decode_of_encode_eq {w : CmdWord} {i : Instr} (h : i.wellFormed = true) (hw : encode i = w) : decode w = .ok i :=
  hw ▸ decodeOfEncodeGivesTheCommand i h

/-- Settles O7: each word is the one the encoder writes for its command. -/
theorem sampleWordsDecode : Obligations.SampleWordsDecode :=
  ⟨decode_of_encode_eq rfl (by decide), decode_of_encode_eq rfl (by decide), decode_of_encode_eq rfl (by decide),
    decode_of_encode_eq rfl (by decide), decode_of_encode_eq rfl (by decide), decode_of_encode_eq rfl (by decide),
    decode_of_encode_eq rfl (by decide)⟩

/-! ### Unused operand bits -/

/-- The bits that a row's operands are read from are used bits, so words that agree on those give the same command. -/
theorem readOperands_congr {w w' : CmdWord} (i : Instr)
    (h : w &&& usedBits (tableOpcode i) = w' &&& usedBits (tableOpcode i)) : readOperands w i = readOperands w' i := by
  cases i <;> simp only [tableOpcode] at h <;> simp (disch := decide) only [readOperands, bits_eq_of_and_eq (h := h)]

/-- What the encoder places stands in the opcode's bits and the used bits of the row. -/
theorem encode_unused (i : Instr) : encode i &&& ~~~(usedBits (tableOpcode i) ||| 0xFF00000000) = 0 := by
  cases i <;> simp (disch := decide) only [encode, opWord, tableOpcode, BitVec.and_or_distrib_right, place_and_not,
    BitVec.or_zero, BitVec.ofNat_eq_ofNat]

/-- Settles O3: a row reads only its used bits, and the encoder writes only there. -/
theorem unusedOperandBitsAreIgnored : Obligations.UnusedOperandBitsAreIgnored := by
  refine ⟨fun w w' hop h => ?_, fun i => by rw [opcodeField_encode]; exact encode_unused i⟩
  rcases decode_cases w with ⟨hr, e⟩ | ⟨i, hi, e⟩
  · rw [e, hop, decode_of_reservedOpcode (hop ▸ hr)]
  · rw [hi] at h
    rw [e, decode_of_row i (hop ▸ hi), readOperands_congr i h]

/-! ### Reserved field values in a word -/

theorem decode_error_of_row (i : Instr) {w : CmdWord} (h : opcodeField w = tableOpcode i)
    (hw : (readOperands w i).wellFormed = false) : ∃ e, decode w = .error e :=
  ⟨_, (decode_of_row i h).trans (checkOperands_reserved hw)⟩

/-- The rows 0x31 to 0x3A are those whose channel field is checked (R107). -/
theorem wellFormed_readOperands_channel {i : Instr} (w : CmdWord) (h1 : 0x31 ≤ (tableOpcode i).toNat)
    (h2 : (tableOpcode i).toNat ≤ 0x3A) : (readOperands w i).wellFormed = fmChannelOk (bits 24 3 w) := by
  cases i with
  | fmDetmul | fmLevel | fmAttack | fmRelsus | fmDecam | fmFbalg | fmPanamsfms | fmPitch | fmKeyon | fmKeyoff => rfl
  | _ => simp [tableOpcode] at h1 h2

theorem fmChannelOk_reserved {ch : BitVec 3} (h : 6 ≤ ch.toNat) : fmChannelOk ch = false :=
  decide_eq_false (Nat.not_lt.2 h)

theorem setInstrOk_reservedField {field : BitVec 8} (idx : BitVec 5) (h : 15 ≤ field.toNat) :
    setInstrOk field idx = false := by
  simp [setInstrOk, Nat.not_lt.2 h]

theorem setInstrOk_reservedSlot {idx : BitVec 5} (h : 24 ≤ idx.toNat) : setInstrOk 4 idx = false := by
  simpa [setInstrOk] using h

/-- The decoder's rows of R107. -/
theorem decode_rejects_reservedOperands (w : CmdWord) :
    (opcodeField w = 0x20 → bits 16 2 w = 3 → ∃ e, decode w = .error e)
    ∧ (0x31 ≤ (opcodeField w).toNat → (opcodeField w).toNat ≤ 0x3A → 6 ≤ (bits 24 3 w).toNat → ∃ e, decode w = .error e)
    ∧ (opcodeField w = 0x07 → 15 ≤ (bits 16 8 w).toNat → ∃ e, decode w = .error e)
    ∧ (opcodeField w = 0x07 → bits 16 8 w = 4 → 24 ≤ (bits 8 5 w).toNat → ∃ e, decode w = .error e) := by
  refine ⟨fun h hc => ?_, fun h1 h2 hc => ?_, fun h hf => ?_, fun h h4 hi => ?_⟩
  · exact decode_error_of_row (.toneSet 0 0) h (bne_eq_false_iff_eq.2 hc)
  · rcases decode_cases w with ⟨_, e⟩ | ⟨i, hi, _⟩
    · exact ⟨_, e⟩
    · rw [hi] at h1 h2
      exact decode_error_of_row i hi ((wellFormed_readOperands_channel w h1 h2).trans (fmChannelOk_reserved hc))
  · exact decode_error_of_row (.setInstr 0 0 0) h (setInstrOk_reservedField _ hf)
  · refine decode_error_of_row (.setInstr 0 0 0) h ?_
    rw [readOperands, h4, if_pos rfl]
    exact setInstrOk_reservedSlot hi

end Sys2Proof

namespace Sys2Proof.Machine

/-! ### Reserved operands in the meanings -/

theorem instrField?_reserved {field : BitVec 8} (h : 15 ≤ field.toNat) : instrField? field = none := by
  unfold instrField?
  split
  case h_16 => rfl
  all_goals omega

theorem exec_setInstr_reservedField {field : BitVec 8} (idx : BitVec 5) (v : Byte) (s : State) (h : 15 ≤ field.toNat) :
    exec (.setInstr field idx v) s = refuse s := by
  show execSetInstr field idx v s = refuse s
  rw [execSetInstr, instrField?_reserved h]

theorem exec_setInstr_reservedSlot {idx : BitVec 5} (v : Byte) (s : State) (h : 24 ≤ idx.toNat) :
    exec (.setInstr 4 idx v) s = refuse s := by
  show execSetInstr 4 idx v s = refuse s
  rw [execSetInstr, levelSlot?_reserved h]
  rfl

theorem exec_mapDiv_reserved {note : Byte} {s : State} (h : note.toNat = 0 ∨ note.toNat > s.params.psgNoteMax.toNat) :
    exec (.mapDiv note) s = refuse s := if_pos h

/-- A halted block refuses every adapter command, whatever its operands hold (R107, R267). -/
theorem exec_adapter_halted {i : Instr} {s : State} (ha : i.isAdapter = true) (hh : s.halted = true) :
    exec i s = refuse s := by
  cases hw : i.wellFormed with
  | false => exact exec_adapter_reserved ha hw s
  | true => rw [exec_adapter ha hw, acceptAdapter, if_pos hh]

/-- Settles O5: the decoder's rows of R107, then those of the meanings, each of which refuses. -/
theorem reservedFieldValuesAreRefused : Obligations.ReservedFieldValuesAreRefused := by
  refine ⟨decode_rejects_reservedOperands, fun s hi => ?_⟩
  have refused {i : Instr} (h : exec i s = refuse s) : exec i s = .next { s with cmdErr := true } :=
    h.trans (refuse_idle hi)
  refine ⟨fun d => refused (exec_adapter_reserved rfl rfl s), fun ch h6 => ?_,
    fun _ idx v hf => refused (exec_setInstr_reservedField idx v s hf),
    fun _ v hx => refused (exec_setInstr_reservedSlot v s hx), fun _ hn => refused (exec_mapDiv_reserved hn),
    fun _ ha hh => refused (exec_adapter_halted ha hh)⟩
  have onChannel {i : Instr} (ha : i.isAdapter = true) (hw : i.wellFormed = fmChannelOk ch) :
      exec i s = .next { s with cmdErr := true } :=
    refused (exec_adapter_reserved ha (hw.trans (fmChannelOk_reserved h6)) s)
  exact ⟨fun _ _ _ => onChannel rfl rfl, fun _ _ => onChannel rfl rfl, fun _ _ => onChannel rfl rfl,
    fun _ _ _ => onChannel rfl rfl, fun _ _ _ => onChannel rfl rfl, fun _ _ => onChannel rfl rfl,
    fun _ _ _ => onChannel rfl rfl, fun _ _ => onChannel rfl rfl, onChannel rfl rfl, onChannel rfl rfl⟩

/-! ### A rejected word at the command port -/

/-- Settles O6: of the four things a step can do, only refusing the word fits an idle block and a word that does not
decode. -/
theorem rejectedWordSetsCmdErrAlone : Obligations.RejectedWordSetsCmdErrAlone := by
  intro s w rest e hi hp hd
  rcases step_cases s with ⟨hn, _⟩ | ⟨_, h0, _⟩ | ⟨w', rest', i, _, hp', hd', _⟩ | ⟨w', rest', d, _, hp', _, hs⟩
  · exact absurd ((idle_iff s).1 hi).1 hn
  · rw [hp] at h0; cases h0
  · rw [hp] at hp'; cases hp'
    rw [hd] at hd'; cases hd'
  · rw [hp] at hp'; cases hp'
    exact hs.trans (refuse_idle hi)

/-- Settles O4: the decoder blames the opcode exactly where it is in no row, and every rejected word is refused (O6). -/
theorem reservedOpcodesAreRefused : Obligations.ReservedOpcodesAreRefused := fun w =>
  ⟨decode_eq_reservedOpcode_iff w, fun s rest hd hi hp => rejectedWordSetsCmdErrAlone s w rest _ hi hp hd⟩

end Sys2Proof.Machine
end

section
/-! The mappers (R130 to R135): the octave's range checks are one division, the FM clamp one natural note, and each mapper
command is its mapper's value in a result register. -/

namespace Sys2Proof.Machine

open Laws

/-! ### The words and the ends of the commands -/

/-- The words of a row decode to the command its operands give, when the check for reserved values passes (R107, R120). -/
theorem decodesTo_of_row {op : Byte} {f : CmdWord → Instr} (i : Instr) (hop : tableOpcode i = op)
    (hf : ∀ w, checkOperands (readOperands w i) = .ok (f w)) : DecodesTo op f :=
  fun w hw => (decode_of_row i (hw.trans hop.symm)).trans (hf w)

/-- MAP_DIV of a note in range (R131). -/
theorem exec_mapDiv_accepted {note : Byte} {s : State} (hi : s.idle = true) (h1 : 1 ≤ note.toNat)
    (h2 : note.toNat ≤ s.params.psgNoteMax.toNat) :
    exec (.mapDiv note) s = .next { s with mapDiv := some (noteToDivider s.params note) } :=
  calc exec (.mapDiv note) s
      = accept { s with mapDiv := some (noteToDivider s.params note) } [] [] := if_neg (by omega)
    _ = .next { s with mapDiv := some (noteToDivider s.params note) } := accept_nothing hi

/-- MAP_FNUM of any operand (R134). -/
theorem exec_mapFnum_accepted (note : BitVec 16) {s : State} (hi : s.idle = true) :
    exec (.mapFnum note) s =
      .next { s with mapBlock := some (noteToBlockFnum s.params note.toInt).1
                     mapFnum := some (noteToBlockFnum s.params note.toInt).2 } :=
  accept_nothing (s := { s with mapBlock := _, mapFnum := _ }) hi

/-! ### The Tone Mapper -/

/-- The range checks of R130 count whole octaves, and stop at 5. -/
theorem toneOctave_eq (idx : Nat) : toneOctave idx = min (idx / 12) 5 := by
  unfold toneOctave
  split_ifs <;> omega

theorem noteToDivider_eq (p : Params) (note : Byte) :
    noteToDivider p note =
      p.toneBase[(note.toNat - 1) % 12]'(Nat.mod_lt _ (by decide)) >>> min ((note.toNat - 1) / 12) 5 := by
  rw [noteToDivider, toneOctave_eq]

/-- The shift of R130 is a truncating division. -/
theorem noteToDivider_toNat (p : Params) (note : Byte) :
    (noteToDivider p note).toNat =
      (p.toneBase[(note.toNat - 1) % 12]'(Nat.mod_lt _ (by decide))).toNat / 2 ^ min ((note.toNat - 1) / 12) 5 := by
  rw [noteToDivider_eq, BitVec.toNat_ushiftRight, Nat.shiftRight_eq_div_pow]

/-- An octave up the base divider is the same and the shift is no smaller (R132). -/
theorem noteToDivider_octave_le (p : Params) {note higher : Byte} (h1 : 1 ≤ note.toNat)
    (h : higher.toNat = note.toNat + 12) : (noteToDivider p higher).toNat ≤ (noteToDivider p note).toNat := by
  have hrem : (higher.toNat - 1) % 12 = (note.toNat - 1) % 12 := by omega
  have hoct : min ((note.toNat - 1) / 12) 5 ≤ min ((higher.toNat - 1) / 12) 5 := by omega
  rw [noteToDivider_toNat, noteToDivider_toNat]
  simp only [hrem]
  exact Nat.div_le_div_left (Nat.pow_le_pow_right (by decide) hoct) (Nat.two_pow_pos _)

/-- Settles O16: the two arms of MAP_DIV, and its shift as a division. -/
theorem mapDivHalvesTheBaseDividerPerOctave : Obligations.MapDivHalvesTheBaseDividerPerOctave :=
  ⟨decodesTo_of_row (.mapDiv 0) rfl fun _ => rfl, fun note s hi =>
    ⟨fun h => (exec_mapDiv_reserved h).trans (refuse_idle hi), fun h1 h2 =>
      ⟨noteToDivider s.params note, exec_mapDiv_accepted hi h1 h2, noteToDivider_toNat s.params note⟩⟩⟩

/-- Settles O17: the mapper in closed form, and its comparison an octave up. -/
theorem toneMapperIsNonIncreasingInOctave : Obligations.ToneMapperIsNonIncreasingInOctave := fun p note h1 _ =>
  ⟨noteToDivider_eq p note, fun _ h _ => noteToDivider_octave_le p h1 h⟩

/-! ### The FM Pitch Mapper -/

/-- The block of a note that is already clamped: its octave less one, clamped to 0..7 (R133). -/
def fmBlock (n : Nat) : BitVec 3 := narrow 3 (clamp ((n / 12 : Nat) - 1) 0 7)

/-- The two clamps of R133 on the block, in natural numbers. -/
theorem fmBlock_toNat (n : Nat) : (fmBlock n).toNat = min 7 (n / 12 - 1) := by
  obtain ⟨hlo, hhi⟩ := clamp_bounds (v := (n / 12 : Nat) - 1) (lo := 0) (hi := 7) (by decide)
  rw [fmBlock, narrow_toNat hlo (by omega)]
  unfold clamp
  split_ifs <;> omega

theorem fmBlock_mono {m n : Nat} (h : m ≤ n) : (fmBlock m).toNat ≤ (fmBlock n).toNat := by
  have hoct : m / 12 ≤ n / 12 := Nat.div_le_div_right h
  rw [fmBlock_toNat, fmBlock_toNat]
  omega

/-- The clamped note is never negative, since `FM_NOTE_MIN` is not (R133). -/
theorem clamp_fmNote_nonneg (p : Params) (note : Int) : 0 ≤ clamp note p.fmNoteMin p.fmNoteMax := by
  unfold clamp
  split_ifs <;> omega

/-- The mapper's pair, by the natural note its clamp gives (R133). -/
theorem noteToBlockFnum_of_clamp {p : Params} {note : Int} {n : Nat} (h : clamp note p.fmNoteMin p.fmNoteMax = n) :
    noteToBlockFnum p note = (fmBlock n, p.fnumTable[n % 12]'(Nat.mod_lt _ (by decide))) := by
  obtain rfl : n = (clamp note p.fmNoteMin p.fmNoteMax).toNat := by rw [h, Int.toNat_natCast]
  rfl

/-- In the supported range the clamp does nothing (R135). -/
theorem noteToBlockFnum_of_mem {p : Params} {n : Nat} (h1 : p.fmNoteMin ≤ n) (h2 : n ≤ p.fmNoteMax) :
    noteToBlockFnum p n = (fmBlock n, p.fnumTable[n % 12]'(Nat.mod_lt _ (by decide))) :=
  noteToBlockFnum_of_clamp (clamp_of_mem (Int.ofNat_le.2 h1) (Int.ofNat_le.2 h2))

/-- Settles O18: the clamped note is a natural number, whose block and table entry the mapper gives. -/
theorem mapFnumGivesBlockAndFnum : Obligations.MapFnumGivesBlockAndFnum := by
  refine ⟨decodesTo_of_row (.mapFnum 0) rfl fun _ => rfl, fun p note => ?_, fun note s hi => exec_mapFnum_accepted note hi⟩
  obtain ⟨n, hn⟩ := Int.eq_ofNat_of_zero_le (clamp_fmNote_nonneg p note)
  refine ⟨n, fmBlock n, hn.symm, ?_, noteToBlockFnum_of_clamp hn⟩
  rw [fmBlock_toNat]
  omega

/-- Settles O19: two notes of the supported range are their own clamps, and the block follows the octave. -/
theorem fmPitchMapperIsMonotone : Obligations.FmPitchMapperIsMonotone := by
  intro p m n h1 h h2
  rw [noteToBlockFnum_of_mem h1 (h.trans h2), noteToBlockFnum_of_mem (h1.trans h) h2]
  exact ⟨rfl, fmBlock_mono h, Nat.le_of_lt_succ (fmBlock n).isLt⟩

end Sys2Proof.Machine
end

section
/-! The PCM adapter (R140 to R147): an adapter command on a block whose environment answers favourably completes in one
step, with the events of its micro-sequence; the bytes of the PCM commands are the specification's arithmetic. -/

namespace Sys2Proof.Machine

open Laws

/-! ### An adapter command whose every hold is lifted at once -/

/-- A micro-sequence asks for a status read exactly where it polls (R67). -/
theorem fm_mem_asksOf_iff (ops : List MicroOp) : Ask.fm ∈ asksOf ops ↔ MicroOp.fms ∈ ops := by
  induction ops with
  | nil => simp [asksOf]
  | cons m rest ih => cases m <;> simp [asksOf, ih]

/-- A micro-sequence asks for the level meter exactly where it reads it (R68). -/
theorem meter_mem_asksOf_iff (ops : List MicroOp) : Ask.meter ∈ asksOf ops ↔ ∃ a, MicroOp.mbr a ∈ ops := by
  induction ops with
  | nil => simp [asksOf]
  | cons m rest ih => cases m <;> simp [asksOf, ih]

section
variable {i : Instr} {s : State}

/-- What a well-formed adapter command leaves on a block that is ready for everything it asks (R61, R81): its events in
the trace, the counters of its holds at 0, and the meter as its micro-sequence leaves it. -/
theorem exec_adapter_ready (ha : i.isAdapter = true) (hw : i.wellFormed = true)
    (hs : s.Ready (asksOf (adapterOps s.params s.instr i))) :
    exec i s =
      .next { s with
        trace := s.trace ++ eventsOf s.env (adapterOps s.params s.instr i)
        meter := (performed (adapterOps s.params s.instr i) s).meter
        busRetry := 0
        fmRetry := if Ask.fm ∈ asksOf (adapterOps s.params s.instr i) then 0 else s.fmRetry
        env := s.env.afterAsks (asksOf (adapterOps s.params s.instr i)) } := by
  obtain ⟨hi, hh, hf⟩ := hs
  obtain ⟨_, _, hfree⟩ := (idle_iff s).1 hi
  have hbus : (performed (adapterOps s.params s.instr i) s).busHeld = s.busHeld :=
    (performed_busHeld _ s (hfree ▸ (isClean_adapter _ _ i).bracketed)).trans hfree.symm
  have hacq : MicroOp.acq ∈ adapterOps s.params s.instr i :=
    (acq_begins_adapter _ _ ha hw).subset List.mem_cons_self
  rw [exec_adapter ha hw, acceptAdapter_favoured hi hh hf, performed_other, performed_trace, performed_env,
    hbus, performed_busRetry, if_pos hacq, performed_fmRetry]
  simp only [fm_mem_asksOf_iff]

/-- An adapter command that asks for the bus alone, the bus granted at once, changes nothing but the trace and the
bus's retry counter (R62, R69). -/
theorem exec_adapter_granted (ha : i.isAdapter = true) (hw : i.wellFormed = true)
    (hq : asksOf (adapterOps s.params s.instr i) = [.bus]) (hs : s.Ready [.bus]) :
    exec i s =
      .next { s with
        trace := s.trace ++ eventsOf s.env (adapterOps s.params s.instr i)
        busRetry := 0
        env := s.env.afterGrant } := by
  have hm : ∀ a, MicroOp.mbr a ∉ adapterOps s.params s.instr i :=
    not_exists.1 (mt (meter_mem_asksOf_iff _).2 (by simp [hq]))
  rw [exec_adapter_ready ha hw (hq ▸ hs), performed_meter _ s hm, hq]
  rfl

end

/-! ### The bytes of the PCM commands -/

/-- Byte `k` of a quantity is its quotient by `256 ^ k`, modulo 256 (R74). -/
theorem byteOf_eq {n : Nat} (k : Nat) (x : BitVec n) : byteOf k x = BitVec.ofNat 8 (x.toNat / 256 ^ k) := by
  rw [byteOf, BitVec.extractLsb', Nat.shiftRight_eq_div_pow, Nat.pow_mul]

/-- The same with the bytes above it cut off first. -/
theorem byteOf_eq_mod {n : Nat} (k : Nat) (x : BitVec n) :
    byteOf k x = BitVec.ofNat 8 (x.toNat / 256 ^ k % 256) := by
  rw [byteOf_eq]
  exact BitVec.eq_of_toNat_eq (by simp)

theorem byteOf_zero {n : Nat} (x : BitVec n) : byteOf 0 x = BitVec.ofNat 8 (x.toNat % 256) := by
  simpa using byteOf_eq_mod 0 x

/-- The preset byte by the operand's value (R117, R144). -/
theorem accentByte_eq (p : Params) (b : BitVec 1) :
    accentByte p b = if b.toNat = 0 then p.accentByte0 else p.accentByte1 := by
  obtain rfl | rfl : b = 0 ∨ b = 1 := by revert b; decide
  · rfl
  · rfl

/-- A speed is sent as it is, but 0 as 1 (R145). -/
theorem speedByte_eq (v : Byte) : speedByte v = if v.toNat = 0 then 1 else v := by
  have hv := v.isLt
  apply BitVec.eq_of_toNat_eq
  rw [speedByte, clampTo_toNat (by decide) (by decide) (by decide)]
  split
  next h0 => rw [h0]; rfl
  next h0 => rw [clamp_of_mem (by omega) (by omega), Int.toNat_natCast]

/-! ### The commands -/

/-- Settles O20: both commands ask for the bus alone. -/
theorem pcmPlayAndStopWriteTheFlags : Obligations.PcmPlayAndStopWriteTheFlags :=
  ⟨decodesTo_of_row .pcmPlay rfl fun _ => rfl, decodesTo_of_row .pcmStop rfl fun _ => rfl, fun _ hs =>
    ⟨⟨_, exec_adapter_granted rfl rfl rfl hs⟩, ⟨_, exec_adapter_granted rfl rfl rfl hs⟩⟩⟩

/-- Settles O21: the command asks for the bus alone, and its bytes are the quotients of its operands. -/
theorem pcmRegionWritesFourBytes : Obligations.PcmRegionWritesFourBytes := by
  refine ⟨decodesTo_of_row (.pcmRegion 0 0) rfl fun _ => rfl, fun start length s hs => ⟨s.env.afterGrant, ?_⟩⟩
  have high (x : BitVec 16) : BitVec.ofNat 8 (x.toNat / 256) = byteOf 1 x := (byteOf_eq 1 x).symm
  rw [← byteOf_zero, ← byteOf_zero, high, high]
  exact exec_adapter_granted rfl rfl rfl hs

/-- Settles O22: both commands ask for the bus alone, and send the preset byte and the clamped speed. -/
theorem pcmAccentAndSpeedWriteOneByte : Obligations.PcmAccentAndSpeedWriteOneByte := by
  refine ⟨decodesTo_of_row (.pcmAccent 0) rfl fun _ => rfl, decodesTo_of_row (.pcmSpeed 0) rfl fun _ => rfl,
    fun s hs => ⟨fun b => ⟨s.env.afterGrant, ?_⟩, fun v => ⟨s.env.afterGrant, ?_⟩⟩⟩
  · rw [← accentByte_eq]
    exact exec_adapter_granted rfl rfl rfl hs
  · rw [← speedByte_eq]
    exact exec_adapter_granted rfl rfl rfl hs

/-- Settles O23: the command asks for the bus alone, and its bytes are the quotients of its operand. -/
theorem pcmBankWritesThreeBytes : Obligations.PcmBankWritesThreeBytes := by
  refine ⟨decodesTo_of_row (.pcmBank 0) rfl fun _ => rfl, fun addr s hs => ⟨s.env.afterGrant, ?_⟩⟩
  have middle : BitVec.ofNat 8 (addr.toNat / 256 % 256) = byteOf 1 addr := (byteOf_eq_mod 1 addr).symm
  have high : BitVec.ofNat 8 (addr.toNat / 65536) = byteOf 2 addr := (byteOf_eq 2 addr).symm
  rw [← byteOf_zero, middle, high]
  exact exec_adapter_granted rfl rfl rfl hs

/-- Settles O24: the command asks for the bus and then for the meter, and its read hands the answer to `meter`. -/
theorem pcmMeterReadsTheLevelMeter : Obligations.PcmMeterReadsTheLevelMeter :=
  ⟨decodesTo_of_row .pcmMeter rfl fun _ => rfl, fun s hs =>
    ⟨s.env.afterGrant.afterMeter, exec_adapter_ready (s := s) rfl rfl hs⟩⟩

end Sys2Proof.Machine
end

section
/-! The tone adapter (R160 to R163): each byte is the sum of its marker and its fields, since they share no bit (R136), and
each command asks for the bus alone. -/

namespace Sys2Proof.Machine

/-! ### Bytes put together from fields -/

/-- A field in a byte is its value times the weight of its lowest bit. -/
theorem inByte_eq {n : Nat} (lo : Nat) (x : BitVec n) : inByte lo x = BitVec.ofNat 8 (2 ^ lo * x.toNat) := by
  apply BitVec.eq_of_toNat_eq
  simp [inByte, Nat.shiftLeft_eq, Nat.mul_comm]

/-- A field below every bit of what is already in the byte is added to it (R136). -/
theorem or_inByte {n lo k m : Nat} (hm : 2 ^ k ∣ m) (h : lo + n ≤ k) (x : BitVec n) :
    BitVec.ofNat 8 m ||| inByte lo x = BitVec.ofNat 8 (m + 2 ^ lo * x.toNat) := by
  obtain ⟨q, rfl⟩ := hm
  have hx : 2 ^ lo * x.toNat < 2 ^ k :=
    calc 2 ^ lo * x.toNat
        < 2 ^ lo * 2 ^ n := Nat.mul_lt_mul_of_pos_left x.isLt (Nat.two_pow_pos lo)
      _ = 2 ^ (lo + n) := (Nat.pow_add 2 lo n).symm
      _ ≤ 2 ^ k := Nat.pow_le_pow_right (by decide) h
  rw [inByte_eq, Nat.two_pow_add_eq_or_of_lt hx, BitVec.ofNat_or]

/-! ### The bytes of the tone commands -/

/-- The latch byte holds the divider's low four bits (R108, R161). -/
theorem toneLatchByte_eq (ch : BitVec 2) (d : BitVec 10) :
    toneLatchByte ch d = BitVec.ofNat 8 (0x80 + 32 * ch.toNat + d.toNat % 16) :=
  calc toneLatchByte ch d
      = BitVec.ofNat 8 (0x80 + 32 * ch.toNat) ||| inByte 0 (d.extractLsb' 0 4) :=
        congrArg (· ||| _) (or_inByte (k := 7) (m := 0x80) (by decide) (by decide) ch)
    _ = BitVec.ofNat 8 (0x80 + 32 * ch.toNat + 2 ^ 0 * (d.extractLsb' 0 4).toNat) :=
        or_inByte (k := 4) (by omega) (by decide) _
    _ = BitVec.ofNat 8 (0x80 + 32 * ch.toNat + d.toNat % 16) := by simp

/-- The data byte holds the divider's high six bits (R109, R161). -/
theorem toneDataByte_eq (d : BitVec 10) : toneDataByte d = BitVec.ofNat 8 (d.toNat / 16) := by
  have high : (d.extractLsb' 4 6).toNat = d.toNat / 16 := by
    rw [BitVec.extractLsb'_toNat, Nat.shiftRight_eq_div_pow]
    omega
  rw [toneDataByte, inByte_eq, high, Nat.pow_zero, Nat.one_mul]

/-- The marker of the attenuation byte has a bit on each side of the channel, so the channel comes first (R110, R162). -/
theorem toneEnvByte_eq (ch : BitVec 2) (level : BitVec 4) :
    toneEnvByte ch level = BitVec.ofNat 8 (0x90 + 32 * ch.toNat + level.toNat) := by
  have marker : 0x90 ||| inByte 5 ch = BitVec.ofNat 8 (0x90 + 32 * ch.toNat) := by revert ch; decide
  rw [toneEnvByte, marker, or_inByte (k := 4) (by omega) (by decide), Nat.pow_zero, Nat.one_mul]

/-- The noise byte holds the type above the class (R111, R163). -/
theorem toneNoiseByte_eq (t : BitVec 1) (f : BitVec 2) :
    toneNoiseByte t f = BitVec.ofNat 8 (0xE0 + 4 * t.toNat + f.toNat) :=
  calc toneNoiseByte t f
      = BitVec.ofNat 8 (0xE0 + 4 * t.toNat) ||| inByte 0 f :=
        congrArg (· ||| _) (or_inByte (k := 5) (m := 0xE0) (by decide) (by decide) t)
    _ = BitVec.ofNat 8 (0xE0 + 4 * t.toNat + 2 ^ 0 * f.toNat) := or_inByte (k := 2) (by omega) (by decide) f
    _ = BitVec.ofNat 8 (0xE0 + 4 * t.toNat + f.toNat) := by rw [Nat.pow_zero, Nat.one_mul]

/-! ### The commands -/

/-- Settles O25: channel 3 is the one operand that decoder and meaning refuse (R107); on the others the command asks for
the bus alone and always writes both bytes. -/
theorem toneSetWritesLatchThenData : Obligations.ToneSetWritesLatchThenData := by
  refine ⟨fun w hop hc => ?_, fun d s hi => ?_, fun ch d s hc hs => ⟨s.env.afterGrant, ?_⟩⟩
  · exact (decode_of_row (.toneSet 0 0) hop).trans (checkOperands_ok (bne_iff_ne.2 hc))
  · exact (exec_adapter_reserved rfl rfl s).trans (refuse_idle hi)
  · have hne : ch ≠ 3 := by rintro rfl; exact absurd hc (by decide)
    have hw : (Instr.toneSet ch d).wellFormed = true := bne_iff_ne.2 hne
    have hops : adapterOps s.params s.instr (.toneSet ch d) = toneSetOps ch d := if_neg hne
    rw [exec_adapter_granted rfl hw (congrArg asksOf hops) hs, hops, ← toneLatchByte_eq, ← toneDataByte_eq]
    rfl

/-- Settles O26: neither row has a reserved value, and both commands ask for the bus alone. -/
theorem toneEnvAndNoiseWriteOneByte : Obligations.ToneEnvAndNoiseWriteOneByte := by
  refine ⟨decodesTo_of_row (.toneEnv 0 0) rfl fun _ => rfl, decodesTo_of_row (.toneNoise 0 0) rfl fun _ => rfl,
    fun s hs => ⟨fun ch level => ⟨s.env.afterGrant, ?_⟩, fun t f => ⟨s.env.afterGrant, ?_⟩⟩⟩
  · rw [← toneEnvByte_eq]
    exact exec_adapter_granted rfl rfl rfl hs
  · rw [← toneNoiseByte_eq]
    exact exec_adapter_granted rfl rfl rfl hs

end Sys2Proof.Machine
end

section
/-! The FM adapter (R170 to R185): an FM command on a block whose environment answers favourably completes in one step with
the events of its micro-operations one by one, since none reads the meter; its bytes are sums of fields that share no bit
(R136); FM_VOICE_LOAD is its list of commands. -/

namespace Sys2Proof.Machine

open Laws

/-! ### The words of the channel commands -/

/-- The words of an FM channel row with a channel 0 to 5 decode to the command their operands give (R107, R120). -/
theorem decodesChannelTo_of_row {op : Byte} {f : CmdWord → Instr} (i : Instr) (hop : tableOpcode i = op)
    (hf : ∀ w, readOperands w i = f w) (hw : ∀ w, (f w).wellFormed = fmChannelOk (bits 24 3 w)) :
    DecodesChannelTo op f := fun w h hc =>
  calc decode w
      = checkOperands (readOperands w i) := decode_of_row i (h.trans hop.symm)
    _ = checkOperands (f w) := congrArg checkOperands (hf w)
    _ = .ok (f w) := checkOperands_ok ((hw w).trans (decide_eq_true hc))

/-! ### An FM command whose every hold is lifted at once -/

/-- Without a meter read the events do not depend on the environment's answers (R68). -/
theorem eventsOf_eq_map {ops : List MicroOp} (h : NoMeterRead ops) (e : Env) : eventsOf e ops = ops.map eventOf := by
  induction ops generalizing e with
  | nil => rfl
  | cons m rest ih =>
    have hr : NoMeterRead rest := fun a ha => h a (List.mem_cons_of_mem _ ha)
    cases m with
    | mbr a => exact absurd List.mem_cons_self (h a)
    | _ => exact congrArg (_ :: ·) (ih hr _)

section
variable {i : Instr} {s : State} {ops : List MicroOp} {asks : List Ask}

/-- What a well-formed FM command leaves on a ready block (R61, R170): its events in the trace, the bus's retry counter at
0, and the FM chip's too if it polls. -/
theorem exec_fm_ready (hf : i.isFm = true) (hw : i.wellFormed = true) (hops : adapterOps s.params s.instr i = ops)
    (hq : asksOf ops = asks) (hs : s.Ready asks) :
    exec i s =
      .next { s with
        trace := s.trace ++ ops.map eventOf
        busRetry := 0
        fmRetry := if Ask.fm ∈ asks then 0 else s.fmRetry
        env := s.env.afterAsks asks } := by
  subst hops hq
  have hm : NoMeterRead (adapterOps s.params s.instr i) := noMeterRead_adapter _ _ (by rintro rfl; cases hf)
  rw [exec_adapter_ready (isAdapter_of_isFm hf) hw hs, performed_meter _ s hm, eventsOf_eq_map hm]

/-- The same for a command that polls. -/
theorem exec_fm_polls (hf : i.isFm = true) (hw : i.wellFormed = true) (hops : adapterOps s.params s.instr i = ops)
    (hq : asksOf ops = asks) (hp : Ask.fm ∈ asks) (hs : s.Ready asks) :
    ∃ e, exec i s = .next { s with trace := s.trace ++ ops.map eventOf, busRetry := 0, fmRetry := 0, env := e } :=
  ⟨s.env.afterAsks asks, by rw [exec_fm_ready hf hw hops hq hs, if_pos hp]⟩

/-- A command whose micro-sequence is one register write in its bracket (R73, R81). -/
theorem exec_fm_writes {part : Part} {reg value : Byte} (hf : i.isFm = true) (hw : i.wellFormed = true)
    (hops : adapterOps s.params s.instr i = bracket (fmw s.params part reg value)) (hs : s.Ready [.bus, .fm, .fm]) :
    ∃ e, exec i s =
      .next { s with
        trace := s.trace ++ .acq :: fmwEvents s.params part reg value ++ [.rel]
        busRetry := 0, fmRetry := 0, env := e } := by
  rw [List.append_assoc]
  exact exec_fm_polls (asks := [.bus, .fm, .fm]) hf hw hops rfl (by decide) hs

end

/-! ### Bytes put together from fields -/

/-- A field at the bottom of a byte. -/
theorem inByte_zero {n : Nat} (x : BitVec n) : inByte 0 x = BitVec.ofNat 8 x.toNat := by
  rw [inByte_eq, Nat.pow_zero, Nat.one_mul]

/-- Two fields that share no bit are added (R136). -/
theorem inByte_or_inByte {n m hi lo : Nat} (h : lo + m ≤ hi) (x : BitVec n) (y : BitVec m) :
    inByte hi x ||| inByte lo y = BitVec.ofNat 8 (2 ^ hi * x.toNat + 2 ^ lo * y.toNat) := by
  rw [inByte_eq hi, or_inByte (Nat.dvd_mul_right _ _) h]

/-- The same with the second field at the bottom. -/
theorem inByte_or_inByte_zero {n m hi : Nat} (h : m ≤ hi) (x : BitVec n) (y : BitVec m) :
    inByte hi x ||| inByte 0 y = BitVec.ofNat 8 (2 ^ hi * x.toNat + y.toNat) := by
  rw [inByte_or_inByte (by omega), Nat.pow_zero, Nat.one_mul]

/-- The LFO byte (R116, R172). -/
theorem lfoByte_eq (e : BitVec 1) (v : BitVec 3) : lfoByte e v = BitVec.ofNat 8 (8 * e.toNat + v.toNat) :=
  inByte_or_inByte_zero (by decide) e v

theorem detmulByte_eq (d : BitVec 3) (m : BitVec 4) : detmulByte d m = BitVec.ofNat 8 (16 * d.toNat + m.toNat) :=
  inByte_or_inByte_zero (by decide) d m

theorem relsusByte_eq (r u : BitVec 4) : relsusByte r u = BitVec.ofNat 8 (16 * u.toNat + r.toNat) :=
  inByte_or_inByte_zero (by decide) u r

theorem decamByte_eq (d : BitVec 5) (a : BitVec 1) : decamByte d a = BitVec.ofNat 8 (128 * a.toNat + d.toNat) :=
  inByte_or_inByte_zero (by decide) a d

theorem fbalgByte_eq (f a : BitVec 3) : fbalgByte f a = BitVec.ofNat 8 (8 * f.toNat + a.toNat) :=
  inByte_or_inByte_zero (by decide) f a

/-- Three fields, from the top (R114, R179). -/
theorem panamsfmsByte_eq (n a : BitVec 2) (f : BitVec 3) :
    panamsfmsByte n a f = BitVec.ofNat 8 (64 * n.toNat + 16 * a.toNat + f.toNat) :=
  calc panamsfmsByte n a f
      = BitVec.ofNat 8 (64 * n.toNat + 16 * a.toNat) ||| inByte 0 f :=
        congrArg (· ||| _) (inByte_or_inByte (by decide) n a)
    _ = BitVec.ofNat 8 (64 * n.toNat + 16 * a.toNat + 2 ^ 0 * f.toNat) := or_inByte (k := 4) (by omega) (by decide) f
    _ = BitVec.ofNat 8 (64 * n.toNat + 16 * a.toNat + f.toNat) := by rw [Nat.pow_zero, Nat.one_mul]

/-- The high byte holds the frequency number's high three bits below the block (R114, R180). -/
theorem pitchHighByte_eq (b : BitVec 3) (f : BitVec 11) :
    pitchHighByte b f = BitVec.ofNat 8 (8 * b.toNat + f.toNat / 256) := by
  have high : (f.extractLsb' 8 3).toNat = f.toNat / 256 := by
    rw [BitVec.extractLsb'_toNat, Nat.shiftRight_eq_div_pow]
    omega
  rw [← high]
  exact inByte_or_inByte_zero (by decide) b _

/-- The low byte is byte 0 of the frequency number (R114, R180). -/
theorem pitchLowByte_eq (f : BitVec 11) : pitchLowByte f = BitVec.ofNat 8 (f.toNat % 256) := byteOf_zero f

/-- The key-on byte adds the selector of R115 to the four operators' bits (R181). -/
theorem keyOnByte_eq (c : Fin 6) : keyOnByte c = BitVec.ofNat 8 (0xF0 + if c.val ≤ 2 then c.val else c.val + 1) := by
  revert c
  decide

/-! ### The micro-sequences of a channel command -/

/-- The parts split the channels after 2 (R112). -/
theorem partOf_eq (c : Fin 6) : partOf c = if c.val ≤ 2 then .A else .B := by
  revert c
  decide

section
variable {ch : BitVec 3} (h : ch.toNat < 6)
include h

/-- A channel operand 0 to 5 is the channel it names (R107). -/
theorem onChannel_eq (f : Fin 6 → List MicroOp) : ((fmChannel? ch).map f).getD [] = f ⟨ch.toNat, h⟩ := by
  rw [fmChannel?_ok h, Option.map_some, Option.getD_some]

/-- A per-operator setter, by the number its byte is (R113). -/
theorem operatorSetter_eq {p : Params} {t : OpRegTable} {o : BitVec 2} {v : Byte} {n : Nat} (hv : v = BitVec.ofNat 8 n) :
    ((fmChannel? ch).map fun c => operatorWriteOps p t c o v).getD []
      = bracket (fmw p (if ch.toNat ≤ 2 then .A else .B)
          (t[4 * ch.toNat + o.toNat]'(by have := o.isLt; omega)) (BitVec.ofNat 8 n)) := by
  rw [onChannel_eq h, operatorWriteOps, partOf_eq, hv]
  rfl

/-- A write of a channel register, by the number its byte is (R114). -/
theorem channelWrite_eq {p : Params} {base v : Byte} {n : Nat} (hv : v = BitVec.ofNat 8 n) :
    channelWrite p base ⟨ch.toNat, h⟩ v
      = fmw p (if ch.toNat ≤ 2 then .A else .B) (base + BitVec.ofNat 8 (ch.toNat % 3)) (BitVec.ofNat 8 n) := by
  rw [channelWrite, partOf_eq, hv]
  rfl

/-- A per-channel setter (R178, R179). -/
theorem channelSetter_eq {p : Params} {base v : Byte} {n : Nat} (hv : v = BitVec.ofNat 8 n) :
    ((fmChannel? ch).map fun c => bracket (channelWrite p base c v)).getD []
      = bracket (fmw p (if ch.toNat ≤ 2 then .A else .B) (base + BitVec.ofNat 8 (ch.toNat % 3)) (BitVec.ofNat 8 n)) := by
  rw [onChannel_eq h, channelWrite_eq h hv]

end

/-! ### The register writes -/

/-- Settles O27: one register write on part A, of a byte whose fields share no bit. -/
theorem fmLfoWritesTheLfoRegister : Obligations.FmLfoWritesTheLfoRegister := by
  refine ⟨decodesTo_of_row (.fmLfo 0 0) rfl fun _ => rfl, fun enable speed s hs => ?_⟩
  rw [← lfoByte_eq]
  exact exec_fm_writes rfl rfl rfl hs

/-- Settles O28: the reserved channels are O5's; on the others each setter is one register write of its packed byte. -/
theorem fmOperatorSettersWriteTheirRegister : Obligations.FmOperatorSettersWriteTheirRegister := by
  refine ⟨decodesChannelTo_of_row (.fmDetmul 0 0 0 0) rfl (fun _ => rfl) fun _ => rfl,
    decodesChannelTo_of_row (.fmLevel 0 0 0) rfl (fun _ => rfl) fun _ => rfl,
    decodesChannelTo_of_row (.fmAttack 0 0 0) rfl (fun _ => rfl) fun _ => rfl,
    decodesChannelTo_of_row (.fmRelsus 0 0 0 0) rfl (fun _ => rfl) fun _ => rfl,
    decodesChannelTo_of_row (.fmDecam 0 0 0 0) rfl (fun _ => rfl) fun _ => rfl,
    fun ch o s hc hi => ?_, fun ch o s h hs => ?_⟩
  · obtain ⟨_, refused, _⟩ := reservedFieldValuesAreRefused.2 s hi
    obtain ⟨detmul, level, attack, relsus, decam, _⟩ := refused ch hc
    exact ⟨detmul o, level o, attack o, relsus o, decam o⟩
  · have hw : fmChannelOk ch = true := decide_eq_true h
    exact ⟨fun d m => exec_fm_writes rfl hw (operatorSetter_eq h (detmulByte_eq d m)) hs,
      fun l => exec_fm_writes rfl hw (operatorSetter_eq h (inByte_zero l)) hs,
      fun a => exec_fm_writes rfl hw (operatorSetter_eq h (inByte_zero a)) hs,
      fun r u => exec_fm_writes rfl hw (operatorSetter_eq h (relsusByte_eq r u)) hs,
      fun d a => exec_fm_writes rfl hw (operatorSetter_eq h (decamByte_eq d a)) hs⟩

/-- Settles O29: the reserved channels are O5's; on the others each setter is one register write of its packed byte. -/
theorem fmChannelSettersWriteTheirRegister : Obligations.FmChannelSettersWriteTheirRegister := by
  refine ⟨decodesChannelTo_of_row (.fmFbalg 0 0 0) rfl (fun _ => rfl) fun _ => rfl,
    decodesChannelTo_of_row (.fmPanamsfms 0 0 0 0) rfl (fun _ => rfl) fun _ => rfl,
    fun ch s hc hi => ?_, fun ch s h hs => ?_⟩
  · obtain ⟨_, refused, _⟩ := reservedFieldValuesAreRefused.2 s hi
    obtain ⟨_, _, _, _, _, fbalg, panamsfms, _⟩ := refused ch hc
    exact ⟨fbalg, panamsfms⟩
  · have hw : fmChannelOk ch = true := decide_eq_true h
    exact ⟨fun f a => exec_fm_writes rfl hw (channelSetter_eq h (fbalgByte_eq f a)) hs,
      fun n a f => exec_fm_writes rfl hw (channelSetter_eq h (panamsfmsByte_eq n a f)) hs⟩

/-- FM_PITCH's micro-sequence on a channel 0 to 5, by the numbers its bytes are (R180). -/
theorem fmPitchOps_onChannel {p : Params} {ch : BitVec 3} (h : ch.toNat < 6) (b : BitVec 3) (f : BitVec 11) :
    ((fmChannel? ch).map fun c => fmPitchOps p c b f).getD []
      = bracket
          (fmw p (if ch.toNat ≤ 2 then .A else .B) (p.chregFnumHi + BitVec.ofNat 8 (ch.toNat % 3))
              (BitVec.ofNat 8 (8 * b.toNat + f.toNat / 256))
            ++ fmw p (if ch.toNat ≤ 2 then .A else .B) (p.chregFnumLo + BitVec.ofNat 8 (ch.toNat % 3))
              (BitVec.ofNat 8 (f.toNat % 256))) := by
  rw [onChannel_eq h, fmPitchOps, channelWrite_eq h (pitchHighByte_eq b f), channelWrite_eq h (pitchLowByte_eq f)]

/-- Settles O30: the reserved channels are O5's; on the others two register writes share one bracket. -/
theorem fmPitchWritesHighThenLow : Obligations.FmPitchWritesHighThenLow := by
  refine ⟨decodesChannelTo_of_row (.fmPitch 0 0 0) rfl (fun _ => rfl) fun _ => rfl, fun ch b f s hc hi => ?_,
    fun ch b f s h hs => ?_⟩
  · obtain ⟨_, refused, _⟩ := reservedFieldValuesAreRefused.2 s hi
    obtain ⟨_, _, _, _, _, _, _, pitch, _⟩ := refused ch hc
    exact pitch b f
  · have hw : (Instr.fmPitch ch b f).wellFormed = true := decide_eq_true h
    simp only [List.append_assoc]
    exact exec_fm_polls (asks := [.bus, .fm, .fm, .fm, .fm]) rfl hw (fmPitchOps_onChannel h b f) rfl (by decide) hs

/-- Settles O31: the reserved channels are O5's; on the others the selector of R115 goes to the key register. -/
theorem fmKeyCommandsWriteTheKeyRegister : Obligations.FmKeyCommandsWriteTheKeyRegister := by
  refine ⟨decodesChannelTo_of_row (.fmKeyon 0) rfl (fun _ => rfl) fun _ => rfl,
    decodesChannelTo_of_row (.fmKeyoff 0) rfl (fun _ => rfl) fun _ => rfl, fun ch s hc hi => ?_, fun ch s h hs => ?_⟩
  · obtain ⟨_, refused, _⟩ := reservedFieldValuesAreRefused.2 s hi
    obtain ⟨_, _, _, _, _, _, _, _, keyon, keyoff⟩ := refused ch hc
    exact ⟨keyon, keyoff⟩
  · have hw : fmChannelOk ch = true := decide_eq_true h
    have hon := keyOnByte_eq ⟨ch.toNat, h⟩
    exact ⟨hon ▸ exec_fm_writes rfl hw (onChannel_eq h _) hs, exec_fm_writes rfl hw (onChannel_eq h _) hs⟩

/-! ### FM_LATCH -/

theorem eventOf_latchWrite (x : FmPortWrite) : eventOf (latchWrite x) = latchEvent x := by
  cases x <;> rfl

theorem map_eventOf_bracket (body : List MicroOp) :
    (bracket body).map eventOf = .acq :: body.map eventOf ++ [.rel] := List.map_append

/-- FM_LATCH asks for the bus and then for one status read per element (R183). -/
theorem asksOf_fmLatchOps (p : Params) : asksOf (fmLatchOps p) = .bus :: p.fmLatchSeq.map fun _ => .fm := by
  have body (seq : List FmPortWrite) :
      asksOf (seq.flatMap (fun x => [.fms, latchWrite x, .dly p.fmDelayNops]) ++ [.rel]) = seq.map fun _ => .fm := by
    induction seq with
    | nil => rfl
    | cons x rest ih => cases x <;> exact congrArg (Ask.fm :: ·) ih
  exact congrArg (Ask.bus :: ·) (body p.fmLatchSeq)

/-- The events of FM_LATCH (R183). -/
theorem map_eventOf_fmLatchOps (p : Params) :
    (fmLatchOps p).map eventOf =
      .acq :: p.fmLatchSeq.flatMap (fun x => [.fms false, latchEvent x, .dly p.fmDelayNops]) ++ [.rel] := by
  rw [fmLatchOps, map_eventOf_bracket, List.map_flatMap]
  simp only [List.map_cons, List.map_nil, eventOf_latchWrite]
  rfl

/-- Settles O32: an empty list has no poll, so the FM chip's retry counter is then kept. -/
theorem fmLatchRunsTheLatchSequence : Obligations.FmLatchRunsTheLatchSequence := by
  refine ⟨decodesTo_of_row .fmLatch rfl fun _ => rfl, fun s hs =>
    ⟨s.env.afterAsks (.bus :: s.params.fmLatchSeq.map fun _ => .fm), ?_⟩⟩
  have hpoll : Ask.fm ∈ Ask.bus :: (s.params.fmLatchSeq.map fun _ => .fm) ↔ s.params.fmLatchSeq ≠ [] := by
    cases s.params.fmLatchSeq <;> simp
  rw [exec_fm_ready (i := .fmLatch) (ops := fmLatchOps s.params) rfl rfl rfl (asksOf_fmLatchOps s.params) hs]
  simp only [map_eventOf_fmLatchOps, hpoll, ite_not, List.append_assoc]

/-! ### FM_VOICE_LOAD -/

/-- A channel of the document is no reserved value of the operand (R107). -/
theorem fmChannelOk_ofNat (c : Fin 6) : fmChannelOk (BitVec.ofNat 3 c.val) = true := by
  revert c
  decide

/-- FM_VOICE_LOAD's list holds well-formed adapter commands alone (R184). -/
theorem voiceCommands_adapter_wellFormed (p : Params) (x : Instrument) :
    ∀ i ∈ voiceCommands p x, i.isAdapter = true ∧ i.wellFormed = true := by
  intro i hi
  simp only [voiceCommands, List.mem_append, List.mem_flatMap, List.mem_map, List.mem_singleton] at hi
  obtain (((((((rfl | ⟨_, ⟨c, _, rfl⟩, _, _, rfl⟩) | ⟨_, ⟨c, _, rfl⟩, _, _, rfl⟩) | ⟨_, ⟨c, _, rfl⟩, _, _, rfl⟩)
    | ⟨_, ⟨c, _, rfl⟩, _, _, rfl⟩) | ⟨_, ⟨c, _, rfl⟩, _, _, rfl⟩) | ⟨_, ⟨c, _, rfl⟩, rfl⟩) | ⟨_, ⟨c, _, rfl⟩, rfl⟩)
    | rfl := hi
  · exact ⟨rfl, rfl⟩
  iterate 7
    · exact ⟨rfl, fmChannelOk_ofNat c⟩
  · exact ⟨rfl, rfl⟩

/-- The replay performs the micro-sequences of its commands in order, and so do the commands themselves (R184). -/
theorem execAll_voiceCommands {s : State} (hs : s.Ready (asksOf (fmVoiceLoadOps s.params s.instr))) :
    execAll (voiceCommands s.params s.instr) s = exec .fmVoiceLoad s := by
  obtain ⟨hi, hh, hf⟩ := hs
  have replay : exec .fmVoiceLoad s = .next (performed (fmVoiceLoadOps s.params s.instr) s) :=
    acceptAdapter_favoured hi hh hf
  rw [fmVoiceLoadOps_eq] at hf replay
  exact (execAll_adapters _ s hi hh (voiceCommands_adapter_wellFormed _ _) hf).trans replay.symm

/-- Settles O33: the replay is its commands one after another, and as an FM command that polls it changes the trace and the
hidden registers alone. -/
theorem fmVoiceLoadReplaysTheInstrument : Obligations.FmVoiceLoadReplaysTheInstrument := by
  refine ⟨decodesTo_of_row .fmVoiceLoad rfl fun _ => rfl, fun s hs => ?_⟩
  have hpolls : Ask.fm ∈ asksOf (fmVoiceLoadOps s.params s.instr) :=
    (fm_mem_asksOf_iff _).2 ((poll_begins_fm s.params s.instr (i := .fmVoiceLoad) rfl rfl nofun).subset (by simp))
  obtain ⟨e, he⟩ := exec_fm_polls (i := .fmVoiceLoad) rfl rfl rfl rfl hpolls hs
  exact ⟨_, he, (execAll_voiceCommands hs).trans he, rfl⟩

end Sys2Proof.Machine
end

section
/-! The transport (R201 to R217): FRAME_IN writes its registers and then accepts the stop actions or nothing;
FRAME_RUN counts the frame, and where the gate is true performs the dispatch first, which is its commands one after
another; it reads the sequencer's registers alone. -/

namespace Sys2Proof.Machine

/-! ### FRAME_IN -/

/-- FRAME_IN toggles `playing` on this block (R201). -/
def frameInToggles (b : Byte) (s : State) : Bool := chordDown s.params b && !s.chordLatch && !s.halted

/-- The registers FRAME_IN writes before its stop actions (R201). -/
def frameInWrites (b : Byte) (s : State) : State :=
  { s with
    press := b &&& ~~~s.prevButtons
    prevButtons := b
    chordLatch := chordDown s.params b
    playing := if frameInToggles b s then !s.playing else s.playing }

/-- The latch follows the chord, whatever it held (R201). -/
theorem chordLatchNext_eq (chord latch : Bool) : chordLatchNext chord latch = chord := by
  cases chord <;> cases latch <;> rfl

/-- FRAME_IN writes its registers, and a toggle that stops the transport emits the stop actions (R201). -/
theorem exec_frameIn (b : Byte) (s : State) :
    exec (.frameIn b) s =
      accept (frameInWrites b s) (if frameInToggles b s && s.playing then onStopOps s.params s.instr else []) [] := by
  simp only [exec, execFrameIn, chordLatchNext_eq]
  rfl

section
variable {b : Byte} {s : State}

/-- A frame that does not stop the transport ends with its own writes (R201). -/
theorem exec_frameIn_runs_on (hi : s.idle = true) (h : (frameInToggles b s && s.playing) = false) :
    exec (.frameIn b) s = .next (frameInWrites b s) := by
  rw [exec_frameIn, h]
  exact accept_nothing (s := frameInWrites b s) hi

/-- A frame that does not toggle writes the button registers and the latch alone (R201, R202). -/
theorem exec_frameIn_no_toggle (hi : s.idle = true) (h : frameInToggles b s = false) :
    exec (.frameIn b) s = .next { s with
      press := b &&& ~~~s.prevButtons, prevButtons := b, chordLatch := chordDown s.params b } := by
  rw [exec_frameIn_runs_on hi (by rw [h]; rfl), frameInWrites, h]
  rfl

/-- A toggle that stops the transport performs the micro-sequences of the stop actions, as those commands do themselves,
executed one after another (R201). -/
theorem exec_frameIn_stop_actions (hi : s.idle = true) (h : (frameInToggles b s && s.playing) = true)
    (ha : s.params.onStopActions.all (fun i => i.isAdapter && i.wellFormed) = true)
    (hf : s.env.favours (asksOf (onStopOps s.params s.instr)) = true) :
    ∃ u, exec (.frameIn b) s = .next u ∧ execAll s.params.onStopActions (frameInWrites b s) = .next u := by
  have hh : s.halted = false := by
    simp only [frameInToggles, Bool.and_eq_true, Bool.not_eq_true'] at h
    exact h.1.2
  have hall : ∀ i ∈ s.params.onStopActions, i.isAdapter = true ∧ i.wellFormed = true := by
    simpa only [List.all_eq_true, Bool.and_eq_true] using ha
  have stops : exec (.frameIn b) s = acceptAdapter (frameInWrites b s) (onStopOps s.params s.instr) := by
    rw [exec_frameIn, h]
    exact (if_neg (by simpa [frameInWrites] using hh)).symm
  exact ⟨_, stops.trans (acceptAdapter_favoured (s := frameInWrites b s) hi hh hf),
    execAll_adapters s.params.onStopActions (frameInWrites b s) hi hh hall hf⟩

end

/-- Settles O34: the frame either runs on after its writes or stops the transport. -/
theorem frameInEdgesChordAndToggle : Obligations.FrameInEdgesChordAndToggle :=
  ⟨decodesTo_of_row (.frameIn 0) rfl fun _ => rfl, fun _ _ hi =>
    ⟨fun h => exec_frameIn_runs_on hi h, fun h ha hf => exec_frameIn_stop_actions hi h ha hf⟩⟩

/-- Frames with the chord down on a latched block write the press registers alone, however many they are (R202). -/
theorem execAll_held_chord (bs : List Byte) {s : State} (hi : s.idle = true) (hl : s.chordLatch = true)
    (hc : ∀ b ∈ bs, chordDown s.params b = true) :
    ∃ pressed held, execAll (bs.map .frameIn) s = .next { s with press := pressed, prevButtons := held } := by
  induction bs generalizing s with
  | nil => exact ⟨s.press, s.prevButtons, rfl⟩
  | cons b bs ih =>
    obtain ⟨hb, hbs⟩ := List.forall_mem_cons.1 hc
    have hfirst : exec (.frameIn b) s = .next { s with press := b &&& ~~~s.prevButtons, prevButtons := b } := by
      rw [exec_frameIn_no_toggle hi (by simp [frameInToggles, hl]), hb, ← hl]
    rw [List.map_cons, execAll, hfirst]
    exact ih (s := { s with press := _, prevButtons := b }) hi hl hbs

/-- Settles O35: the held frames, by induction on their list, and then one frame that cannot toggle with a button up. -/
theorem heldChordTogglesOnce : Obligations.HeldChordTogglesOnce := by
  intro bs s hi hl hc
  obtain ⟨pressed, held, hheld⟩ := execAll_held_chord bs hi hl fun b hb => Bool.and_eq_true_iff.2 (hc b hb)
  refine ⟨_, hheld, rfl, hl, rfl, fun c hup => ?_⟩
  have hdown : chordDown s.params c = false := hup
  have hstays : frameInToggles c { s with press := pressed, prevButtons := held } = false := by
    simp [frameInToggles, hdown]
  rw [exec_frameIn_no_toggle (s := { s with press := pressed, prevButtons := held }) hi hstays, hdown]

/-! ### FRAME_RUNs that do not dispatch -/

/-- A FRAME_RUN that does not dispatch counts the frame (R203, R204). -/
theorem exec_frameRun_counts {s : State} (hi : s.idle = true)
    (h : s.playing = false ∨ (1 ≤ s.tempo.toNat ∧ s.frameCounter % s.tempo.toNat ≠ 0)) :
    exec .frameRun s = .next { s with frameCounter := s.frameCounter + 1 } := by
  rw [← accept_tick hi, exec, execFrameRun]
  rcases h with hp | ⟨ht, hg⟩
  · rw [hp, if_neg Bool.false_ne_true]
  · have ht0 : s.tempo ≠ 0 := fun h => by simp [h] at ht
    have hgate : ¬ tempoGate s.frameCounter s.tempo = true := by simpa [tempoGate] using hg
    rw [if_neg ht0, if_neg hgate, ite_self]

/-- Settles O36, by what a FRAME_RUN that does not dispatch does. -/
theorem frameRunWithoutDispatchCountsOnly : Obligations.FrameRunWithoutDispatchCountsOnly :=
  ⟨decodesTo_of_row .frameRun rfl fun _ => rfl, fun _ hi h => exec_frameRun_counts hi h⟩

/-- Settles O39, by induction on the number of frames: each counts one and meets no multiple of the tempo. -/
theorem ungatedFramesProduceNoEvent : Obligations.UngatedFramesProduceNoEvent := by
  intro n
  induction n with
  | zero => intro s _ _ _; rfl
  | succ n ih =>
    intro s hi ht hg
    have hfirst := exec_frameRun_counts hi (.inr ⟨ht, hg 0 n.succ_pos⟩)
    have hrest (j : Nat) (hj : j < n) : (s.frameCounter + 1 + j) % s.tempo.toNat ≠ 0 := by
      rw [Nat.add_assoc, Nat.add_comm 1 j]
      exact hg (j + 1) (Nat.succ_lt_succ hj)
    rw [List.replicate_succ, execAll, hfirst, Nat.add_comm n 1, ← Nat.add_assoc]
    exact ih { s with frameCounter := s.frameCounter + 1 } hi ht hrest

/-! ### A dispatch that faults -/

/-- Settles O47: the dispatch is denied at its first ACQ, which under BUS_TIMEOUT 1 is the fault (`runQueue_denied`). -/
theorem faultedDispatchKeepsTheStep : Obligations.FaultedDispatchKeepsTheStep := by
  intro s hi hh hp ht hg hd hto hdenied
  obtain ⟨e, _, dispatch, _⟩ := adapterCommandsWaitForTheBus s hi hh hdenied
  obtain ⟨_, faults⟩ := dispatch hp ht hg hd
  exact ⟨e, faults hto⟩

/-! ### A dispatch that completes -/

/-- The tone channel as an operand is the channel (R206). -/
theorem psgChannelBits_toNat (p : Params) : (psgChannelBits p).toNat = p.psgChannel.val := by
  have := p.psgChannel.isLt
  rw [psgChannelBits, BitVec.toNat_ofNat]
  omega

/-- A dispatch holds well-formed adapter commands alone (R205 to R208). -/
theorem dispatchCommands_adapter_wellFormed (p : Params) (st : PatternStore) (k : BitVec 4) :
    ∀ i ∈ dispatchCommands p st k, i.isAdapter = true ∧ i.wellFormed = true := by
  have tone (n : Byte) : ∀ i ∈ toneStepCommands p n, i.isAdapter = true ∧ i.wellFormed = true := by
    have h3 : BitVec.ofNat 2 p.psgChannel.val ≠ 3 := psgChannelBits_ne_three p
    unfold toneStepCommands
    split
    · simp [Instr.isAdapter, Instr.wellFormed]
    · simpa [Instr.isAdapter, Instr.wellFormed] using h3
  have fm (n : Int) : ∀ i ∈ fmStepCommands p n, i.isAdapter = true ∧ i.wellFormed = true := by
    unfold fmStepCommands
    split_ifs <;> simp [Instr.isAdapter, Instr.wellFormed, fmChannelOk_ofNat]
  have pcm (g a v : Byte) : ∀ i ∈ pcmStepCommands p g a v, i.isAdapter = true ∧ i.wellFormed = true := by
    unfold pcmStepCommands
    split <;> simp [Instr.isAdapter, Instr.wellFormed]
  intro i hi
  rw [dispatchCommands, List.mem_append, List.mem_append] at hi
  rcases hi with (hi | hi) | hi
  · exact tone _ i hi
  · exact fm _ i hi
  · exact pcm _ _ _ i hi

/-- Whole brackets without a meter read, performed from a free bus, change the trace and the hidden registers alone. -/
theorem performed_brackets {ops : List MicroOp} {s : State} (hc : IsClean ops) (hm : NoMeterRead ops)
    (ha : MicroOp.acq ∈ ops) (hb : s.busHeld = false) :
    performed ops s = { s with
      trace := (performed ops s).trace, busRetry := 0
      fmRetry := (performed ops s).fmRetry, env := (performed ops s).env } := by
  have hbus : (performed ops s).busHeld = s.busHeld :=
    (performed_busHeld ops s (hb ▸ hc.bracketed)).trans hb.symm
  have hbr : (performed ops s).busRetry = 0 := by rw [performed_busRetry, if_pos ha]
  conv_lhs => rw [performed_other, performed_meter ops s hm, hbus, hbr]

section
variable {s : State}

/-- A tempo of 0, or a step that cannot be dispatched, is the model's fault (log entry 9). -/
theorem exec_frameRun_storeIllegal (hp : s.playing = true)
    (h : s.tempo = 0 ∨ (s.frameCounter % s.tempo.toNat = 0
      ∧ stepDispatchable s.params s.pattern s.stepPosition = false)) :
    exec .frameRun s = .fault .storeIllegal := by
  rw [exec, execFrameRun, if_pos hp]
  by_cases ht : s.tempo = 0
  · rw [if_pos ht]
  · obtain ⟨hg, hd⟩ := h.resolve_left ht
    have hgate : tempoGate s.frameCounter s.tempo = true := decide_eq_true hg
    rw [if_neg ht, if_pos hgate, hd, if_neg Bool.false_ne_true]

/-- A gated FRAME_RUN whose every hold is lifted at once performs the dispatch and makes its two updates (R203,
R209). -/
theorem exec_frameRun_performs (hp : s.playing = true) (ht : 1 ≤ s.tempo.toNat)
    (hg : s.frameCounter % s.tempo.toNat = 0) (hd : stepDispatchable s.params s.pattern s.stepPosition = true)
    (hs : s.Ready (asksOf (stepDispatchOps s.params s.pattern s.stepPosition))) :
    exec .frameRun s = .next { performed (stepDispatchOps s.params s.pattern s.stepPosition) s with
      stepPosition := BitVec.ofNat 4 ((s.stepPosition.toNat + 1) % 16)
      frameCounter := s.frameCounter + 1 } := by
  obtain ⟨hi, _, hf⟩ := hs
  obtain ⟨_, hafter, _⟩ := (idle_iff s).1 hi
  rw [exec_frameRun_runs hi hp ht hg hd, runQueue_favoured _ { s with after := [.advanceStep, .tickFrame] } hf,
    performed_with_after, finish_eq, performed_other, hafter]
  rfl

/-- The same as the dispatch's commands, executed one after another (R205). -/
theorem execAll_dispatchCommands (hd : stepDispatchable s.params s.pattern s.stepPosition = true)
    (hs : s.Ready (asksOf (stepDispatchOps s.params s.pattern s.stepPosition))) :
    execAll (dispatchCommands s.params s.pattern s.stepPosition) s =
      .next (performed (stepDispatchOps s.params s.pattern s.stepPosition) s) := by
  obtain ⟨hi, hh, hf⟩ := hs
  rw [stepDispatchOps_eq s.instr hd] at hf ⊢
  exact execAll_adapters _ s hi hh (dispatchCommands_adapter_wellFormed _ _ _) hf

end

/-- Settles O37: the dispatch's one micro-sequence is that of its commands, so both end in the same state. -/
theorem frameRunDispatchesTheCurrentStep : Obligations.FrameRunDispatchesTheCurrentStep := by
  refine ⟨decodesTo_of_row .frameRun rfl fun _ => rfl,
    fun p st k h => stepDispatchable_of_legal ((patternLegal_iff p st).1 h k),
    fun _ hp h => exec_frameRun_storeIllegal hp h, fun s hp ht hg hd hs => ?_⟩
  obtain ⟨_, _, hfree⟩ := (idle_iff s).1 hs.1
  have hacq : MicroOp.acq ∈ stepDispatchOps s.params s.pattern s.stepPosition :=
    (acq_begins_stepDispatch _ _ _).subset List.mem_cons_self
  exact ⟨_, execAll_dispatchCommands hd hs, exec_frameRun_performs hp ht hg hd hs,
    performed_brackets (isClean_stepDispatch _ _ _) (noMeterRead_stepDispatch _ _ _) hacq hfree⟩

/-! ### What every dispatch sends -/

/-- TONE_STEP ends with its envelope byte, and a step without a note sends nothing before it, at level 15 (R206). -/
theorem toneStepOps_ends_with_envelope (p : Params) (n : Byte) :
    ∃ before level, toneStepOps p n = before ++ toneEnvOps (psgChannelBits p) level
      ∧ (n = 0 → level = 15 ∧ before = []) := by
  unfold toneStepOps
  split
  next => exact ⟨[], 15, rfl, fun _ => ⟨rfl, rfl⟩⟩
  next h => exact ⟨_, _, rfl, fun h0 => absurd h0 h⟩

/-- PCM_STEP begins with the stop bracket, and without a gate sends nothing after it (R208). -/
theorem pcmStepOps_begins_with_stop (p : Params) (g a v : Byte) :
    ∃ later, pcmStepOps p (kitEntry? p g) a v = pcmStopOps p ++ later ∧ (g = 0 → later = []) := by
  by_cases hg : g = 0
  · subst hg
    exact ⟨[], (List.append_nil _).symm, fun _ => rfl⟩
  · cases kitEntry? p g with
    | none => exact ⟨[], (List.append_nil _).symm, fun _ => rfl⟩
    | some r =>
      refine ⟨pcmRegionOps p r.1 r.2 ++ pcmAccentOps p (a.extractLsb' 0 1) ++ pcmSpeedOps p v ++ pcmPlayOps p, ?_,
        fun h => absurd h hg⟩
      simp only [pcmStepOps, List.append_assoc]

/-- The events of TONE_ENV on the sequencer's channel (R162, R206). -/
theorem map_eventOf_envelope (p : Params) (level : BitVec 4) :
    (toneEnvOps (psgChannelBits p) level).map eventOf =
      [.acq, .tpw (BitVec.ofNat 8 (0x90 + 32 * p.psgChannel.val + level.toNat)), .rel] := by
  rw [toneEnvOps, toneEnvByte_eq, psgChannelBits_toNat]
  rfl

/-- Settles O38: the events of a dispatch are those of its micro-sequence, in which the envelope ends the tone part and
the stop begins the PCM part. -/
theorem everyDispatchSendsEnvelopeAndStop : Obligations.EveryDispatchSendsEnvelopeAndStop := by
  intro s hp ht hg hd hs envelope stop
  obtain ⟨before, level, htone, hrest⟩ :=
    toneStepOps_ends_with_envelope s.params (stepGet s.pattern.psgNote s.stepPosition)
  obtain ⟨later, hpcm, hstopped⟩ := pcmStepOps_begins_with_stop s.params (stepGet s.pattern.gate s.stepPosition)
    (stepGet s.pattern.accent s.stepPosition) (stepGet s.pattern.speed s.stepPosition)
  refine ⟨_, level, before.map eventOf,
    (fmStepOps s.params (stepGet s.pattern.fmNote s.stepPosition).toInt).map eventOf, later.map eventOf,
    exec_frameRun_performs hp ht hg hd hs, ?_, fun h => ?_, fun h => ?_, fun h => ?_⟩
  · show (performed (stepDispatchOps s.params s.pattern s.stepPosition) s).trace = _
    rw [performed_trace, eventsOf_eq_map (noMeterRead_stepDispatch _ _ _), stepDispatchOps, htone, hpcm]
    simp only [List.map_append, map_eventOf_envelope, List.append_assoc]
    rfl
  · obtain ⟨hlevel, hnone⟩ := hrest h
    exact ⟨hlevel, by rw [hnone]; rfl⟩
  · rw [h]
    rfl
  · rw [hstopped h]
    rfl

/-! ### What FRAME_RUN reads -/

/-- `t` with the registers that FRAME_RUN does not read (R217) as `o` holds them. -/
def withUnreadOf (o t : State) : State :=
  { t with
    instr := o.instr, mapDiv := o.mapDiv, mapBlock := o.mapBlock, mapFnum := o.mapFnum, meter := o.meter
    press := o.press, prevButtons := o.prevButtons, chordLatch := o.chordLatch, cmdErr := o.cmdErr }

/-- A progress with its state changed by `f`. -/
def Progress.map (f : State → State) : Progress → Progress
  | .done s => .done (f s)
  | .waiting s => .waiting (f s)
  | .faulted s => .faulted (f s)

/-- An outcome with its next state, if it is one, changed by `f`. -/
def mapNext (f : State → State) : Host.Outcome State Fault Refusal → Host.Outcome State Fault Refusal
  | .next s => .next (f s)
  | .fault r => .fault r
  | .refused r => .refused r

section
variable (o s : State)

theorem raiseFault_withUnreadOf (f : FaultCause) :
    raiseFault f (withUnreadOf o s) = withUnreadOf o (raiseFault f s) := by
  rw [raiseFault_spec, raiseFault_spec]
  rfl

theorem finish_withUnreadOf : finish (withUnreadOf o s) = withUnreadOf o (finish s) := by
  rw [finish_eq, finish_eq]
  rfl

theorem withUnreadOf_idle : (withUnreadOf o s).idle = s.idle := rfl

/-- A hold that waits or faults does so alike. -/
theorem stopped_withUnreadOf (b : Bool) (f : FaultCause) :
    (if b then Progress.faulted (raiseFault f (withUnreadOf o s)) else .waiting (withUnreadOf o s))
      = (if b then Progress.faulted (raiseFault f s) else .waiting s).map (withUnreadOf o) := by
  cases b
  · rfl
  · exact congrArg Progress.faulted (raiseFault_withUnreadOf o s f)

/-- One attempt of a micro-operation that is no meter read. -/
theorem attempt_withUnreadOf (fresh : Bool) {m : MicroOp} (hm : ∀ a, m ≠ .mbr a) :
    attempt fresh m (withUnreadOf o s) = (attempt fresh m s).map (withUnreadOf o) := by
  cases m with
  | mbr a => exact absurd rfl (hm a)
  | acq =>
    rw [attempt, attempt]
    cases hg : s.env.grant with
    | true => rw [attemptAcq_granted fresh hg, attemptAcq_granted (s := withUnreadOf o s) fresh hg]; rfl
    | false =>
      rw [attemptAcq_denied fresh hg, attemptAcq_denied (s := withUnreadOf o s) fresh hg]
      exact stopped_withUnreadOf o { s with busRetry := _, env := _ } _ _
  | fms =>
    rw [attempt, attempt]
    cases hb : s.env.busyAnswer with
    | false => rw [attemptFms_ready fresh hb, attemptFms_ready (s := withUnreadOf o s) fresh hb]; rfl
    | true =>
      rw [attemptFms_busy fresh hb, attemptFms_busy (s := withUnreadOf o s) fresh hb]
      exact stopped_withUnreadOf o { s with fmRetry := _, env := _, trace := _ } _ _
  | _ => rfl

/-- The executor on a micro-sequence without a meter read. -/
theorem runQueue_withUnreadOf (fresh : Bool) {ops : List MicroOp} (hm : NoMeterRead ops) :
    runQueue fresh ops (withUnreadOf o s) = withUnreadOf o (runQueue fresh ops s) := by
  induction ops generalizing fresh s with
  | nil => exact finish_withUnreadOf o s
  | cons m rest ih =>
    have hrest : NoMeterRead rest := fun a ha => hm a (List.mem_cons_of_mem _ ha)
    have hfirst : ∀ a, m ≠ .mbr a := fun a e => hm a (e ▸ List.mem_cons_self)
    rw [runQueue_cons, runQueue_cons, attempt_withUnreadOf o s fresh hfirst]
    cases attempt fresh m s with
    | done t => exact ih t true hrest
    | waiting t => rfl
    | faulted t => rfl

theorem accept_withUnreadOf {ops : List MicroOp} (hm : NoMeterRead ops) (ds : List Deferred) :
    accept (withUnreadOf o s) ops ds = mapNext (withUnreadOf o) (accept s ops ds) := by
  cases hi : s.idle with
  | false => rw [accept, accept, withUnreadOf_idle, hi]; rfl
  | true =>
    rw [accept_idle hi, accept_idle (s := withUnreadOf o s) hi]
    exact congrArg Host.Outcome.next (runQueue_withUnreadOf o { s with after := ds } true hm)

/-- FRAME_RUN decides by the sequencer's registers alone, and no dispatch reads the meter (R217). -/
theorem exec_frameRun_withUnreadOf :
    exec .frameRun (withUnreadOf o s) = mapNext (withUnreadOf o) (exec .frameRun s) := by
  have counts := accept_withUnreadOf o s noMeterRead_nil [.tickFrame]
  have dispatches := accept_withUnreadOf o s (noMeterRead_stepDispatch s.params s.pattern s.stepPosition)
    [.advanceStep, .tickFrame]
  simp only [exec, execFrameRun, apply_ite (mapNext (withUnreadOf o)), ← counts, ← dispatches]
  rfl

end

/-- Settles O55: FRAME_RUN commutes with replacing the registers it does not read. -/
theorem frameRunReadsOnlyTheSequencerState : Obligations.FrameRunReadsOnlyTheSequencerState := by
  intro x d b f m pr pv cl ce s other
  have commutes : exec .frameRun (other s) = mapNext other (exec .frameRun s) :=
    exec_frameRun_withUnreadOf (other s) s
  exact ⟨fun t h => by rw [commutes, h]; rfl, fun r h => by rw [commutes, h]; rfl⟩

end Sys2Proof.Machine
end

section
/-! The store commands (R230 to R239): each accepts a store that holds its clamped operand (R231). What a clamp stores
is written as the specification's arithmetic, and what SET_INSTR writes is read back field by field. -/

namespace Sys2Proof.Machine

open Laws

/-! ### What the clamps store -/

/-- The clamp of SET_TEMPO and SET_SPEED, which is also the one of a transmitted speed (R145, R233, R236). -/
theorem clampTo_one_eq (v : Byte) : clampTo 8 v 1 255 = if v.toNat = 0 then 1 else v := speedByte_eq v

/-- A clamp from 0 is a minimum (R8). -/
theorem clampTo_zero_eq (n : Nat) (v : Byte) (hi : Nat) : clampTo n v 0 hi = BitVec.ofNat n (min v.toNat hi) := by
  have h : clamp v.toNat 0 hi = (min v.toNat hi : Nat) := by
    unfold clamp
    split_ifs <;> omega
  rw [clampTo, narrow, h, BitVec.ofInt_natCast]

/-- A bound that fits the register is stored exactly (R136). -/
theorem clampTo_zero_toNat {n hi : Nat} (v : Byte) (h : hi < 2 ^ n) : (clampTo n v 0 hi).toNat = min v.toNat hi := by
  rw [clampTo_zero_eq, BitVec.toNat_ofNat, Nat.mod_eq_of_lt (Nat.lt_of_le_of_lt (Nat.min_le_right _ _) h)]

/-- The signed clamp from -1 (R238): a value in range is stored as its own byte. -/
theorem clampSigned_negOne_eq (v : Byte) (hi : Nat) :
    clampSigned v (-1) hi = if v.toInt < -1 then 0xFF else if v.toInt > hi then BitVec.ofNat 8 hi else v := by
  unfold clampSigned clamp narrow
  split_ifs
  · rfl
  · exact BitVec.ofInt_natCast 8 hi
  · exact BitVec.ofInt_toInt

/-- A boolean operand by its value (R235). -/
theorem accentValue_eq (v : Byte) : (if v ≠ 0 then 1 else 0 : Byte) = if v.toNat = 0 then 0 else 1 := by
  by_cases h : v.toNat = 0
  · obtain rfl : v = 0 := BitVec.eq_of_toNat_eq h
    rfl
  · rw [if_neg h, if_pos fun e => h (congrArg BitVec.toNat e)]

/-! ### The commands of the tempo and the step arrays -/

/-- Settles O10: a command that emits nothing ends where it began. -/
theorem nopChangesNothing : Obligations.NopChangesNothing :=
  ⟨decodesTo_of_row .nop rfl fun _ => rfl, fun _ hi => accept_nothing hi⟩

/-- Settles O11: the command accepts the store with its clamped operand. -/
theorem setTempoStoresTheClampedTempo : Obligations.SetTempoStoresTheClampedTempo := by
  refine ⟨decodesTo_of_row (.setTempo 0) rfl fun _ => rfl, fun v s hi => ?_⟩
  rw [← clampTo_one_eq]
  exact acceptStore_idle (s := { s with tempo := _ }) hi

/-- Settles O12: each command accepts the store whose named element is its clamped operand. -/
theorem stepFieldSettersStoreTheClampedValue : Obligations.StepFieldSettersStoreTheClampedValue := by
  refine ⟨decodesTo_of_row (.setGate 0 0) rfl fun _ => rfl, decodesTo_of_row (.setSpeed 0 0) rfl fun _ => rfl,
    decodesTo_of_row (.setPsgnote 0 0) rfl fun _ => rfl, fun k v s hi => ?_⟩
  rw [← clampTo_one_eq, ← clampTo_zero_eq, ← clampTo_zero_eq]
  exact ⟨acceptStore_idle (s := { s with pattern := _ }) hi, acceptStore_idle (s := { s with pattern := _ }) hi,
    acceptStore_idle (s := { s with pattern := _ }) hi⟩

/-- Settles O13: the command accepts the store whose named element is its boolean operand. -/
theorem setAccentStoresABoolean : Obligations.SetAccentStoresABoolean := by
  refine ⟨decodesTo_of_row (.setAccent 0 0) rfl fun _ => rfl, fun k v s hi => ?_⟩
  rw [← accentValue_eq]
  exact acceptStore_idle (s := { s with pattern := _ }) hi

/-- Settles O14: the command accepts the store whose named element is its clamped signed operand. -/
theorem setFmnoteStoresTheClampedSignedValue : Obligations.SetFmnoteStoresTheClampedSignedValue := by
  refine ⟨decodesTo_of_row (.setFmnote 0 0) rfl fun _ => rfl, fun k v s hi => ?_⟩
  rw [← clampSigned_negOne_eq]
  exact acceptStore_idle (s := { s with pattern := _ }) hi

/-! ### The fields of SET_INSTR -/

/-- The fields in the order of their identifiers (R35). -/
def instrFields : List InstrField :=
  [.lfoEnable, .lfoSpeed, .detune, .multiplier, .level, .attack, .release, .sustain, .decay, .amEnable, .feedback,
    .algorithm, .pan, .ams, .fms]

/-- The upper bound of a field (R35). -/
def InstrField.upperBound : InstrField → Nat
  | .lfoEnable => 1
  | .lfoSpeed => 7
  | .detune => 7
  | .multiplier => 15
  | .level => 127
  | .attack => 31
  | .release => 15
  | .sustain => 15
  | .decay => 31
  | .amEnable => 1
  | .feedback => 7
  | .algorithm => 7
  | .pan => 3
  | .ams => 3
  | .fms => 7

/-- An identifier names the field at its place in the list (R239). -/
theorem instrField?_eq_getElem? (field : BitVec 8) : instrField? field = instrFields[field.toNat]? := by
  rcases Nat.lt_or_ge field.toNat 15 with h | h
  · unfold instrField?
    generalize field.toNat = n at h ⊢
    interval_cases n <;> rfl
  · rw [instrField?_reserved h, List.getElem?_eq_none (l := instrFields) h]

/-- The bounds in the order of the identifiers. -/
theorem upperBound_of_getElem? {n : Nat} {f : InstrField} (h : instrFields[n]? = some f) :
    [1, 7, 7, 15, 127, 31, 15, 15, 31, 1, 7, 7, 3, 3, 7].getD n 0 = f.upperBound :=
  calc [1, 7, 7, 15, 127, 31, 15, 15, 31, 1, 7, 7, 3, 3, 7].getD n 0
      = ((instrFields.map InstrField.upperBound)[n]?).getD 0 := List.getD_eq_getElem?_getD
    _ = f.upperBound := by rw [List.getElem?_map, h]; rfl

section
variable (v : Byte) (x : Instrument)

/-- A register that was written reads the operand clamped to its field's bound; `level` reads it at the slot written. -/
theorem instrRead_instrWrite_same (f : InstrField) (k : Fin 24) {slot : Fin 24} (h : f = .level → slot = k) :
    instrRead f slot (instrWrite f k v x) = min v.toNat f.upperBound := by
  cases f with
  | level =>
    obtain rfl := h rfl
    simp only [instrRead, instrWrite, Fin.getElem_fin, Vector.getElem_set_self]
    exact clampTo_zero_toNat v (by decide)
  | _ => exact clampTo_zero_toNat v (by decide)

/-- The other slots of `level` keep their values. -/
theorem instrRead_instrWrite_slot {k slot : Fin 24} (h : slot ≠ k) :
    instrRead .level slot (instrWrite .level k v x) = instrRead .level slot x :=
  congrArg BitVec.toNat (Vector.getElem_set_ne k.isLt slot.isLt (Fin.val_ne_of_ne h.symm))

/-- The registers of the other fields keep their values: a pair of different fields is two different registers. -/
theorem instrRead_instrWrite_field {f g : InstrField} (k slot : Fin 24) (h : g ≠ f) :
    instrRead g slot (instrWrite f k v x) = instrRead g slot x := by
  cases f <;> cases g <;> first | contradiction | rfl

/-- What every register reads after one was written (R239). -/
theorem instrRead_instrWrite (f g : InstrField) (k slot : Fin 24) :
    instrRead g slot (instrWrite f k v x) =
      if g = f ∧ (f = .level → slot = k) then min v.toNat f.upperBound else instrRead g slot x := by
  split
  next h =>
    obtain ⟨rfl, hslot⟩ := h
    exact instrRead_instrWrite_same v x g k hslot
  next h =>
    by_cases hg : g = f
    · obtain ⟨rfl, hslot⟩ : f = .level ∧ slot ≠ k := by simpa [hg] using h
      rw [hg]
      exact instrRead_instrWrite_slot v x hslot
    · exact instrRead_instrWrite_field v x k slot hg

end

/-! ### SET_INSTR -/

/-- The operands as the decoder reads them pass its check when the field is not reserved and `level`'s slot is a
slot (R107). -/
theorem setInstrOk_readIndex {field : BitVec 8} {idx : BitVec 5} (hf : field.toNat < 15)
    (hx : field = 4 → idx.toNat < 24) : setInstrOk field (if field = 4 then idx else 0) = true := by
  rw [setInstrOk, decide_eq_true hf]
  by_cases h4 : field = 4
  · simpa [h4] using hx h4
  · rw [if_neg h4, if_neg h4]
    rfl

/-- A SET_INSTR that is not refused writes the register its field names, `level` at the slot `idx` (R239). -/
theorem exec_setInstr_accepted {field : BitVec 8} {idx : BitVec 5} {f : InstrField} {s : State} (v : Byte)
    (hi : s.idle = true) (hf : instrField? field = some f) (hx : f = .level → idx.toNat < 24) :
    ∃ k : Fin 24, (f = .level → k.val = idx.toNat)
      ∧ exec (.setInstr field idx v) s =
        .next { s with instr := instrWrite f k v s.instr, trace := s.trace ++ [.persist] } := by
  have stored (k : Fin 24) := acceptStore_idle (s := { s with instr := instrWrite f k v s.instr }) hi
  show ∃ k : Fin 24, _ ∧ execSetInstr field idx v s = _
  rw [execSetInstr, hf]
  cases f with
  | level =>
    refine ⟨⟨idx.toNat, hx rfl⟩, fun _ => rfl, ?_⟩
    rw [levelSlot?_ok (hx rfl)]
    exact stored _
  | _ => exact ⟨0, nofun, stored 0⟩

/-- Settles O15: an accepted SET_INSTR writes one register, which its field names and which reads back clamped. -/
theorem setInstrStoresTheClampedValue : Obligations.SetInstrStoresTheClampedValue := by
  refine ⟨fun w hw hf hx => ⟨if bits 16 8 w = 4 then bits 8 5 w else 0, ?_, fun h4 => if_pos h4⟩,
    fun field idx v s hi => ⟨fun f hf hx => ?_, fun h => ?_, ?_⟩⟩
  · exact (decode_of_row (.setInstr 0 0 0) hw).trans (checkOperands_ok (setInstrOk_readIndex hf hx))
  · obtain ⟨k, hk, hexec⟩ := exec_setInstr_accepted v hi ((instrField?_eq_getElem? field).trans hf) hx
    have slot_iff (slot : Fin 24) : (f = .level → slot.val = idx.toNat) ↔ (f = .level → slot = k) :=
      forall_congr' fun hl => by rw [← hk hl, Fin.val_inj]
    refine ⟨_, hexec, fun g slot => ?_⟩
    rw [upperBound_of_getElem? hf, instrRead_instrWrite]
    simp only [slot_iff]
  · exact (exec_setInstr_reservedField idx v s h).trans (refuse_idle hi)
  · rintro rfl h
    exact (exec_setInstr_reservedSlot v s h).trans (refuse_idle hi)

end Sys2Proof.Machine
end

section
/-! Faults (R250, R252, R254): what fault entry leaves behind, and a block whose two timeouts are infinite, on which no
hold times out and so no step enters one. -/

namespace Sys2Proof.Machine

/-! ### Fault entry -/

/-- The codes of R252. -/
theorem faultCodeOf_eq (f : FaultCause) : faultCodeOf f = if f = .busContention then 1 else 2 := by
  cases f <;> rfl

/-- After fault entry no command is in execution and the bus is free (R254). -/
theorem raiseFault_idle (f : FaultCause) (s : State) : (raiseFault f s).idle = true := by
  rw [raiseFault_spec]
  rfl

/-- Settles O46: the two lists of deferred updates differ in whether FRAME_RUN's increment is among them. -/
theorem faultEntryHaltsAndReleasesTheBus : Obligations.FaultEntryHaltsAndReleasesTheBus := by
  intro f s
  have entry := raiseFault_eq f s
  rw [faultCodeOf_eq] at entry
  exact ⟨fun ha => by simp [entry, ha], fun ha => by simp [entry, ha], raiseFault_idle f s⟩

/-! ### Infinite timeouts -/

/-- Without a timeout the executor completes or waits, and neither halts the block (R250, R253). -/
theorem runQueue_halted_of_infinite (fresh : Bool) {ops : List MicroOp} {s : State}
    (hb : bracketed s.busHeld ops = true) (hbus : s.params.busTimeout = none) (hfm : s.params.fmTimeout = none) :
    (runQueue fresh ops s).halted = s.halted := by
  rcases runQueue_result fresh ops s hb with ⟨c, _⟩ | ⟨w, _⟩ | f
  · exact c.halted
  · exact w.halted
  · exact absurd f.timeouts (by simp [hbus, hfm])

theorem exec_halted_of_infinite {i : Instr} {s t : State} (h : exec i s = .next t)
    (hbus : s.params.busTimeout = none) (hfm : s.params.fmTimeout = none) : t.halted = s.halted := by
  obtain ⟨hi, rfl | ⟨u, ops, ds, he, rfl⟩⟩ := exec_next_cases h
  · rfl
  · rw [runQueue_halted_of_infinite true (he.bracketed hi u) (by simpa using hbus) (by simpa using hfm)]
    exact ownWrites_halted i u s

theorem step_halted_of_infinite {s t : State} (h : step s = .next t)
    (hbus : s.params.busTimeout = none) (hfm : s.params.fmTimeout = none) : t.halted = s.halted := by
  rcases step_cases s with ⟨hu, _⟩ | ⟨_, _, e⟩ | ⟨w, rest, i, _, _, _, e⟩ | ⟨w, rest, _, _, _, _, e⟩
  · obtain ⟨hb, rfl⟩ := step_waiting hu h
    exact runQueue_halted_of_infinite (s := { s with uq := [] }) false hb hbus hfm
  · rw [e] at h
    cases h
    rfl
  · exact exec_halted_of_infinite (s := { s with port := rest }) (e.symm.trans h) hbus hfm
  · rw [e] at h
    rcases refuse_cases { s with port := rest } with ⟨_, hr⟩ | ⟨_, hr⟩ <;> rw [hr] at h <;> cases h
    rfl

/-- What a block with infinite timeouts keeps along every run: the invariant of R45, its timeouts, and that it is not
halted (R250). -/
structure Trapless (s : State) : Prop where
  inv : Inv s
  busTimeout : s.params.busTimeout = none
  fmTimeout : s.params.fmTimeout = none
  running : s.halted = false

/-- A block that is not halted has recorded no code (R39). -/
theorem Trapless.faultCode {s : State} (h : Trapless s) : s.faultCode = 0 := by
  obtain ⟨_, _, _, _, hf⟩ := h.inv
  exact ((faultStateOk_iff s).1 hf).2 h.running

theorem Trapless.step {s : State} (h : Trapless s) : ∃ t : State, Machine.step s = .next t ∧ Trapless t := by
  obtain ⟨t, hst, hinv⟩ := everyStepKeepsTheInvariant s h.inv
  obtain ⟨hp, _⟩ := step_keeps_status hst
  refine ⟨t, hst, hinv, ?_, ?_, ?_⟩
  · rw [hp, h.busTimeout]
  · rw [hp, h.fmTimeout]
  · rw [step_halted_of_infinite hst h.busTimeout h.fmTimeout, h.running]

theorem Trapless.run {s : State} (h : Trapless s) (n : Nat) :
    ∃ t : State, Host.Core.run Sys2Proof.core n s = .next t ∧ Trapless t := by
  induction n with
  | zero => exact ⟨s, rfl, h⟩
  | succ n ih =>
    obtain ⟨t, hrun, ht⟩ := ih
    obtain ⟨u, hst, hu⟩ := ht.step
    exact ⟨u, (run_succ hrun).trans hst, hu⟩

/-- Settles O49: `Trapless` holds along the run, and its last state has no code. -/
theorem infiniteTimeoutsNeverHalt : Obligations.InfiniteTimeoutsNeverHalt := by
  intro n s hi hbus hfm hh
  obtain ⟨t, hrun, ht⟩ := Trapless.run ⟨hi, hbus, hfm, hh⟩ n
  exact ⟨t, hrun, ht.running, ht.faultCode⟩

end Sys2Proof.Machine
end

section
/-! The boot image and the cold reset (R270 to R273): what the reference image holds, which images are legal, and that a
reset with a legal one answers the boot state. -/

namespace Sys2Proof.Machine

/-! ### The reference image -/

/-- An array filled with one value reads as that value at every step (R21). -/
@[simp] theorem stepGet_replicate (x : Byte) (k : BitVec 4) : stepGet (Vector.replicate 16 x) k = x :=
  Vector.getElem_replicate _

/-- The five step arrays of the reference image (R272). -/
theorem stepGet_reference (k : BitVec 4) :
    stepGet PatternStore.reference.gate k = 0 ∧ stepGet PatternStore.reference.accent k = 0
      ∧ stepGet PatternStore.reference.speed k = 1 ∧ stepGet PatternStore.reference.psgNote k = 0
      ∧ stepGet PatternStore.reference.fmNote k = 0 := by
  simp [PatternStore.reference]

/-- The value R272 gives each Instrument field; `level` has it in every slot. -/
def referenceValue : InstrField → Nat
  | .multiplier => 1
  | .attack => 31
  | .release => 15
  | .algorithm => 7
  | .pan => 3
  | _ => 0

/-- The registers of the reference Instrument file (R272). -/
theorem instrRead_reference (f : InstrField) (slot : Fin 24) :
    instrRead f slot Instrument.reference = referenceValue f := by
  cases f with
  | level => exact congrArg BitVec.toNat (Vector.getElem_replicate slot.isLt)
  | _ => rfl

/-! ### The cold reset -/

/-- A legal boot image, range by range (R22 to R26, R271). -/
theorem bootImage_legal_iff (p : Params) (b : BootImage) :
    b.legal p = true ↔ 1 ≤ b.tempo.toNat ∧ ∀ k : BitVec 4,
      (stepGet b.pattern.gate k).toNat ≤ p.kit.length
        ∧ (stepGet b.pattern.accent k).toNat ≤ 1 ∧ 1 ≤ (stepGet b.pattern.speed k).toNat
        ∧ (stepGet b.pattern.psgNote k).toNat ≤ p.psgNoteMax.toNat
        ∧ -1 ≤ (stepGet b.pattern.fmNote k).toInt ∧ (stepGet b.pattern.fmNote k).toInt ≤ p.fmNoteStoreMax := by
  rw [BootImage.legal, Bool.and_eq_true, decide_eq_true_iff, patternLegal_iff]
  exact and_congr_right' (forall_congr' (stepLegal_iff p b.pattern))

/-- A reset with legal parameters and a legal image is not refused (R270, R271). -/
theorem coldReset_of_legal {p : Params} {b : BootImage} (hp : p.legal = true) (hb : b.legal p = true) :
    coldReset p b = .next (State.boot p b) := by
  rw [coldReset, hp, hb]
  rfl

/-- Settles O56: the ranges make the image legal, so the reset answers the boot state, whose elements are those of
R273. -/
theorem resetWritesEveryElement : Obligations.ResetWritesEveryElement := by
  refine ⟨⟨rfl, stepGet_reference, fun slot => ?_⟩, fun p b hp ht hs => ⟨State.boot p b, ?_, ?_⟩⟩
  · exact (List.map_congr_left fun f _ => instrRead_reference f slot).trans rfl
  · exact coldReset_of_legal hp ((bootImage_legal_iff p b).2 ⟨ht, hs⟩)
  · simp

end Sys2Proof.Machine
end
